-- ==== Sys2Proof/Word.lean ====
section
/-! DEFINITION. The words of the block: bus words, 256-bit register words and window offsets
(spec/00_scope.md R6, R8). Every value is unsigned. -/

namespace Sys2Proof

/-- A 32-bit bus word: `pwdata`, `prdata`, a command word, a small immediate (R6, R8). -/
abbrev Word32 := BitVec 32

/-- A raw 256-bit register word (R6, R22). -/
abbrev Word256 := BitVec 256

/-- A byte offset in the block's 4 KiB window, `paddr[11:0]` (R6, R60). -/
abbrev Offset := BitVec 12

end Sys2Proof
end

