-- ==== Sys2Proof/Config.lean ====
section
/-! DEFINITION. What an implementation fixes: the constants of R6 and R35, the open parameters of
R7 and the free values of R68 and R219. An `opaque` constant has no body: nothing can be proved of
its value, so a statement about the machine holds for every value of it. -/

namespace Sys2Proof

/-- The classes of scalars SMUL's own timing may tell apart (R7, R183). -/
inductive SmulClass where
  | zero
  | one
  | two
  | bits (length : Nat)
  deriving DecidableEq, Repr

/-- The commands as their timing tells them apart: SMUL by the scalar's class, LSTEP without its bit, PDBL without
its slot (R7, R158, R183). -/
inductive CommandKind where
  | smul (cls : SmulClass)
  | pdbl
  | dadd
  | lstep
  | linit
  | affine
  /-- The latched word is no command: in no running engine of a run from reset. -/
  | invalid
  deriving DecidableEq, Repr

/-- The stretches of a command's work: the ladder's first pair, an iteration of the ladder, and what the command
completes from (R174, R179). -/
inductive Stage where
  | init
  | ladder
  | commit
  deriving DecidableEq, Repr

/-- A point of the engine's work: the command's kind, the stretch, in the ladder the bit's index and otherwise 0, and
how many field operations are left in the stretch. What the engine does next and when goes by this alone, so it
cannot depend on the ladder bit or an operand (R139, R158, R183). -/
structure IssuePoint where
  kind : CommandKind
  stage : Stage
  bit : Nat
  left : Nat
  deriving DecidableEq, Repr

namespace Config

/-- p = 2^255 − 19 (R6). -/
def fieldPrime : Nat := 2 ^ 255 - 19

/-- a24 = (A+2)/4 = 121666 (R6). -/
def a24 : Word32 := 121666

/-- The Montgomery coefficient A (R6). -/
def montgomeryA : Nat := 486662

/-- The constant read at ID (R3, R35). -/
def idWord : Word32 := 0x25519001

/-- Bytes in the register window (R60). -/
def windowBytes : Nat := 4096

/-- The 4 KiB page of the system map the window stands in: open (R7 `BASE_ADDR`). -/
opaque basePage : Nat

/-- `BASE_ADDR`: 4 KiB aligned, otherwise open (R7, R60). -/
def baseAddr : Nat := basePage * windowBytes

/-- The engine's own share of a command's latency, `LAT_SMUL(k)` by class, `LAT_PDBL`, `LAT_DADD`, `LAT_LSTEP` (one
for both values of B), `LAT_LINIT` or `LAT_AFFINE`: the edges it waits after its last field operation. Open, 0
included (R7, R158, R183, R243; PRESUMED split of the latency, log 5). -/
opaque latency : CommandKind → Nat

/-- For how many edges the engine waits at a point of its work before it goes on: open (R138, S12; log 28). -/
opaque gap : IssuePoint → Nat

/-- Whether the field operation at a point of the engine's work is requested over the FAU port; if not, the engine
has it done at once and without the port. The number of requests is open (R138, S12; log 28). -/
opaque onPort : IssuePoint → Bool

/-- For how many edges the FAU keeps `fau_req_ready` low for a request presented at an edge: open
(R130), and finite (R100). -/
opaque fauWait : Nat → Nat

/-- `LAT_FAU` less one, of a request (operation code, `fau_a`, `fau_b`, `fau_imm`) transferred at an
edge: open, "not even independence from operand values" is assumed (R7, R133). -/
opaque fauLatency : BitVec 4 → Word256 → Word256 → Word32 → Nat → Nat

/-- What a read of PMX, PMZ, PPX, PPZ or RESX returns at an edge while BUSY = 1: a free value (R68, S1). -/
opaque busyRead : Nat → Word32

/-- The 256-bit registers (by number) at an edge between a clock stop and the next reset: free values
(R219, S16). -/
opaque lostWord : Nat → Nat → Word256
/-- The one-bit fields (by number) at an edge between a clock stop and the next reset: free values. -/
opaque lostBit : Nat → Nat → Bool
/-- STATUS.RESULT at an edge between a clock stop and the next reset: a free value. -/
opaque lostResult : Nat → BitVec 4

end Config
end Sys2Proof
end

