-- ==== Sys2Proof/Syntax.lean ====
section
/-! DEFINITION. The whole syntax: the six commands and the ten field operations of
spec/opcode_table.json, the two encodings that carry them (R90, R130), and what the outside of the
block does at a clock edge (R61, R104, R230, R219). -/

namespace Sys2Proof

/-- The two ladder slots a PDBL can name: B = 0 is PM, B = 1 is PP (R91). -/
inductive Slot where
  | pm
  | pp
  deriving DecidableEq, Repr

/-- One constructor per row of spec/opcode_table.json. A command's register operands are implicit
(R91, R101); a field request carries its operand signals (R130). -/
inductive Instr where
  /-- SMUL (R174). -/
  | smul
  /-- PDBL S (R141). -/
  | pdbl (slot : Slot)
  /-- DADD (R154). -/
  | dadd
  /-- LSTEP b (R155). -/
  | lstep (bit : Bool)
  /-- LINIT (R170). -/
  | linit
  /-- AFFINE (R171). -/
  | affine
  /-- COPY a (R121). -/
  | fauCopy (a : Word256)
  /-- SETUI imm (R122). -/
  | fauSetui (imm : Word32)
  /-- ADD a b (R123). -/
  | fauAdd (a b : Word256)
  /-- SUB a b (R124). -/
  | fauSub (a b : Word256)
  /-- MUL a b (R125). -/
  | fauMul (a b : Word256)
  /-- SQR a (R126). -/
  | fauSqr (a : Word256)
  /-- MULUI a imm (R127). -/
  | fauMului (a : Word256) (imm : Word32)
  /-- INV a (R128). -/
  | fauInv (a : Word256)
  /-- ISZERO a (R129). -/
  | fauIszero (a : Word256)
  /-- EQ a b (R129). -/
  | fauEq (a b : Word256)
  deriving DecidableEq, Repr

/-- The request signals of the FAU port (R130). -/
structure FauReq where
  op : BitVec 4
  a : Word256
  b : Word256
  imm : Word32
  deriving DecidableEq, Repr

/-- The response signals of the FAU port that go with `fau_rsp_valid` = 1 (R130). -/
structure FauRsp where
  res : Word256
  err : Bool
  deriving DecidableEq, Repr

/-- The two carriers of an instruction: a command word (format CMDW, R90) or the signals of a field
request (format FAU_REQ, R130). -/
inductive Encoding where
  | cmdw (word : Word32)
  | fauReq (req : FauReq)
  deriving DecidableEq, Repr

/-- A host bus transfer: one 32-bit read or write at a byte offset (R61, R65). -/
inductive Transfer where
  | read (off : Offset)
  | write (off : Offset) (data : Word32)
  deriving DecidableEq, Repr

/-- What the block answers to a transfer: a read's `prdata` and `pslverr`, a write's `pslverr` (R61). -/
inductive BusResp where
  | read (data : Word32) (err : Bool)
  | write (err : Bool)
  deriving DecidableEq, Repr

/-- What happens outside the block at one clock edge: nothing, a statement of host assembly (R104), a
transfer or none while `rst_n` is low (R230, R232), a clock stop or power cycle (R219), or a response
of the FAU that answers no request (R131, S9). -/
inductive Input where
  | quiet
  /-- `wr OFF, V32` -/
  | wr (off : Offset) (data : Word32)
  /-- `rd OFF` -/
  | rd (off : Offset)
  /-- `rd OFF == V32` -/
  | rdEq (off : Offset) (expected : Word32)
  /-- `poll` -/
  | poll
  | rstLow (during : Option Transfer)
  | clockStop
  | strayFauResponse
  deriving DecidableEq, Repr

end Sys2Proof
end

