-- ==== Sys2Proof/WellFormed.lean ====
section
/-! DEFINITION. When an encoding is one of the hardware's: the checks of R90, R94, R102 and R103 on a
command word, and of R130 and R137 on a field request. An `Instr` needs no check of its own: its types
admit the operands the spec gives and no others, so ill-formed terms exist among encodings only. -/

namespace Sys2Proof

/-- The fields of a command word, most significant first (R90). -/
structure CmdFields where
  rsv1 : BitVec 23
  b : BitVec 1
  rsv0 : BitVec 4
  op : BitVec 4
  deriving DecidableEq, Repr

namespace CmdFields

/-- `OP` is one of the six opcodes (R94). -/
def opKnown (f : CmdFields) : Bool := decide (1 ≤ f.op.toNat ∧ f.op.toNat ≤ 6)

/-- `RSV0` is 0 (R90). -/
def lowReservedClear (f : CmdFields) : Bool := f.rsv0 == 0

/-- `RSV1` is 0 (R90). -/
def highReservedClear (f : CmdFields) : Bool := f.rsv1 == 0

/-- `B` is 0 unless the opcode is PDBL's or LSTEP's (R90, R94). -/
def operandBitAllowed (f : CmdFields) : Bool := f.b == 0 || f.op == 2 || f.op == 4

/-- The word whose fields these are. -/
def wf (f : CmdFields) : Bool :=
  f.highReservedClear && f.lowReservedClear && f.opKnown && f.operandBitAllowed

end CmdFields

/-- `legal(w)` in the spec's own words (R102). -/
def legalCommandWord (w : Word32) : Bool :=
  w.extractLsb' 9 23 == 0 && w.extractLsb' 4 4 == 0 &&
    [1, 2, 3, 4, 5, 6].contains (w.extractLsb' 0 4).toNat &&
    (w.getLsbD 8 == false || [2, 4].contains (w.extractLsb' 0 4).toNat)

/-- `fau_op` is not one of the reserved codes 0xA to 0xF (R130, R137). -/
def FauReq.wf (r : FauReq) : Bool := decide (r.op.toNat ≤ 9)

/-- A well-formed encoding. -/
def Encoding.wf : Encoding → Bool
  | .cmdw w => legalCommandWord w
  | .fauReq r => r.wf

/-- The operations the block itself presents: all but SETUI, ISZERO and EQ (R137). -/
def Instr.blockPresents : Instr → Bool
  | .smul | .pdbl _ | .dadd | .lstep _ | .linit | .affine => false
  | .fauSetui _ | .fauIszero _ | .fauEq _ _ => false
  | .fauCopy _ | .fauAdd _ _ | .fauSub _ _ | .fauMul _ _ | .fauSqr _ | .fauMului _ _ | .fauInv _ => true

end Sys2Proof
end

