-- ==== Sys2Proof/Decode.lean ====
section
/-! DEFINITION. The decoder, total and rejecting by name (R94, R102, R103, R137), and after it the
encoder, written from the same encodings. -/

namespace Sys2Proof

/-- Why an encoding is no instruction. -/
inductive DecodeError where
  /-- A nonzero bit in RSV1, bits 31:9 (R103). -/
  | highReservedBit
  /-- A nonzero bit in RSV0, bits 7:4 (R103). -/
  | lowReservedBit
  /-- OP = 0x0 or 0x7 to 0xF (R103). -/
  | reservedOpcode
  /-- B = 1 with SMUL, DADD, LINIT or AFFINE (R103). -/
  | strayOperandBit
  /-- `fau_op` = 0xA to 0xF (R130, R137). -/
  | reservedFauOp
  deriving DecidableEq, Repr

/-- The fields of a command word (R90). -/
def CmdFields.ofWord (w : Word32) : CmdFields where
  rsv1 := w.extractLsb' 9 23
  b := w.extractLsb' 8 1
  rsv0 := w.extractLsb' 4 4
  op := w.extractLsb' 0 4

/-- The opcodes of R94, `B` still to be checked. -/
def decodeOpcode (op : BitVec 4) (b : Bool) : Except DecodeError Instr :=
  match op.toNat, b with
  | 1, false => .ok .smul
  | 2, false => .ok (.pdbl .pm)
  | 2, true => .ok (.pdbl .pp)
  | 3, false => .ok .dadd
  | 4, bit => .ok (.lstep bit)
  | 5, false => .ok .linit
  | 6, false => .ok .affine
  | 1, true | 3, true | 5, true | 6, true => .error .strayOperandBit
  | _, _ => .error .reservedOpcode

/-- The command decoder (R102). -/
def decodeCmd (w : Word32) : Except DecodeError Instr :=
  let f := CmdFields.ofWord w
  if f.rsv1 ≠ 0 then .error .highReservedBit
  else if f.rsv0 ≠ 0 then .error .lowReservedBit
  else decodeOpcode f.op (f.b == 1)

/-- The field-request decoder: operations 0x0 to 0x9 (R121 to R129). A unary operation ignores `fau_b`,
and only SETUI and MULUI read `fau_imm` (R130). -/
def decodeFau (r : FauReq) : Except DecodeError Instr :=
  match r.op.toNat with
  | 0 => .ok (.fauCopy r.a)
  | 1 => .ok (.fauSetui r.imm)
  | 2 => .ok (.fauAdd r.a r.b)
  | 3 => .ok (.fauSub r.a r.b)
  | 4 => .ok (.fauMul r.a r.b)
  | 5 => .ok (.fauSqr r.a)
  | 6 => .ok (.fauMului r.a r.imm)
  | 7 => .ok (.fauInv r.a)
  | 8 => .ok (.fauIszero r.a)
  | 9 => .ok (.fauEq r.a r.b)
  | _ => .error .reservedFauOp

/-- The decoder. -/
def decode : Encoding → Except DecodeError Instr
  | .cmdw w => decodeCmd w
  | .fauReq r => decodeFau r

/-- A field request's signals read from one number, low bits first: `fau_op` 3:0, `fau_a` 259:4,
`fau_b` 515:260, `fau_imm` 547:516. DESIGN CHOICE, log 9: the spec numbers the bits of `fau_op` only. -/
def FauReq.ofBits (w : Nat) : FauReq where
  op := BitVec.ofNat 4 w
  a := BitVec.ofNat 256 (w >>> 4)
  b := BitVec.ofNat 256 (w >>> 260)
  imm := BitVec.ofNat 32 (w >>> 516)

/-- What the decoder reads from an opcode-table word: rows of 32 bits are command words, the others
field requests (log 9). -/
def decodeTableWord (nbits w : Nat) : Option Instr :=
  if nbits = 32 then
    if w < 2 ^ 32 then (decodeCmd (BitVec.ofNat 32 w)).toOption else none
  else if w < 2 ^ 548 then (decodeFau (FauReq.ofBits w)).toOption
  else none

/-- The word with the given fields (R90). -/
def CmdFields.toWord (f : CmdFields) : Word32 := f.rsv1 ++ f.b ++ f.rsv0 ++ f.op

/-- A command word with opcode `op`, operand bit `b` and the reserved fields 0 (R90, R106). -/
def cmdWord (op : BitVec 4) (b : Bool) : Word32 :=
  CmdFields.toWord { rsv1 := 0, b := BitVec.ofBool b, rsv0 := 0, op := op }

/-- The operand bit that names a slot (R91). -/
def Slot.bit : Slot → Bool
  | .pm => false
  | .pp => true

/-- The encoder: the table of R94 and the operation codes of R121 to R129. Signals an operation does not
read are 0 (log 24). -/
def encode : Instr → Encoding
  | .smul => .cmdw (cmdWord 1 false)
  | .pdbl slot => .cmdw (cmdWord 2 slot.bit)
  | .dadd => .cmdw (cmdWord 3 false)
  | .lstep bit => .cmdw (cmdWord 4 bit)
  | .linit => .cmdw (cmdWord 5 false)
  | .affine => .cmdw (cmdWord 6 false)
  | .fauCopy a => .fauReq ⟨0, a, 0, 0⟩
  | .fauSetui imm => .fauReq ⟨1, 0, 0, imm⟩
  | .fauAdd a b => .fauReq ⟨2, a, b, 0⟩
  | .fauSub a b => .fauReq ⟨3, a, b, 0⟩
  | .fauMul a b => .fauReq ⟨4, a, b, 0⟩
  | .fauSqr a => .fauReq ⟨5, a, 0, 0⟩
  | .fauMului a imm => .fauReq ⟨6, a, 0, imm⟩
  | .fauInv a => .fauReq ⟨7, a, 0, 0⟩
  | .fauIszero a => .fauReq ⟨8, a, 0, 0⟩
  | .fauEq a b => .fauReq ⟨9, a, b, 0⟩

/-- A field request's signals as one number, numbered as `FauReq.ofBits` reads them (log 9). -/
def FauReq.toBits (r : FauReq) : Nat := (r.imm ++ r.b ++ r.a ++ r.op).toNat

/-- The number of bits and the bits of an encoding, bit 0 the least significant (R8, R90; log 9). -/
def Encoding.bits : Encoding → Nat × Nat
  | .cmdw w => (32, w.toNat)
  | .fauReq r => (548, r.toBits)

end Sys2Proof
end

