-- ==== Sys2Proof/Machine/State.lean ====
section
/-! DEFINITION. The state of the block as plain data (spec/10_state.md R21 to R43), what surrounds it
(the host's coming inputs, R104), the reasons a step can stop, and the state after reset (R42). -/

namespace Sys2Proof.Machine

/-- A projective point (X:Z), two raw register words (R11, R22). -/
structure Point where
  x : Word256
  z : Word256
  deriving DecidableEq, Repr

/-- The 256-bit registers (R21, R22). -/
structure Regs where
  k : Word256
  xb : Word256
  pmx : Word256
  pmz : Word256
  ppx : Word256
  ppz : Word256
  resx : Word256
  deriving DecidableEq, Repr

/-- CTRL.IE and the fields of STATUS (R30 to R34). -/
structure Status where
  ie : Bool
  busy : Bool
  done : Bool
  result : BitVec 4
  overrun : Bool
  deriving DecidableEq, Repr

/-- The command word and the operand values captured at the start of a command (R40(b), R97). -/
structure Latch where
  word : Word32
  k : Word256
  xb : Word256
  pmx : Word256
  pmz : Word256
  ppx : Word256
  ppz : Word256
  deriving DecidableEq, Repr

/-- The field operations the engine requests (R137). -/
inductive FauOp where
  | copy
  | add
  | sub
  | mul
  | sqr
  | mului
  | inv
  deriving DecidableEq, Repr

/-- One field operation of the engine's sequence: the operation and the scratch places of its operands. -/
structure Uop where
  op : FauOp
  a : Nat
  b : Nat
  deriving DecidableEq, Repr

/-- The engine's hidden state (R40). The phase is not here: it is RUN exactly when BUSY = 1 (R40(a)). -/
structure Engine where
  latch : Latch
  w0 : Point
  w1 : Point
  bitIndex : BitVec 9
  swapSel : Bool
  /-- The scratch field elements (R40(f)), in the order they were computed; a place not yet written reads 0. -/
  scratch : List Word256
  /-- The field operations still to be done in this stretch; the head stays until it is answered. -/
  todo : List Uop
  /-- The stretch of the command's work: what follows when `todo` is done (R174, R179). -/
  stage : Stage
  /-- `fau_err` was seen on INV in this command (R182). -/
  invZero : Bool
  /-- Edges still to pass before the engine's next move (R7, R98, R138; log 5, 28). -/
  pause : Nat
  deriving DecidableEq, Repr

/-- The FAU transaction (R40(g), R131): none; a request presented, the FAU not ready for so many more
edges; or a request transferred and not yet answered, with the edges left. -/
inductive FauTxn where
  | idle
  | presented (req : FauReq) (wait : Nat)
  | outstanding (req : FauReq) (left : Nat)
  deriving DecidableEq, Repr

/-- The FAU port (R130): the transaction, and the response presented at the last edge, if any. -/
structure FauPort where
  txn : FauTxn
  rsp : Option FauRsp
  deriving DecidableEq, Repr

/-- The block's surroundings: the inputs at the coming edges, oldest first, the answer to the transfer
that ended at the last edge, how many `rd OFF == V32` saw another word, and the values of the host's `rd`
statements so far, newest first (R104). -/
structure Env where
  inputs : List Input
  resp : Option BusResp
  mismatches : Nat
  values : List Word32
  deriving DecidableEq, Repr

/-- The whole machine. -/
structure State where
  regs : Regs
  status : Status
  engine : Engine
  fau : FauPort
  env : Env
  /-- The model's own count of clock edges: it makes each free value of Config a fresh one (log 7). -/
  edge : Nat
  /-- A clock stop or power cycle has happened and no reset since (R219, log 10). -/
  powerLost : Bool
  deriving DecidableEq, Repr

/-- Why the machine stops with a fault. -/
inductive Fault where
  /-- Raised by a step of an engine in phase RUN whose latched word is no legal command: R97 latches
  legal words only, so no run from reset gets there. Safe (log 13). -/
  | latchedWordIllegal
  deriving DecidableEq, Repr

/-- Why the machine refuses a step. -/
inductive Refusal where
  /-- Raised by `exec` for an instruction that has no meaning yet; no instruction is left so. Safe. -/
  | notModelled (mnemonic : String)
  /-- Raised by a step whose FAU holds a request with `fau_op` 0xA to 0xF, which the block never
  presents (R137, S7: refuse). Safe (log 12). -/
  | reservedFauOp
  /-- Raised by a step at which the FAU answers no request of the block (R131, S9: refuse). Safe (log 11). -/
  | strayFauResponse
  deriving DecidableEq, Repr

/-- The registers after reset (R42). -/
def Regs.reset : Regs := ⟨0, 0, 0, 0, 0, 0, 0⟩

/-- CTRL and STATUS after reset (R42). -/
def Status.reset : Status := ⟨false, false, false, 0, false⟩

/-- The engine after reset: phase IDLE, latch, working slots, bit index, swap select and scratch 0 (R42). -/
def Engine.reset : Engine where
  latch := ⟨0, 0, 0, 0, 0, 0, 0⟩
  w0 := ⟨0, 0⟩
  w1 := ⟨0, 0⟩
  bitIndex := 0
  swapSel := false
  scratch := []
  todo := []
  stage := .commit
  invZero := false
  pause := 0

/-- The FAU port after reset: no request outstanding (R42, R131). -/
def FauPort.reset : FauPort := ⟨.idle, none⟩

/-- The machine right after reset (R42), with no inputs placed yet (log 2). -/
def State.reset : State where
  regs := Regs.reset
  status := Status.reset
  engine := Engine.reset
  fau := FauPort.reset
  env := ⟨[], none, 0, []⟩
  edge := 0
  powerLost := false

end Sys2Proof.Machine
end

