-- ==== Sys2Proof/Machine/Ops.lean ====
section
/-! DEFINITION. The shared operations on the state: the registers by name, the capture of a command's
operands (R97), the one completion every command ends with (R99), the completion of an illegal word
(R96), and the events from outside that touch all state (R42, R219). The block has no trap (R210):
completion with a result code is what stands in its place. -/

namespace Sys2Proof.Machine

/-- Continue with `f` where a step goes on. -/
def andThen (o : Host.Outcome State Fault Refusal) (f : State → Host.Outcome State Fault Refusal) :
    Host.Outcome State Fault Refusal :=
  match o with
  | .next s => f s
  | .fault r => .fault r
  | .refused r => .refused r

/-- The seven 256-bit registers, in the order of the address map (R21). -/
inductive WideReg where
  | k
  | xb
  | pmx
  | pmz
  | ppx
  | ppz
  | resx
  deriving DecidableEq, Repr

/-- `R[reg]` (R10, R22). -/
def Regs.get (r : Regs) : WideReg → Word256
  | .k => r.k
  | .xb => r.xb
  | .pmx => r.pmx
  | .pmz => r.pmz
  | .ppx => r.ppx
  | .ppz => r.ppz
  | .resx => r.resx

/-- `R[reg] <- v`: the whole register, neither reduced nor checked (R10, R22). -/
def Regs.set (r : Regs) (reg : WideReg) (v : Word256) : Regs :=
  match reg with
  | .k => { r with k := v }
  | .xb => { r with xb := v }
  | .pmx => { r with pmx := v }
  | .pmz => { r with pmz := v }
  | .ppx => { r with ppx := v }
  | .ppz => { r with ppz := v }
  | .resx => { r with resx := v }

/-- `R[reg] <- value` for each pair of a command's writes (R99). -/
def Regs.setAll (r : Regs) : List (WideReg × Word256) → Regs
  | [] => r
  | (reg, v) :: rest => (r.set reg v).setAll rest

/-- The engine's phase is RUN exactly when BUSY = 1 (R40(a)). -/
def State.running (s : State) : Bool := s.status.busy

/-- The values captured at the start of a command (R97). -/
def Latch.capture (w : Word32) (r : Regs) : Latch where
  word := w
  k := r.k
  xb := r.xb
  pmx := r.pmx
  pmz := r.pmz
  ppx := r.ppx
  ppz := r.ppz

/-- Slot PM as captured. -/
def Latch.pm (l : Latch) : Point := ⟨l.pmx, l.pmz⟩

/-- Slot PP as captured. -/
def Latch.pp (l : Latch) : Point := ⟨l.ppx, l.ppz⟩

/-- Completion (R99): the command's register writes, RESULT, BUSY ← 0 and DONE ← 1, all together. -/
def State.complete (s : State) (writes : List (WideReg × Word256)) (code : BitVec 4) : State :=
  { s with
    regs := s.regs.setAll writes
    status := { s.status with busy := false, done := true, result := code } }

/-- An illegal command word (R96): DONE ← 1 and RESULT ← ILLEGAL_CMD at the write; nothing else. -/
def State.rejectIllegal (s : State) (code : BitVec 4) : State :=
  { s with status := { s.status with done := true, result := code } }

/-- The FAU's response to the outstanding request (R130, R131): the answer stands on the port and the
transaction is over. -/
def State.respond (s : State) (res : Word256) (err : Bool) : State :=
  { s with fau := { txn := .idle, rsp := some ⟨res, err⟩ } }

/-- Every piece of the block's state at its reset value (R42, R230, R231). What is not the block's goes
on: the inputs still to come, what the host has read and the model's edge counter (log 7, 15). -/
def State.applyReset (s : State) : State :=
  { State.reset with env := s.env, edge := s.edge }

/-- The number of a register in the order of the address map. -/
def WideReg.number : WideReg → Nat
  | .k => 0
  | .xb => 1
  | .pmx => 2
  | .pmz => 3
  | .ppx => 4
  | .ppz => 5
  | .resx => 6

/-- The registers and flags as they may be read between a clock stop and the next reset: all free
(R219, S16, log 10). -/
def State.scrambled (s : State) : State :=
  { s with
    regs :=
      { k := Config.lostWord s.edge WideReg.k.number
        xb := Config.lostWord s.edge WideReg.xb.number
        pmx := Config.lostWord s.edge WideReg.pmx.number
        pmz := Config.lostWord s.edge WideReg.pmz.number
        ppx := Config.lostWord s.edge WideReg.ppx.number
        ppz := Config.lostWord s.edge WideReg.ppz.number
        resx := Config.lostWord s.edge WideReg.resx.number }
    status :=
      { ie := Config.lostBit s.edge 0
        busy := Config.lostBit s.edge 1
        done := Config.lostBit s.edge 2
        result := Config.lostResult s.edge
        overrun := Config.lostBit s.edge 3 } }

/-- The state whose registers and flags can be observed: free values after a clock stop (R219). -/
def State.observed (s : State) : State := if s.powerLost then s.scrambled else s

/-- The system address of a window offset (R60, R73). -/
def systemAddress (off : Offset) : Nat := Config.baseAddr + off.toNat

/-- The window offset a system address selects, if it is in the window (R60, R73). -/
def windowOffset (addr : Nat) : Option Offset :=
  if Config.baseAddr ≤ addr ∧ addr < Config.baseAddr + Config.windowBytes then
    some (BitVec.ofNat 12 (addr - Config.baseAddr))
  else none

end Sys2Proof.Machine
end

