-- ==== Sys2Proof/Machine/Operands.lean ====
section
/-! DEFINITION. Operand forms: a register word read as a field element (R23), the eight bus words of a
256-bit register (R63), and what a window offset selects (R21, R70, R71, R73). -/

namespace Sys2Proof.Machine

/-- `fe(w) = w mod p`: the field element a raw word denotes (R9, R23). -/
def fe (w : Word256) : Nat := w.toNat % Config.fieldPrime

/-- The canonical word of the field element `n mod p`, in 0..p−1 (R24, R120). -/
def canonical (n : Nat) : Word256 := BitVec.ofNat 256 (n % Config.fieldPrime)

/-- The word 1, the Z of a freshly initialised point (R170). -/
def oneWord : Word256 := 1

/-- `word_j(v) = v[32j+31 : 32j]` (R8, R63). -/
def wordOf (v : Word256) (j : Fin 8) : Word32 := v.extractLsb' (32 * j.val) 32

/-- The value with word `j` replaced and the other seven words kept (R22, R67). -/
def setWordOf (v : Word256) (j : Fin 8) (d : Word32) : Word256 :=
  (v &&& ~~~((BitVec.allOnes 32).setWidth 256 <<< (32 * j.val))) ||| (d.setWidth 256 <<< (32 * j.val))

/-- What an offset of the window selects. -/
inductive Target where
  | misaligned
  | reserved
  | id
  | ctrl
  | status
  | cmd
  | wide (reg : WideReg) (j : Fin 8)
  deriving DecidableEq, Repr

/-- The register that holds the window's word numbers 8n to 8n+7, for n = 1 to 7 (R21). -/
def wideAt : Nat → Option WideReg
  | 1 => some .k
  | 2 => some .xb
  | 3 => some .pmx
  | 4 => some .pmz
  | 5 => some .ppx
  | 6 => some .ppz
  | 7 => some .resx
  | _ => none

/-- The address map, misalignment first and then reserved offsets (R21, R70, R71, R73, R207). -/
def target (off : Offset) : Target :=
  if off.toNat % 4 ≠ 0 then .misaligned
  else
    match off.toNat / 4 with
    | 0 => .id
    | 1 => .ctrl
    | 2 => .status
    | 3 => .cmd
    | n =>
      match wideAt (n / 8) with
      | some reg => .wide reg (Fin.ofNat 8 n)
      | none => .reserved

/-- The offset of word `j` of a 256-bit register: base offset plus 4j (R21, R63). -/
def wordOffset (reg : WideReg) (j : Fin 8) : Offset :=
  let base : Nat :=
    match reg with
    | .k => 0x020
    | .xb => 0x040
    | .pmx => 0x060
    | .pmz => 0x080
    | .ppx => 0x0A0
    | .ppz => 0x0C0
    | .resx => 0x0E0
  BitVec.ofNat 12 (base + 4 * j.val)

/-- The offset of CTRL (R21). -/
def ctrlOffset : Offset := 0x004
/-- The offset of STATUS (R21). -/
def statusOffset : Offset := 0x008
/-- The offset of CMD (R21). -/
def cmdOffset : Offset := 0x00C

end Sys2Proof.Machine
end

