-- ==== Sys2Proof/Machine/Fau.lean ====
section
/-! DEFINITION. The field-arithmetic contract (spec/40_field_interface.md): each operation as a pure
function on raw 256-bit words read modulo p, its result canonical (R120), and the meaning of each FAU
request: the response it gets (R121 to R131). -/

namespace Sys2Proof.Machine

/-- COPY: fe(a) (R121). -/
def fieldCopy (a : Word256) : Word256 := canonical (fe a)

/-- SETUI: imm mod p (R122). -/
def fieldSetui (imm : Word32) : Word256 := canonical imm.toNat

/-- ADD: (fe(a) + fe(b)) mod p (R123). -/
def fieldAdd (a b : Word256) : Word256 := canonical (fe a + fe b)

/-- SUB: (fe(a) − fe(b)) mod p, in 0..p−1 (R124). -/
def fieldSub (a b : Word256) : Word256 := canonical (fe a + (Config.fieldPrime - fe b))

/-- MUL: (fe(a) · fe(b)) mod p (R125). -/
def fieldMul (a b : Word256) : Word256 := canonical (fe a * fe b)

/-- SQR: fe(a)² mod p (R126). -/
def fieldSqr (a : Word256) : Word256 := canonical (fe a * fe a)

/-- MULUI: (fe(a) · imm) mod p (R127). -/
def fieldMului (a : Word256) (imm : Word32) : Word256 := canonical (fe a * imm.toNat)

/-- `acc · a^e mod m` for an exponent of at most `n` bits, by squaring. -/
def powMod (m : Nat) : (n a e acc : Nat) → Nat
  | 0, _, _, acc => acc
  | n + 1, a, e, acc => powMod m n (a * a % m) (e / 2) (if e % 2 = 1 then acc * a % m else acc)

/-- `finv(fe(a))`, the b in 1..p−1 with fe(a)·b ≡ 1 for fe(a) ≠ 0 (R9, R128), computed as fe(a)^(p−2).
DEDUCED from p being prime, log 16. -/
def finv (a : Word256) : Word256 :=
  canonical (powMod Config.fieldPrime 255 (fe a) (Config.fieldPrime - 2) 1)

/-- INV: the inverse and `fau_err` = 0, or 0 and `fau_err` = 1 when fe(a) = 0 (R128). -/
def fieldInv (a : Word256) : Word256 × Bool :=
  if fe a = 0 then (0, true) else (finv a, false)

/-- ISZERO: 1 when fe(a) = 0, else 0 (R129); carried on `fau_res` (DEDUCED, log 8). -/
def fieldIszero (a : Word256) : Word256 := if fe a = 0 then 1 else 0

/-- EQ: 1 when fe(a) = fe(b), else 0 (R129); carried on `fau_res` (DEDUCED, log 8). -/
def fieldEq (a b : Word256) : Word256 := if fe a = fe b then 1 else 0

/-- `fau.copy` (R121). -/
def execFauCopy (a : Word256) (s : State) : Host.Outcome State Fault Refusal :=
  .next (s.respond (fieldCopy a) false)

/-- `fau.setui` (R122). -/
def execFauSetui (imm : Word32) (s : State) : Host.Outcome State Fault Refusal :=
  .next (s.respond (fieldSetui imm) false)

/-- `fau.add` (R123). -/
def execFauAdd (a b : Word256) (s : State) : Host.Outcome State Fault Refusal :=
  .next (s.respond (fieldAdd a b) false)

/-- `fau.sub` (R124). -/
def execFauSub (a b : Word256) (s : State) : Host.Outcome State Fault Refusal :=
  .next (s.respond (fieldSub a b) false)

/-- `fau.mul` (R125). -/
def execFauMul (a b : Word256) (s : State) : Host.Outcome State Fault Refusal :=
  .next (s.respond (fieldMul a b) false)

/-- `fau.sqr` (R126). -/
def execFauSqr (a : Word256) (s : State) : Host.Outcome State Fault Refusal :=
  .next (s.respond (fieldSqr a) false)

/-- `fau.mului` (R127). -/
def execFauMului (a : Word256) (imm : Word32) (s : State) : Host.Outcome State Fault Refusal :=
  .next (s.respond (fieldMului a imm) false)

/-- `fau.inv` (R128). -/
def execFauInv (a : Word256) (s : State) : Host.Outcome State Fault Refusal :=
  .next (s.respond (fieldInv a).1 (fieldInv a).2)

/-- `fau.iszero` (R129). -/
def execFauIszero (a : Word256) (s : State) : Host.Outcome State Fault Refusal :=
  .next (s.respond (fieldIszero a) false)

/-- `fau.eq` (R129). -/
def execFauEq (a b : Word256) (s : State) : Host.Outcome State Fault Refusal :=
  .next (s.respond (fieldEq a b) false)

end Sys2Proof.Machine
end

