-- ==== Sys2Proof/Machine/Flags.lean ====
section
/-! DEFINITION. Every computation on the status flags: result codes (R200), the words read at CTRL and
STATUS (R30, R34), the write-1-to-clear bits (R32, R34), OVERRUN (R34), `irq` (R37). -/

namespace Sys2Proof.Machine

/-- Result code 0 (R200). -/
def codeOk : BitVec 4 := 0
/-- Result code 1: DegenerateScalar (R200). -/
def codeInfinity : BitVec 4 := 1
/-- Result code 2: InversionOfZero (R200). -/
def codeInvZero : BitVec 4 := 2
/-- Result code 3: an illegal command word (R200). -/
def codeIllegalCmd : BitVec 4 := 3

/-- The STATUS word: OVERRUN in bit 8, RESULT in bits 7:4, DONE in bit 1, BUSY in bit 0, all other bits 0 (R34). -/
def Status.statusWord (t : Status) : Word32 :=
  (0 : BitVec 23) ++ BitVec.ofBool t.overrun ++ t.result ++ (0 : BitVec 2) ++ BitVec.ofBool t.done ++
    BitVec.ofBool t.busy

/-- The CTRL word: IE in bit 0, all other bits 0 (R30). -/
def Status.ctrlWord (t : Status) : Word32 := (BitVec.ofBool t.ie).setWidth 32

/-- A write to CTRL: IE takes bit 0 (R30, R67). -/
def Status.writeCtrl (t : Status) (v : Word32) : Status := { t with ie := v.getLsbD 0 }

/-- A write to STATUS: bit 1 clears DONE, bit 8 clears OVERRUN, other bits are ignored (R67). -/
def Status.writeStatus (t : Status) (v : Word32) : Status :=
  { t with
    done := t.done && !v.getLsbD 1
    overrun := t.overrun && !v.getLsbD 8 }

/-- A write dropped because the block is busy (R34, R69). -/
def Status.setOverrun (t : Status) : Status := { t with overrun := true }

/-- The start of a legal command: BUSY ← 1, DONE ← 0, RESULT unchanged (R97). -/
def Status.start (t : Status) : Status := { t with busy := true, done := false }

/-- The interrupt output: `CTRL.IE & STATUS.DONE` (R37, R209). -/
def State.irq (s : State) : Bool := s.observed.status.ie && s.observed.status.done

end Sys2Proof.Machine
end

