-- ==== Sys2Proof/Machine/Doubler.lean ====
section
/-! DEFINITION. The `projective_doubler`: DBL and the PDBL command (spec/41_projective_doubler.md). -/

namespace Sys2Proof.Machine

/-- DBL(X, Z) (R140), exact and canonical. -/
def dbl (q : Point) : Point :=
  let a := fieldAdd q.x q.z
  let b := fieldSub q.x q.z
  let aa := fieldSqr a
  let bb := fieldSqr b
  let e := fieldSub aa bb
  { x := fieldMul aa bb
    z := fieldMul e (fieldAdd bb (fieldMului e Config.a24)) }

/-- The registers of a point written to slot PM. -/
def writesPm (q : Point) : List (WideReg × Word256) := [(.pmx, q.x), (.pmz, q.z)]

/-- The registers of a point written to slot PP. -/
def writesPp (q : Point) : List (WideReg × Word256) := [(.ppx, q.x), (.ppz, q.z)]

/-- PDBL S: the slot's captured point doubled in place, OK always (R141). -/
def execPdbl (slot : Slot) (s : State) : Host.Outcome State Fault Refusal :=
  match slot with
  | .pm => .next (s.complete (writesPm (dbl s.engine.latch.pm)) codeOk)
  | .pp => .next (s.complete (writesPp (dbl s.engine.latch.pp)) codeOk)

end Sys2Proof.Machine
end

