-- ==== Sys2Proof/Machine/Adder.lean ====
section
/-! DEFINITION. The `differential_adder` and the combined ladder step: DIFFADD, CSWAP, LADDERSTEP and the
DADD and LSTEP commands (spec/42_ladder_step.md). -/

namespace Sys2Proof.Machine

/-- DIFFADD((X2, Z2), (X3, Z3), x1) (R150), exact and canonical. -/
def diffadd (q r : Point) (x1 : Word256) : Point :=
  let a := fieldAdd q.x q.z
  let b := fieldSub q.x q.z
  let c := fieldAdd r.x r.z
  let d := fieldSub r.x r.z
  let da := fieldMul d a
  let cb := fieldMul c b
  { x := fieldSqr (fieldAdd da cb)
    z := fieldMul x1 (fieldSqr (fieldSub da cb)) }

/-- CSWAP(s, U, V): (U, V) if s = 0, (V, U) if s = 1 (R152). -/
def cswap (s : Bool) (u v : Point) : Point × Point :=
  match s with
  | false => (u, v)
  | true => (v, u)

/-- LADDERSTEP(Pm, Pp, x1, b) (R153): both results from the values before the step. -/
def ladderStep (pm pp : Point) (x1 : Word256) (b : Bool) : Point × Point :=
  let uv := cswap b pm pp
  cswap b (dbl uv.1) (diffadd uv.1 uv.2 x1)

/-- DADD: DIFFADD of the captured slots into PP, OK always (R154). -/
def execDadd (s : State) : Host.Outcome State Fault Refusal :=
  let l := s.engine.latch
  .next (s.complete (writesPp (diffadd l.pm l.pp l.xb)) codeOk)

/-- LSTEP b: one ladder step on the captured slots, OK always (R155). -/
def execLstep (b : Bool) (s : State) : Host.Outcome State Fault Refusal :=
  let l := s.engine.latch
  let r := ladderStep l.pm l.pp l.xb b
  .next (s.complete (writesPm r.1 ++ writesPp r.2) codeOk)

end Sys2Proof.Machine
end

