-- ==== Sys2Proof/Machine/Driver.lean ====
section
/-! DEFINITION. The ladder driver: LINIT, AFFINE and SMUL (spec/43_ladder_driver.md). -/

namespace Sys2Proof.Machine

/-- The trivial point (x:1) of an x-coordinate (R170). -/
def trivialPoint (xb : Word256) : Point := ⟨fieldCopy xb, oneWord⟩

/-- LINIT: PM ← (x:1), PP ← DBL(x, 1), OK always (R170). -/
def execLinit (s : State) : Host.Outcome State Fault Refusal :=
  let q := trivialPoint s.engine.latch.xb
  .next (s.complete (writesPm q ++ writesPp (dbl q)) codeOk)

/-- TOAFFINE(X, Z): X/Z with OK, or 0 with INV_ZERO when fe(Z) = 0 (R178). -/
def toAffine (q : Point) : Word256 × BitVec 4 :=
  if fe q.z = 0 then (0, codeInvZero) else (fieldMul q.x (finv q.z), codeOk)

/-- AFFINE: TOAFFINE of the captured slot PM into RESX (R171). -/
def execAffine (s : State) : Host.Outcome State Fault Refusal :=
  let r := toAffine s.engine.latch.pm
  .next (s.complete [(.resx, r.1)] r.2)

/-- The position, counted from 1, of the most significant set bit among the low `n` bits; 0 if none. -/
def bitLenBelow (k : Word256) : Nat → Nat
  | 0 => 0
  | n + 1 => if k.getLsbD n then n + 1 else bitLenBelow k n

/-- L = bitlen(k) (R10, R172). -/
def bitLen (k : Word256) : Nat := bitLenBelow k 256

/-- The ladder loop over bits n−1 down to 0 of k (R174, R179). -/
def ladderLoop (k x : Word256) : Nat → Point × Point → Point × Point
  | 0, w => w
  | n + 1, w => ladderLoop k x n (ladderStep w.1 w.2 x (k.getLsbD n))

/-- The working slots at the end of the general path: from ((x:1), DBL(x, 1)), bits L−2 down to 0 (R179). -/
def ladder (k xb : Word256) : Point × Point :=
  let q := trivialPoint xb
  ladderLoop k q.x (bitLen k - 1) (q, dbl q)

/-- SMUL's RESX and result code (R174): k = 0 (R175), k = 1 (R176), k = 2 (R177), k ≥ 3 (R179). -/
def smulResult (k xb : Word256) : Word256 × BitVec 4 :=
  if k = 0 then (0, codeInfinity)
  else if k = 1 then (fieldCopy xb, codeOk)
  else if k = 2 then toAffine (dbl (trivialPoint xb))
  else toAffine (ladder k xb).1

/-- SMUL: scalar multiplication of the captured K and XB into RESX (R174, R185). -/
def execSmul (s : State) : Host.Outcome State Fault Refusal :=
  let r := smulResult s.engine.latch.k s.engine.latch.xb
  .next (s.complete [(.resx, r.1)] r.2)

end Sys2Proof.Machine
end

