-- ==== Sys2Proof/Machine/Engine.lean ====
section
/-! DEFINITION. The `montgomery_ladder_engine`'s sequencing: the field operations each command does, in the
reference sequence of R138 (DESIGN CHOICE, log 4), when and how many of them over the port left open (log 28), the
ladder's working slots, bit index and swap select (R40, R179), and the FAU handshake seen from the block (R130,
R131). What a command WRITES is its meaning's alone (R98); this file paces it. -/

namespace Sys2Proof.Machine

/-- The scratch element at a place; 0 where none is held yet (log 17). -/
def place (scratch : List Word256) (n : Nat) : Word256 := scratch.getD n 0

/-- The doubling's operations from its sum and difference on (R138, doubling 3 to 9): `a` and `b` are the
places of X+Z and X−Z, `n` the place the first result takes. -/
def doublingTail (a b n : Nat) : List Uop :=
  [⟨.sqr, a, 0⟩, ⟨.sqr, b, 0⟩, ⟨.mul, n, n + 1⟩, ⟨.sub, n, n + 1⟩, ⟨.mului, n + 3, 0⟩,
    ⟨.add, n + 1, n + 4⟩, ⟨.mul, n + 3, n + 5⟩]

/-- Doubling of the point at places `x`, `z`, its first result at place `n` (R138, 9 requests): X' is left
at place n+4 and Z' at place n+8. -/
def doublingSeq (x z n : Nat) : List Uop :=
  [⟨.add, x, z⟩, ⟨.sub, x, z⟩] ++ doublingTail n (n + 1) (n + 2)

/-- Differential addition of the points at places 0, 1 and 2, 3 with x1 at place 4 (R138, 11 requests): X5
is left at place 13 and Z5 at place 15. -/
def diffaddSeq : List Uop :=
  [⟨.add, 0, 1⟩, ⟨.sub, 0, 1⟩, ⟨.add, 2, 3⟩, ⟨.sub, 2, 3⟩, ⟨.mul, 8, 5⟩, ⟨.mul, 7, 6⟩, ⟨.add, 9, 10⟩,
    ⟨.sub, 9, 10⟩, ⟨.sqr, 11, 0⟩, ⟨.sqr, 12, 0⟩, ⟨.mul, 4, 14⟩]

/-- The combined step (R138, 18 requests): the differential addition, then the doubling reusing its sum and
difference at places 5 and 6; X' is left at place 18 and Z' at place 22. -/
def stepSeq : List Uop := diffaddSeq ++ doublingTail 5 6 16

/-- The first pair of the ladder from the raw x at place 0 and 1 at place 1 (R170, R179): x at place 2, then
its doubling, X' at place 7 and Z' at place 11. -/
def initSeq : List Uop := ⟨.copy, 0, 0⟩ :: doublingSeq 2 1 3

/-- TOAFFINE of the point at places `x`, `z` (R178), its inverse at place `n`, the result at place n+1. -/
def affineSeq (x z n : Nat) : List Uop := [⟨.inv, z, 0⟩, ⟨.mul, x, n⟩]

/-- The scratch a combined step of (pm, pp) starts from: the pair swapped by the bit, then x1 (R138, R153). -/
def stepScratch (pm pp : Point) (x1 : Word256) (b : Bool) : List Word256 :=
  let uv := cswap b pm pp
  [uv.1.x, uv.1.z, uv.2.x, uv.2.z, x1]

/-- The class of a scalar for SMUL's timing (R7, R183). -/
def smulClass (k : Word256) : SmulClass :=
  if k = 0 then .zero else if k = 1 then .one else if k = 2 then .two else .bits (bitLen k)

/-- A command's kind for its timing. The last ten instructions are no commands. -/
def kindOf (i : Instr) (l : Latch) : CommandKind :=
  match i with
  | .smul => .smul (smulClass l.k)
  | .pdbl _ => .pdbl
  | .dadd => .dadd
  | .lstep _ => .lstep
  | .linit => .linit
  | .affine => .affine
  | .fauCopy _ | .fauSetui _ | .fauAdd _ _ | .fauSub _ _ | .fauMul _ _ | .fauSqr _ | .fauMului _ _
  | .fauInv _ | .fauIszero _ | .fauEq _ _ => .invalid

/-- The kind of the latched command. -/
def Latch.kind (l : Latch) : CommandKind :=
  match decodeCmd l.word with
  | .ok i => kindOf i l
  | .error _ => .invalid

/-- L of SMUL's general path (R172, R179); no other command has a ladder. -/
def Latch.ladderLength (l : Latch) : Nat :=
  match l.kind with
  | .smul (.bits n) => n
  | .smul .zero | .smul .one | .smul .two | .pdbl | .dadd | .lstep | .linit | .affine | .invalid => 0

/-- Where the engine is in its work. -/
def Engine.point (e : Engine) : IssuePoint where
  kind := e.latch.kind
  stage := e.stage
  bit :=
    match e.stage with
    | .ladder => e.bitIndex.toNat
    | .init | .commit => 0
  left := e.todo.length

/-- The engine comes to a point of its work and waits there: for the command's own share of the latency when all is
done, otherwise for the point's gap (log 5, 28). -/
def Engine.rest (e : Engine) : Engine :=
  { e with
    pause :=
      match e.todo, e.stage with
      | [], .commit => Config.latency e.latch.kind
      | [], .init | [], .ladder | _ :: _, _ => Config.gap e.point }

/-- The scratch, the operations and the stage a command starts with (R138, R174). The last ten are no
commands: the engine never starts them. -/
def planOf (i : Instr) (l : Latch) : List Word256 × List Uop × Stage :=
  match i with
  | .smul =>
    match smulClass l.k with
    | .zero => ([], [], .commit)
    | .one => ([l.xb], [⟨.copy, 0, 0⟩], .commit)
    | .two => ([l.xb, oneWord], initSeq ++ affineSeq 7 11 12, .commit)
    | .bits _ => ([l.xb, oneWord], initSeq, .init)
  | .pdbl .pm => ([l.pmx, l.pmz], doublingSeq 0 1 2, .commit)
  | .pdbl .pp => ([l.ppx, l.ppz], doublingSeq 0 1 2, .commit)
  | .dadd => ([l.pmx, l.pmz, l.ppx, l.ppz, l.xb], diffaddSeq, .commit)
  | .lstep b => (stepScratch l.pm l.pp l.xb b, stepSeq, .commit)
  | .linit => ([l.xb, oneWord], initSeq, .commit)
  | .affine => ([l.pmx, l.pmz], affineSeq 0 1 2, .commit)
  | .fauCopy _ | .fauSetui _ | .fauAdd _ _ | .fauSub _ _ | .fauMul _ _ | .fauSqr _ | .fauMului _ _
  | .fauInv _ | .fauIszero _ | .fauEq _ _ => ([], [], .commit)

/-- The swap select at a command's start: B for LSTEP (R152), otherwise as it was. -/
def Engine.swapAtStart (e : Engine) : Instr → Bool
  | .lstep b => b
  | .smul | .pdbl _ | .dadd | .linit | .affine | .fauCopy _ | .fauSetui _ | .fauAdd _ _ | .fauSub _ _
  | .fauMul _ _ | .fauSqr _ | .fauMului _ _ | .fauInv _ | .fauIszero _ | .fauEq _ _ => e.swapSel

/-- The engine at the start of command `i`: the latch filled and the sequence loaded (R40, R97). -/
def Engine.load (e : Engine) (i : Instr) (l : Latch) : Engine :=
  { e with
    latch := l
    swapSel := e.swapAtStart i
    scratch := (planOf i l).1
    todo := (planOf i l).2.1
    stage := (planOf i l).2.2
    invZero := false }.rest

/-- Load the ladder iteration for bit `n` of the scalar: the swap select takes the bit (R40(e), R152). -/
def Engine.loadIteration (e : Engine) (x1 : Word256) (n : BitVec 9) : Engine :=
  let b := e.latch.k.getLsbD n.toNat
  { e with
    bitIndex := n
    swapSel := b
    scratch := stepScratch e.w0 e.w1 x1 b
    todo := stepSeq
    stage := .ladder }

/-- The first pair is computed: it enters the working slots, and bit L−2 is next (R179(2), (3)). -/
def Engine.enterLadder (e : Engine) : Engine :=
  { e with
    w0 := ⟨place e.scratch 2, place e.scratch 1⟩
    w1 := ⟨place e.scratch 7, place e.scratch 11⟩ }.loadIteration
      (place e.scratch 2) (BitVec.ofNat 9 (e.latch.ladderLength - 2))

/-- An iteration is computed: its pair, swapped back, enters the working slots (R152, R153). -/
def Engine.takePair (e : Engine) : Engine :=
  let r := cswap e.swapSel ⟨place e.scratch 18, place e.scratch 22⟩ ⟨place e.scratch 13, place e.scratch 15⟩
  { e with w0 := r.1, w1 := r.2 }

/-- The loop is over: the even point's conversion is next (R179(4)). -/
def Engine.enterAffine (e : Engine) : Engine :=
  { e with
    scratch := [e.w0.x, e.w0.z]
    todo := affineSeq 0 1 2
    stage := .commit }

/-- The end of an iteration: the next lower bit, or after bit 0 the final conversion (R179). -/
def Engine.closeIteration (e : Engine) : Engine :=
  if e.bitIndex = 0 then e.takePair.enterAffine
  else e.takePair.loadIteration (place e.scratch 4) (e.bitIndex - 1)

/-- The operation code of a requested operation (R121 to R128). -/
def FauOp.code : FauOp → BitVec 4
  | .copy => 0
  | .add => 2
  | .sub => 3
  | .mul => 4
  | .sqr => 5
  | .mului => 6
  | .inv => 7

/-- The request signals of an operation on the scratch (R130). `fau_imm` is a24 for MULUI; signals the
operation does not read are 0 (log 24). -/
def Uop.request (u : Uop) (scratch : List Word256) : FauReq :=
  { op := u.op.code
    a := place scratch u.a
    b :=
      match u.op with
      | .add | .sub | .mul => place scratch u.b
      | .copy | .sqr | .mului | .inv => 0
    imm :=
      match u.op with
      | .mului => Config.a24
      | .copy | .add | .sub | .mul | .sqr | .inv => 0 }

/-- The FAU transaction set to `t`, nothing else changed. -/
def State.setTxn (s : State) (t : FauTxn) : State := { s with fau := { s.fau with txn := t } }

/-- The engine set to `e`, nothing else changed. -/
def State.setEngine (s : State) (e : Engine) : State := { s with engine := e }

/-- The response signals are those of one edge only (R130). -/
def State.clearRsp (s : State) : State := { s with fau := { s.fau with rsp := none } }

/-- What the FAU answers to an operation of the engine's sequence: result and `fau_err` (R121 to R128). -/
def uopValue (u : Uop) (scratch : List Word256) : Word256 × Bool :=
  match u.op with
  | .copy => (fieldCopy (place scratch u.a), false)
  | .add => (fieldAdd (place scratch u.a) (place scratch u.b), false)
  | .sub => (fieldSub (place scratch u.a) (place scratch u.b), false)
  | .mul => (fieldMul (place scratch u.a) (place scratch u.b), false)
  | .sqr => (fieldSqr (place scratch u.a), false)
  | .mului => (fieldMului (place scratch u.a) Config.a24, false)
  | .inv => fieldInv (place scratch u.a)

/-- The engine accepts an answer (R130): its result is the next scratch element. On `fau_err` the zero Z is
remembered and the result word ignored, 0 standing in its place (R182); the operation after INV is still
done, so that the sequence does not depend on the answer (R183; DESIGN CHOICE, log 4). -/
def Engine.take (e : Engine) (r : FauRsp) : Engine :=
  { e with
    scratch := e.scratch ++ [if r.err then 0 else r.res]
    todo := e.todo.tail
    invZero := e.invZero || r.err }

/-- A response reaches the engine while it runs, which then waits at its next point; in IDLE it stands on the port
only. That the engine's next move is a later edge's is the model's choice (log 28). -/
def State.absorb (s : State) : State :=
  match s.status.busy, s.fau.rsp with
  | true, some r => s.setEngine (s.engine.take r).rest
  | _, _ => s

/-- A move that takes no edge: a field operation done without the port, or the passage to the next stretch. None while
the engine waits, when the next operation is to be requested, and at the end of the sequence (log 28). -/
def Engine.freeMove (e : Engine) : Option Engine :=
  if e.pause ≠ 0 then none
  else
    match e.todo with
    | u :: _ =>
      if Config.onPort e.point then none
      else some (e.take ⟨(uopValue u e.scratch).1, (uopValue u e.scratch).2⟩).rest
    | [] =>
      match e.stage with
      | .init => some e.enterLadder.rest
      | .ladder => some e.closeIteration.rest
      | .commit => none

/-- At most how many moves are left: 19 for a ladder iteration, 3 from the last iteration's end on, and 512 bit
indexes. -/
def Engine.movesLeft (e : Engine) : Nat :=
  e.todo.length +
    match e.stage with
    | .commit => 0
    | .ladder => 19 * e.bitIndex.toNat + 3
    | .init => 19 * 512 + 3

/-- The engine after as many as `n` moves that take no edge. -/
def Engine.settleFor : Nat → Engine → Engine
  | 0, e => e
  | n + 1, e =>
    match e.freeMove with
    | some f => f.settleFor n
    | none => e

/-- The engine after all moves it makes without an edge in between. -/
def Engine.settle (e : Engine) : Engine := e.settleFor e.movesLeft

/-- The sequence and the latency are over (R98). -/
def Engine.atEnd (e : Engine) : Bool := e.todo.isEmpty && e.stage == .commit && e.pause == 0

/-- The engine is at its completion edge: no request open, and no move or wait left (R98). -/
def State.commitDue (s : State) : Bool := s.status.busy && s.fau.txn == .idle && s.engine.settle.atEnd

/-- The state a command completes in: the engine's last moves made, the response signals of the edge before gone. -/
def State.settled (s : State) : State := s.clearRsp.setEngine s.engine.settle

/-- The engine's own step at an edge in phase RUN with no transaction open, where no completion is due: its moves, and
then the next request presented (R131), or one edge of its wait. When the spec leaves requests and latency
open, this is the model's choice of how they are spaced (R138, S12; DESIGN CHOICE, log 28). -/
def State.engineTurn (s : State) : State :=
  let e := s.engine.settle
  match e.pause, e.todo with
  | n + 1, _ => s.setEngine { e with pause := n }
  | 0, u :: _ => (s.setEngine e).setTxn (.presented (u.request e.scratch) (Config.fauWait s.edge))
  | 0, [] => s.setEngine e

end Sys2Proof.Machine
end

