-- ==== Sys2Proof/Machine/Bus.lean ====
section
/-! DEFINITION. The host port at transaction level (spec/20_memory.md): MemRead (R66), MemWrite (R67), the
issue of a command word (R95 to R97), and transfers while `rst_n` is low (R232). -/

namespace Sys2Proof.Machine

/-- A legal command starts: BUSY, DONE, the latch and the loaded engine (R97). -/
def State.startCommand (s : State) (i : Instr) (w : Word32) : State :=
  { s with
    status := s.status.start
    engine := s.engine.load i (Latch.capture w s.regs) }

/-- Issue of a word written to CMD while BUSY = 0: a legal word starts, any other is ILLEGAL_CMD (R95, R96, R97). -/
def State.issue (s : State) (w : Word32) : State :=
  match decodeCmd w with
  | .ok i => s.startCommand i w
  | .error _ => s.rejectIllegal codeIllegalCmd

/-- Whether a read of a register is unspecified while BUSY = 1 (R68). -/
def WideReg.unspecifiedWhileBusy : WideReg → Bool
  | .k | .xb => false
  | .pmx | .pmz | .ppx | .ppz | .resx => true

/-- The data of a read of word `j` of a 256-bit register: K reads 0 (R25), a busy slot or RESX a free value
(R68), otherwise the word (R66). -/
def State.readWide (s : State) (reg : WideReg) (j : Fin 8) : Word32 :=
  if reg = .k then 0
  else if s.status.busy && reg.unspecifiedWhileBusy then Config.busyRead s.edge
  else wordOf (s.regs.get reg) j

/-- MemRead(off, 4): the data and `pslverr` (R66, R70, R71). It changes no state. -/
def busRead (s : State) (off : Offset) : Word32 × Bool :=
  match target off with
  | .misaligned => (0, true)
  | .reserved => (0, true)
  | .id => (Config.idWord, false)
  | .ctrl => (s.status.ctrlWord, false)
  | .status => (s.status.statusWord, false)
  | .cmd => (0, false)
  | .wide reg j => (s.readWide reg j, false)

/-- A write to CMD or to an operand register that the busy block drops (R34, R69). -/
def State.dropWrite (s : State) : State := { s with status := s.status.setOverrun }

/-- A write to word `j` of a 256-bit register: RESX is read-only; a busy block drops the write (R67, R69). -/
def State.writeWide (s : State) (reg : WideReg) (j : Fin 8) (v : Word32) : State :=
  if reg = .resx then s
  else if s.status.busy then s.dropWrite
  else { s with regs := s.regs.set reg (setWordOf (s.regs.get reg) j v) }

/-- A write to CMD (R67, R95). -/
def State.writeCmd (s : State) (v : Word32) : State :=
  if s.status.busy then s.dropWrite else s.issue v

/-- MemWrite(off, 4, v): the state after and `pslverr`, the checks in the order of R207 (R67, R69 to R71). -/
def busWrite (s : State) (off : Offset) (v : Word32) : State × Bool :=
  match target off with
  | .misaligned => (s, true)
  | .reserved => (s, true)
  | .id => (s, false)
  | .ctrl => ({ s with status := s.status.writeCtrl v }, false)
  | .status => ({ s with status := s.status.writeStatus v }, false)
  | .cmd => (s.writeCmd v, false)
  | .wide reg j => (s.writeWide reg j v, false)

/-- What a transfer that ends while `rst_n` = 0 is answered: a read 0 and no error, a write no error (R232). -/
def resetResp : Option Transfer → Option BusResp
  | none => none
  | some (.read _) => some (.read 0 false)
  | some (.write _ _) => some (.write false)

/-- The transfer's answer recorded and the inputs moved on. -/
def State.answer (s : State) (resp : Option BusResp) (rest : List Input) : State :=
  { s with env := { s.env with resp := resp, inputs := rest } }

/-- One mismatch of an `rd OFF == V32` statement (R104). -/
def State.countMismatch (s : State) (differs : Bool) : State :=
  { s with env := { s.env with mismatches := s.env.mismatches + differs.toNat } }

/-- A read answered from the observable state (R66, R219). -/
def State.hostRead (s : State) (off : Offset) (rest : List Input) : State :=
  let r := busRead s.observed off
  s.answer (some (.read r.1 r.2)) rest

/-- The value of an `rd` statement, kept for the host (R104). -/
def State.keepValue (s : State) (v : Word32) : State :=
  { s with env := { s.env with values := v :: s.env.values } }

/-- The statement `rd OFF`: a read, whose word is the statement's value (R104). -/
def State.hostRd (s : State) (off : Offset) (rest : List Input) : State :=
  (s.hostRead off rest).keepValue (busRead s.observed off).1

/-- A write carried out; between a clock stop and the next reset it leaves nothing that can be known (R67, R219). -/
def State.hostWrite (s : State) (off : Offset) (v : Word32) (rest : List Input) : State :=
  let r := busWrite s off v
  (if s.powerLost then s else r.1).answer (some (.write r.2)) rest

/-- What the host does at an edge at which `rst_n` is high and the clock runs: nothing, or the statement at
the head of its program (R104). `poll` stays at the head until it has read BUSY = 0; that it holds back all entries
behind it, a reset or a clock stop too, is the model's choice (DESIGN CHOICE, log 27). -/
def State.hostAct (s : State) : State :=
  match s.env.inputs with
  | [] => s.answer none []
  | .wr off v :: rest => s.hostWrite off v rest
  | .rd off :: rest => s.hostRd off rest
  | .rdEq off v :: rest =>
    (s.hostRd off rest).countMismatch (decide ((busRead s.observed off).1 ≠ v))
  | .poll :: rest =>
    if (busRead s.observed statusOffset).1.getLsbD 0 then s.hostRead statusOffset (.poll :: rest)
    else s.hostRead statusOffset rest
  | .quiet :: rest | .rstLow _ :: rest | .clockStop :: rest | .strayFauResponse :: rest => s.answer none rest

end Sys2Proof.Machine
end

