-- ==== Sys2Proof/Machine/Dispatch.lean ====
section
/-! DEFINITION. `exec`: one arm per instruction, each a direct call of its meaning. A command's meaning is
the engine step that completes it (R20, R98, R99; log 1); a field request's is the FAU's response. -/

namespace Sys2Proof.Machine

def exec (i : Instr) (s : State) : Host.Outcome State Fault Refusal :=
  match i with
  | .smul => Sys2Proof.Machine.execSmul s
  | .pdbl slot => Sys2Proof.Machine.execPdbl slot s
  | .dadd => Sys2Proof.Machine.execDadd s
  | .lstep bit => Sys2Proof.Machine.execLstep bit s
  | .linit => Sys2Proof.Machine.execLinit s
  | .affine => Sys2Proof.Machine.execAffine s
  | .fauCopy a => Sys2Proof.Machine.execFauCopy a s
  | .fauSetui imm => Sys2Proof.Machine.execFauSetui imm s
  | .fauAdd a b => Sys2Proof.Machine.execFauAdd a b s
  | .fauSub a b => Sys2Proof.Machine.execFauSub a b s
  | .fauMul a b => Sys2Proof.Machine.execFauMul a b s
  | .fauSqr a => Sys2Proof.Machine.execFauSqr a s
  | .fauMului a imm => Sys2Proof.Machine.execFauMului a imm s
  | .fauInv a => Sys2Proof.Machine.execFauInv a s
  | .fauIszero a => Sys2Proof.Machine.execFauIszero a s
  | .fauEq a b => Sys2Proof.Machine.execFauEq a b s

end Sys2Proof.Machine
end

