-- ==== Sys2Proof/Machine/Clock.lean ====
section
/-! DEFINITION. One rising edge of `clk` (R62): the FAU or the engine first, then the host's transfer (R74);
or reset (R230), or a clock stop (R219). -/

namespace Sys2Proof.Machine

/-- The FAU and the engine at an edge (R98, R131): a presented request waits or is transferred, an
outstanding one waits or is answered, and with no transaction open the running engine moves on or, when it
is due, completes its command (R99). -/
def engineEdge (s : State) : Host.Outcome State Fault Refusal :=
  match s.fau.txn with
  | .presented r (n + 1) => .next (s.clearRsp.setTxn (.presented r n))
  | .presented r 0 =>
    .next (s.clearRsp.setTxn (.outstanding r (Config.fauLatency r.op r.a r.b r.imm s.edge)))
  | .outstanding r (n + 1) => .next (s.clearRsp.setTxn (.outstanding r n))
  | .outstanding r 0 =>
    match decodeFau r with
    | .error _ => .refused .reservedFauOp
    | .ok i => andThen (exec i s.clearRsp) fun s1 => .next s1.absorb
  | .idle =>
    if s.commitDue then
      match decodeCmd s.engine.latch.word with
      | .error _ => .fault .latchedWordIllegal
      | .ok i => exec i s.settled
    else if s.status.busy then .next s.clearRsp.engineTurn
    else .next s.clearRsp

/-- The model's count of edges moves on (log 7). -/
def State.tick (s : State) : State := { s with edge := s.edge + 1 }

/-- An edge while `rst_n` is low (R230 to R232). -/
def State.resetEdge (s : State) (during : Option Transfer) (rest : List Input) : State :=
  (s.applyReset.answer (resetResp during) rest).tick

/-- A clock stop or power cycle: nothing is known of the state until the next reset (R219). -/
def State.clockStopEdge (s : State) (rest : List Input) : State :=
  ({ s with powerLost := true }.answer none rest).tick

/-- An edge with `rst_n` high: the engine and the FAU, then the host (R74). After a clock stop only the host's
reads are answered, with free values. -/
def runEdge (s : State) : Host.Outcome State Fault Refusal :=
  if s.powerLost then .next s.hostAct.tick
  else andThen (engineEdge s) fun s1 => .next s1.hostAct.tick

/-- One edge. -/
def clockEdge (s : State) : Host.Outcome State Fault Refusal :=
  match s.env.inputs with
  | .rstLow during :: rest => .next (s.resetEdge during rest)
  | .clockStop :: rest => .next (s.clockStopEdge rest)
  | .strayFauResponse :: _ => .refused .strayFauResponse
  | _ => runEdge s

/-- The state in which the engine is about to complete the command word `w`, issued on the present
registers: latch filled, BUSY = 1, DONE = 0, sequence and latency over (R97, R98), and the host quiet at that
edge (log 2). -/
def State.stageCommand (s : State) (w : Word32) : State :=
  { s with
    status := s.status.start
    engine :=
      { s.engine with
        latch := Latch.capture w s.regs
        todo := []
        stage := .commit
        invZero := false
        pause := 0 }
    fau := FauPort.reset
    env := { s.env with inputs := .quiet :: s.env.inputs }
    powerLost := false }

/-- The state in which the FAU is about to answer the request `r`, the host quiet at that edge (log 2). -/
def State.stageFauRequest (s : State) (r : FauReq) : State :=
  { s with
    fau := ⟨.outstanding r 0, none⟩
    env := { s.env with inputs := .quiet :: s.env.inputs }
    powerLost := false }

end Sys2Proof.Machine
end

