-- ==== Sys2Proof/Machine/Step.lean ====
section
/-! DEFINITION. `step`: one edge of the clock; and where a step finds the instruction it runs: the engine's
latch for a command (R97, R98), the FAU's outstanding request for a field operation (R131). -/

namespace Sys2Proof.Machine

/-- The instruction word of a table row stored where the next step takes its instruction from (log 2). -/
def State.withFetchWord (s : State) (nbits w : Nat) : State :=
  if nbits = 32 then s.stageCommand (BitVec.ofNat 32 w) else s.stageFauRequest (FauReq.ofBits w)

/-- One step of the machine. -/
def step (s : State) : Host.Outcome State Fault Refusal := clockEdge s

end Sys2Proof.Machine
end

