-- ==== Sys2Proof/Machine/Program.lean ====
section
/-! DEFINITION. Host assembly's pseudo-instructions and mnemonics as lists of inputs (R104, R105). -/

namespace Sys2Proof.Machine

/-- A command mnemonic: `wr 0x00C, <word>` (R104); field requests are no host statements. -/
def asmCommand (i : Instr) : List Input :=
  match encode i with
  | .cmdw w => [.wr cmdOffset w]
  | .fauReq _ => []

/-- `wrfe REG, V256`: eight words in increasing j (R105). -/
def asmWrfe (reg : WideReg) (v : Word256) : List Input :=
  (List.finRange 8).map fun j => .wr (wordOffset reg j) (wordOf v j)

/-- `rdfe REG`: eight reads in increasing j (R105). -/
def asmRdfe (reg : WideReg) : List Input := (List.finRange 8).map fun j => .rd (wordOffset reg j)

/-- Sum over j of word_j << 32j, word 0 first in the list (R105). -/
def joinWords (ws : List Word32) : Nat := ws.foldr (fun w acc => w.toNat + acc * 2 ^ 32) 0

/-- The value of an `rdfe` whose eight reads were the host's last (R105). -/
def State.rdfeValue (s : State) : Word256 := BitVec.ofNat 256 (joinWords (s.env.values.take 8).reverse)

/-- `run CMD`: the command, then `poll` (R105). -/
def asmRun (i : Instr) : List Input := asmCommand i ++ [.poll]

/-- `ack`: clears DONE and OVERRUN (R105). -/
def asmAck : List Input := [.wr statusOffset 0x00000102]

end Sys2Proof.Machine
end

