-- ==== Sys2Proof/Safety.lean ====
section
/-! DEFINITION. The terms claims are stated in: the invariants of the machine, the agreement of the engine's
field operations with the commands' rules (R98, R138), what timing may depend on (R139, R183), commands
performed one after another (R186), and the curve the ladder works on (R6, R11). -/

namespace Sys2Proof.Machine

/-! ## Invariants of the state -/

/-- A field request the block may have open: an operation it presents (R137). -/
def presentable (r : FauReq) : Bool :=
  match decodeFau r with
  | .ok i => i.blockPresents
  | .error _ => false

/-- The FAU transaction is none, or a presentable request (R131, R137). -/
def FauTxn.presentable : FauTxn → Bool
  | .idle => true
  | .presented r _ | .outstanding r _ => Sys2Proof.Machine.presentable r

/-- What holds of the block's registers and flags in every reachable state. -/
structure Coherent (s : State) : Prop where
  /-- Codes 4 to 15 are never produced (R33, R200). -/
  result_defined : s.status.result.toNat ≤ 3
  /-- RESX is canonical (R24). -/
  resx_canonical : s.regs.resx.toNat < Config.fieldPrime
  /-- Only a legal word is latched and run (R97). -/
  latched_legal : s.status.busy = true → legalCommandWord s.engine.latch.word = true
  /-- DONE is 0 while a command runs (R32, R97). -/
  busy_not_done : s.status.busy = true → s.status.done = false
  /-- The operands cannot change while a command runs (R69, R78). -/
  operands_held : s.status.busy = true → s.engine.latch = Latch.capture s.engine.latch.word s.regs
  /-- A request is open only while a command runs (R131, R233). -/
  idle_no_request : s.status.busy = false → s.fau.txn = .idle
  /-- The open request is one the block presents (R137). -/
  request_presentable : s.fau.txn.presentable = true

/-! ## The engine's field operations against the rules -/

/-- The scratch and the zero-Z mark once the operations still to be done have been answered. -/
def runSeq : List Word256 → Bool → List Uop → List Word256 × Bool
  | scratch, z, [] => (scratch, z)
  | scratch, z, u :: rest => runSeq (scratch ++ [(uopValue u scratch).1]) (z || (uopValue u scratch).2) rest

/-- The register writes and the result code a command's rule gives for latched operands (R101, R141, R154,
R155, R170, R171, R174). A field request is no command and writes none. -/
def ruleWrites (i : Instr) (l : Latch) : List (WideReg × Word256) × BitVec 4 :=
  match i with
  | .smul => ([(.resx, (smulResult l.k l.xb).1)], (smulResult l.k l.xb).2)
  | .pdbl .pm => (writesPm (dbl l.pm), codeOk)
  | .pdbl .pp => (writesPp (dbl l.pp), codeOk)
  | .dadd => (writesPp (diffadd l.pm l.pp l.xb), codeOk)
  | .lstep b =>
    (writesPm (ladderStep l.pm l.pp l.xb b).1 ++ writesPp (ladderStep l.pm l.pp l.xb b).2, codeOk)
  | .linit => (writesPm (trivialPoint l.xb) ++ writesPp (dbl (trivialPoint l.xb)), codeOk)
  | .affine => ([(.resx, (toAffine l.pm).1)], (toAffine l.pm).2)
  | .fauCopy _ | .fauSetui _ | .fauAdd _ _ | .fauSub _ _ | .fauMul _ _ | .fauSqr _ | .fauMului _ _
  | .fauInv _ | .fauIszero _ | .fauEq _ _ => ([], codeOk)

/-- The same writes read off the engine's scratch at the end of its sequence: from where R138's sequence
leaves each result, and INV_ZERO where `fau_err` was seen (R182). -/
def sequenceWrites (i : Instr) (l : Latch) (scratch : List Word256) (z : Bool) :
    List (WideReg × Word256) × BitVec 4 :=
  let affineAt (n : Nat) : List (WideReg × Word256) × BitVec 4 :=
    if z then ([(.resx, 0)], codeInvZero) else ([(.resx, place scratch n)], codeOk)
  let pointAt (m n : Nat) : Point := ⟨place scratch m, place scratch n⟩
  match i with
  | .smul =>
    match smulClass l.k with
    | .zero => ([(.resx, 0)], codeInfinity)
    | .one => ([(.resx, place scratch 1)], codeOk)
    | .two => affineAt 13
    | .bits _ => affineAt 3
  | .pdbl .pm => (writesPm (pointAt 6 10), codeOk)
  | .pdbl .pp => (writesPp (pointAt 6 10), codeOk)
  | .dadd => (writesPp (pointAt 13 15), codeOk)
  | .lstep b =>
    let r := cswap b (pointAt 18 22) (pointAt 13 15)
    (writesPm r.1 ++ writesPp r.2, codeOk)
  | .linit => (writesPm (pointAt 2 1) ++ writesPp (pointAt 7 11), codeOk)
  | .affine => affineAt 3
  | .fauCopy _ | .fauSetui _ | .fauAdd _ _ | .fauSub _ _ | .fauMul _ _ | .fauSqr _ | .fauMului _ _
  | .fauInv _ | .fauIszero _ | .fauEq _ _ => ([], codeOk)

/-- The open request, if any, is the one for the next operation of the sequence (R131). -/
def TxnMatches (s : State) : Prop :=
  match s.fau.txn with
  | .idle => True
  | .presented r _ | .outstanding r _ =>
    ∃ u rest, s.engine.todo = u :: rest ∧ r = u.request s.engine.scratch

/-- While command `i` runs, the engine's remaining sequence leads to what the command's rule gives. -/
def SequenceLeadsTo (i : Instr) (e : Engine) : Prop :=
  let r := runSeq e.scratch e.invZero e.todo
  let x := fieldCopy e.latch.xb
  match e.stage with
  | .commit => sequenceWrites i e.latch r.1 r.2 = ruleWrites i e.latch
  | .init =>
    i = .smul ∧ e.latch.kind = .smul (.bits (bitLen e.latch.k)) ∧ r.2 = false ∧
      place r.1 2 = x ∧ place r.1 1 = oneWord ∧
      (⟨place r.1 7, place r.1 11⟩ : Point) = dbl (trivialPoint e.latch.xb)
  | .ladder =>
    i = .smul ∧ e.latch.kind = .smul (.bits (bitLen e.latch.k)) ∧ r.2 = false ∧
      place r.1 4 = x ∧
      ladderLoop e.latch.k x e.bitIndex.toNat
          (cswap e.swapSel ⟨place r.1 18, place r.1 22⟩ ⟨place r.1 13, place r.1 15⟩) =
        ladder e.latch.k e.latch.xb

/-- The engine works towards its command's rule: it runs a legal word, its open request is the next operation's
and its sequence leads to the rule's values (R97, R98, R131, R138). -/
def EngineAgrees (s : State) : Prop :=
  s.status.busy = true →
    ∃ i, decodeCmd s.engine.latch.word = .ok i ∧ TxnMatches s ∧ SequenceLeadsTo i s.engine

/-! ## What a command writes -/

/-- Whether an instruction is one of the six commands (R94); the others are field requests. -/
def isCommand : Instr → Bool
  | .smul | .pdbl _ | .dadd | .lstep _ | .linit | .affine => true
  | .fauCopy _ | .fauSetui _ | .fauAdd _ _ | .fauSub _ _ | .fauMul _ _ | .fauSqr _ | .fauMului _ _
  | .fauInv _ | .fauIszero _ | .fauEq _ _ => false

/-- The 256-bit registers a command writes (R101). -/
def writtenRegs : Instr → List WideReg
  | .smul | .affine => [.resx]
  | .pdbl .pm => [.pmx, .pmz]
  | .pdbl .pp | .dadd => [.ppx, .ppz]
  | .lstep _ | .linit => [.pmx, .pmz, .ppx, .ppz]
  | .fauCopy _ | .fauSetui _ | .fauAdd _ _ | .fauSub _ _ | .fauMul _ _ | .fauSqr _ | .fauMului _ _
  | .fauInv _ | .fauIszero _ | .fauEq _ _ => []

/-- Instruction `i` answers the next state `t`, a completion with code `c`: DONE ← 1, BUSY ← 0, RESULT ← c, IE and
OVERRUN as before (R99). -/
def CompletesWith (i : Instr) (s t : State) (c : Nat) : Prop :=
  exec i s = .next t ∧ t.status.done = true ∧ t.status.busy = false ∧ t.status.result.toNat = c ∧
    t.status.ie = s.status.ie ∧ t.status.overrun = s.status.overrun

/-- Field request `i` is answered with `res` and `err` (R130, R131): they stand on the port, and no request is
outstanding. -/
def AnswersWith (i : Instr) (s t : State) (res : Word256) (err : Bool) : Prop :=
  exec i s = .next t ∧ t.fau.rsp = some ⟨res, err⟩ ∧ t.fau.txn = .idle

/-- Slot PM of the registers. -/
def Regs.pm (r : Regs) : Point := ⟨r.pmx, r.pmz⟩

/-- Slot PP of the registers. -/
def Regs.pp (r : Regs) : Point := ⟨r.ppx, r.ppz⟩

/-! ## Steps -/

/-- An input that leaves the block alone but for bus transfers: no reset, no clock stop, no stray response. -/
def benign : Input → Bool
  | .quiet | .wr _ _ | .rd _ | .rdEq _ _ | .poll => true
  | .rstLow _ | .clockStop | .strayFauResponse => false

/-- The input at the next edge: what is at the head of the list, or nothing. -/
def State.nextInput (s : State) : Input := s.env.inputs.headD .quiet

/-- `t` is the state `n` steps after `s`. -/
def Reaches (n : Nat) (s t : State) : Prop := Host.Core.run Sys2Proof.core n s = .next t

/-! ## What timing may depend on -/

/-- The operation and the counter of the open transaction, without its operands. -/
def FauTxn.shape : FauTxn → Option (Bool × BitVec 4 × Nat)
  | .idle => none
  | .presented r n => some (false, r.op, n)
  | .outstanding r n => some (true, r.op, n)

/-- What the engine's issue of operations goes by: the point of its work, the operations left, the wait left and the
shape of the open transaction. The ladder bit is not among them, nor is any operand (R139, R183). -/
def State.pace (s : State) : IssuePoint × List Uop × Nat × Option (Bool × BitVec 4 × Nat) :=
  (s.engine.point, s.engine.todo, s.engine.pause, s.fau.txn.shape)

/-! ## Commands one after another -/

/-- Command `i` issued on the present registers and completed: the operands captured (R97), then its meaning (R99). -/
def perform (i : Instr) (s : State) : State :=
  match exec i (s.setEngine { s.engine with latch := Latch.capture s.engine.latch.word s.regs }) with
  | .next t => t
  | .fault _ | .refused _ => s

/-- Commands performed in order. -/
def performAll : List Instr → State → State
  | [], s => s
  | i :: rest, s => performAll rest (perform i s)

/-- `lstep k[n−1]`, ..., `lstep k[0]` (R186). -/
def lstepsBelow (k : Word256) : Nat → List Instr
  | 0 => []
  | n + 1 => .lstep (k.getLsbD n) :: lstepsBelow k n

/-! ## The formulas over Fp, and the curve -/

/-- Fp (R9). -/
abbrev Fp := ZMod Config.fieldPrime

/-- The field element a raw word denotes, as an element of Fp (R23). -/
def residue (w : Word256) : Fp := (w.toNat : Fp)

/-- Both coordinates canonical (R24). -/
def CanonicalPoint (q : Point) : Prop :=
  q.x.toNat < Config.fieldPrime ∧ q.z.toNat < Config.fieldPrime

/-- `d` is the canonical pair R140's formula gives for `q`, the formula read over Fp. -/
def IsDoubleOf (d q : Point) : Prop :=
  let a := residue q.x + residue q.z
  let b := residue q.x - residue q.z
  let e := a ^ 2 - b ^ 2
  CanonicalPoint d ∧ residue d.x = a ^ 2 * b ^ 2 ∧ residue d.z = e * (b ^ 2 + 121666 * e)

/-- `d` is the canonical pair R150's formula gives for `q`, `r` and x1, the formula read over Fp. -/
def IsDiffSumOf (d q r : Point) (x1 : Word256) : Prop :=
  let da := (residue r.x - residue r.z) * (residue q.x + residue q.z)
  let cb := (residue r.x + residue r.z) * (residue q.x - residue q.z)
  CanonicalPoint d ∧ residue d.x = (da + cb) ^ 2 ∧ residue d.z = residue x1 * (da - cb) ^ 2

/-- `v` and `c` are what TOAFFINE gives for X and Z over Fp: 0 and INV_ZERO for Z = 0, otherwise the canonical
v with v·Z = X and OK (R178). -/
def IsAffineOf (v : Word256) (c : Nat) (x z : Fp) : Prop :=
  (z = 0 → v = 0 ∧ c = 2) ∧
    (z ≠ 0 → v.toNat < Config.fieldPrime ∧ residue v * z = x ∧ c = 0)

/-- Curve25519, y² = x³ + A·x² + x over Fp (R6, with B = 1), with the chord-and-tangent group law of its points. -/
abbrev curve : WeierstrassCurve.Affine Fp :=
  { a₁ := 0, a₂ := (Config.montgomeryA : Fp), a₃ := 0, a₄ := 1, a₆ := 0 }

/-- (X:Z) represents the point Q: Z = 0 and X ≠ 0 for O, otherwise Z ≠ 0 and x(Q) = X/Z (R11; (0:0) represents
no point, R141). -/
def Represents (q : Point) : curve.Point → Prop
  | .zero => residue q.z = 0 ∧ residue q.x ≠ 0
  | .some x _ _ => residue q.z ≠ 0 ∧ residue q.x = x * residue q.z

end Sys2Proof.Machine
end

