-- ==== Sys2Proof/Certificates/Slice0/Obligations.lean ====
section
/-! DEFINITION. The statements for the provers, each citing the rule of spec/ it formalises. -/

open Sys2Proof Sys2Proof.Machine

/-! ## Encoding -/

/-- Every instruction, with every operand value, is what the decoder reads from its encoding, given as the carrier or as
the number of its bits (R90, R94, R121 to R130). The numbering of a request's signals, and the 0 on the signals an
operation does not read, are the model's choice, log 9 and 24. -/
def Obligations.DecodeOfEncodeIsIdentity : Prop :=
  ∀ i : Instr, decode (encode i) = .ok i ∧ (encode i).wf = true ∧
    decodeTableWord (encode i).bits.1 (encode i).bits.2 = some i

/-- The command decoder accepts exactly the eight words of R94 and every other word is illegal (R94, R102, R103). -/
def Obligations.ExactlyEightCommandWordsAreLegal : Prop :=
  ∀ w : Word32,
    (legalCommandWord w = true ↔ w ∈ ([0x001, 0x002, 0x102, 0x003, 0x004, 0x104, 0x005, 0x006] : List Word32)) ∧
    (legalCommandWord w = true ↔ ∃ i, decodeCmd w = .ok i)

/-- A command has one word: what a word decodes to encodes back to that word (R94). -/
def Obligations.DecodedCommandEncodesBack : Prop :=
  ∀ (w : Word32) (i : Instr), decodeCmd w = .ok i → encode i = .cmdw w ∧ isCommand i = true

/-- A few words decode to the instructions they stand for: four command words written out from R94, and the opcode
table's words of ADD and EQ. That a table word of 8 bits is a request, its operands read as 0, is the model's
choice, log 9. -/
def Obligations.SampleEncodingsDecode : Prop :=
  decodeCmd 0x00000001 = .ok .smul ∧ decodeCmd 0x00000102 = .ok (.pdbl .pp) ∧
    decodeCmd 0x00000104 = .ok (.lstep true) ∧ decodeCmd 0x00000105 = .error .strayOperandBit ∧
    decodeTableWord 8 0x2 = some (.fauAdd 0 0) ∧ decodeTableWord 8 0x9 = some (.fauEq 0 0)

/-- `fau_op` 0xA to 0xF are reserved, and no others are (R130, R137). -/
def Obligations.ReservedFieldOperationsRejected : Prop :=
  ∀ r : FauReq, decodeFau r = .error .reservedFauOp ↔ 10 ≤ r.op.toNat

/-! ## What each command does -/

/-- PDBL doubles the selected slot in place by R140's formula and completes with OK (R141). -/
def Obligations.PdblDoublesTheSelectedSlot : Prop :=
  ∀ s : State,
    (∃ t, CompletesWith (.pdbl .pm) s t 0 ∧ IsDoubleOf t.regs.pm s.engine.latch.pm ∧ t.regs.pp = s.regs.pp) ∧
    (∃ t, CompletesWith (.pdbl .pp) s t 0 ∧ IsDoubleOf t.regs.pp s.engine.latch.pp ∧ t.regs.pm = s.regs.pm)

/-- DADD leaves DIFFADD(PM, PP, XB) in PP by R150's formula and completes with OK (R154). -/
def Obligations.DaddAddsDifferentiallyIntoPp : Prop :=
  ∀ s : State, ∃ t, CompletesWith .dadd s t 0 ∧
    IsDiffSumOf t.regs.pp s.engine.latch.pm s.engine.latch.pp s.engine.latch.xb ∧ t.regs.pm = s.regs.pm

/-- LSTEP b completes with OK and leaves, for b = 0, DBL(PM) and DIFFADD(PM, PP), for b = 1, DIFFADD(PP, PM) and
DBL(PP), of the captured slots (R153, R155). -/
def Obligations.LstepStepsBothSlots : Prop :=
  ∀ s : State, let l := s.engine.latch
    (∃ t, CompletesWith (.lstep false) s t 0 ∧ IsDoubleOf t.regs.pm l.pm ∧ IsDiffSumOf t.regs.pp l.pm l.pp l.xb) ∧
    (∃ t, CompletesWith (.lstep true) s t 0 ∧ IsDiffSumOf t.regs.pm l.pp l.pm l.xb ∧ IsDoubleOf t.regs.pp l.pp)

/-- LINIT loads PM = (fe(XB):1) and PP = DBL of it, and completes with OK (R170). -/
def Obligations.LinitLoadsTheStartingPair : Prop :=
  ∀ s : State, ∃ t, CompletesWith .linit s t 0 ∧
    t.regs.pmx.toNat = s.engine.latch.xb.toNat % Config.fieldPrime ∧ t.regs.pmz.toNat = 1 ∧
    IsDoubleOf t.regs.pp t.regs.pm

/-- AFFINE leaves PMX/PMZ in RESX with OK, or 0 with INV_ZERO when fe(PMZ) = 0; it writes none of the other six
registers (R171, R178). -/
def Obligations.AffineDividesOrReportsZero : Prop :=
  ∀ s : State, ∃ t c, CompletesWith .affine s t c ∧
    IsAffineOf t.regs.resx c (residue s.engine.latch.pmx) (residue s.engine.latch.pmz) ∧
    t.regs.pm = s.regs.pm ∧ t.regs.pp = s.regs.pp ∧ t.regs.k = s.regs.k ∧ t.regs.xb = s.regs.xb

/-- SMUL with k = 0 completes with INFINITY and RESX = 0, whatever XB is, and when started with K = 0 it has no field
operation to do (R175). That operations to do stand in a list, and the stage beside it, are the model's choice, log 4. -/
def Obligations.SmulOfZeroIsInfinity : Prop :=
  ∀ s : State,
    (s.engine.latch.k = 0 → ∃ t, CompletesWith .smul s t 1 ∧ t.regs.resx = 0) ∧
    (s.regs.k = 0 → ∀ w, (s.startCommand .smul w).engine.todo = [] ∧ (s.startCommand .smul w).engine.stage = .commit)

/-- SMUL with k = 1 completes with OK and RESX = fe(XB), for every x, and when started with K = 1 it has one COPY of XB to
do and nothing else (R176). That this stands in a list of operations to do is the model's choice, log 4. -/
def Obligations.SmulOfOneCopies : Prop :=
  ∀ s : State,
    (s.engine.latch.k = 1 → ∃ t, CompletesWith .smul s t 0 ∧
      t.regs.resx.toNat = s.engine.latch.xb.toNat % Config.fieldPrime) ∧
    (s.regs.k = 1 → ∀ w, let e := (s.startCommand .smul w).engine
      e.todo.map (fun u => ((u.request e.scratch).op, (u.request e.scratch).a)) = [(0, s.regs.xb)] ∧
        e.stage = .commit)

/-- SMUL with k = 2 completes with TOAFFINE of one doubling of (x:1) (R177, R178). -/
def Obligations.SmulOfTwoDoublesOnce : Prop :=
  ∀ s : State, s.engine.latch.k = 2 → ∃ t c d, CompletesWith .smul s t c ∧
    IsDoubleOf d ⟨s.engine.latch.xb, 1⟩ ∧ IsAffineOf t.regs.resx c (residue d.x) (residue d.z)

/-- SMUL with k ≥ 3: L is the position of the top set bit, the working pair starts as ((x:1), DBL(x, 1)), takes one
ladder step for each of the bits L−2 down to 0, and RESX and the code are TOAFFINE of its first point (R172, R178,
R179). -/
def Obligations.SmulGeneralPathRunsTheLadder : Prop :=
  ∀ s : State, 3 ≤ s.engine.latch.k.toNat →
    ∃ (len c : Nat) (w : Nat → Point × Point) (t : State),
      2 ≤ len ∧ len ≤ 256 ∧ 2 ^ (len - 1) ≤ s.engine.latch.k.toNat ∧ s.engine.latch.k.toNat < 2 ^ len ∧
      (w 0).1.x.toNat = s.engine.latch.xb.toNat % Config.fieldPrime ∧ (w 0).1.z.toNat = 1 ∧
      IsDoubleOf (w 0).2 (w 0).1 ∧
      (∀ j, j < len - 1 →
        if s.engine.latch.k.toNat.testBit (len - 2 - j) then
          IsDiffSumOf (w (j + 1)).1 (w j).2 (w j).1 s.engine.latch.xb ∧ IsDoubleOf (w (j + 1)).2 (w j).2
        else
          IsDoubleOf (w (j + 1)).1 (w j).1 ∧ IsDiffSumOf (w (j + 1)).2 (w j).1 (w j).2 s.engine.latch.xb) ∧
      CompletesWith .smul s t c ∧
      IsAffineOf t.regs.resx c (residue (w (len - 1)).1.x) (residue (w (len - 1)).1.z)

/-! ## What each field operation does -/

/-- COPY, SETUI, ADD and SUB: their results in 0..p−1 and no error (R121 to R124). -/
def Obligations.FieldSumsAreExact : Prop :=
  ∀ (s : State) (a b : Word256) (imm : Word32),
    (∃ t v, AnswersWith (.fauCopy a) s t v false ∧ v.toNat = a.toNat % Config.fieldPrime) ∧
    (∃ t v, AnswersWith (.fauSetui imm) s t v false ∧ v.toNat = imm.toNat) ∧
    (∃ t v, AnswersWith (.fauAdd a b) s t v false ∧ v.toNat = (a.toNat + b.toNat) % Config.fieldPrime) ∧
    (∃ t v, AnswersWith (.fauSub a b) s t v false ∧
      (v.toNat : Int) = ((a.toNat : Int) - (b.toNat : Int)) % (Config.fieldPrime : Int))

/-- MUL, SQR and MULUI: their results in 0..p−1 and no error (R125 to R127). -/
def Obligations.FieldProductsAreExact : Prop :=
  ∀ (s : State) (a b : Word256) (imm : Word32),
    (∃ t v, AnswersWith (.fauMul a b) s t v false ∧ v.toNat = a.toNat * b.toNat % Config.fieldPrime) ∧
    (∃ t v, AnswersWith (.fauSqr a) s t v false ∧ v.toNat = a.toNat ^ 2 % Config.fieldPrime) ∧
    (∃ t v, AnswersWith (.fauMului a imm) s t v false ∧ v.toNat = a.toNat * imm.toNat % Config.fieldPrime)

/-- INV: the unique inverse in 1..p−1 and `fau_err` = 0, or 0 and `fau_err` = 1 for a word that denotes zero (R128). -/
def Obligations.InvGivesTheUniqueInverse : Prop :=
  ∀ (s : State) (a : Word256),
    (¬ Config.fieldPrime ∣ a.toNat → ∃ t v, AnswersWith (.fauInv a) s t v false ∧
      1 ≤ v.toNat ∧ v.toNat < Config.fieldPrime ∧ a.toNat * v.toNat % Config.fieldPrime = 1 ∧
      ∀ b, 1 ≤ b → b < Config.fieldPrime → a.toNat * b % Config.fieldPrime = 1 → b = v.toNat) ∧
    (Config.fieldPrime ∣ a.toNat → ∃ t, AnswersWith (.fauInv a) s t 0 true)

/-- ISZERO and EQ answer 1 or 0, no error (R129). That the bit stands on `fau_res` is the model's choice, log 8. -/
def Obligations.FieldTestsAnswerOneOrZero : Prop :=
  ∀ (s : State) (a b : Word256),
    (∃ t, AnswersWith (.fauIszero a) s t (if a.toNat % Config.fieldPrime = 0 then 1 else 0) false) ∧
    (∃ t, AnswersWith (.fauEq a b) s t
      (if a.toNat % Config.fieldPrime = b.toNat % Config.fieldPrime then 1 else 0) false)

/-! ## Frames -/

/-- A command that answers a next state leaves every register R101 does not list for it, K and XB among them, and IE,
OVERRUN, the FAU port and the block's surroundings unchanged (R101). That the engine's hidden state is kept too is the
model's choice, log 21. -/
def Obligations.CommandLeavesTheRestUnchanged : Prop :=
  ∀ (i : Instr) (s t : State), isCommand i = true → exec i s = .next t →
    (∀ g, g ∉ writtenRegs i → t.regs.get g = s.regs.get g) ∧
    t.regs.k = s.regs.k ∧ t.regs.xb = s.regs.xb ∧
    t.status.ie = s.status.ie ∧ t.status.overrun = s.status.overrun ∧
    t.engine = s.engine ∧ t.fau = s.fau ∧ t.env = s.env ∧ t.edge = s.edge ∧ t.powerLost = s.powerLost

/-- A field request that is answered changes the FAU port and nothing else (R120, R144). -/
def Obligations.FieldRequestChangesOnlyThePort : Prop :=
  ∀ (i : Instr) (s t : State), isCommand i = false → exec i s = .next t →
    t.regs = s.regs ∧ t.status = s.status ∧ t.engine = s.engine ∧ t.env = s.env ∧ t.edge = s.edge ∧
      t.powerLost = s.powerLost ∧ t.fau.txn = .idle

/-- Every register a command writes is canonical, in 0..p−1, so its bit 255 is 0 (R24). -/
def Obligations.CommandResultsAreCanonical : Prop :=
  ∀ (i : Instr) (s t : State), isCommand i = true → exec i s = .next t →
    ∀ g ∈ writtenRegs i, (t.regs.get g).toNat < Config.fieldPrime ∧ (t.regs.get g).getLsbD 255 = false

/-- Each command completes with exactly one code: INFINITY from SMUL with k = 0 only, INV_ZERO from SMUL with k ≥ 2 and
AFFINE only, with RESX = 0, and otherwise OK (R200, R202, R208). -/
def Obligations.ResultCodesTellWhatHappened : Prop :=
  ∀ (i : Instr) (s t : State), isCommand i = true → exec i s = .next t →
    t.status.result.toNat ≤ 2 ∧
    (t.status.result.toNat = 1 ↔ i = .smul ∧ s.engine.latch.k = 0) ∧
    (t.status.result.toNat = 2 → t.regs.resx = 0 ∧
      ((i = .smul ∧ 2 ≤ s.engine.latch.k.toNat) ∨
        (i = .affine ∧ s.engine.latch.pmz.toNat % Config.fieldPrime = 0)))

/-! ## The host port -/

/-- The address map: each word of each 256-bit register at its offset, the four control words, and everything else
reserved (R21, R63, R73). -/
def Obligations.AddressMapPlacesTheRegisters : Prop :=
  (∀ j : Fin 8, target (BitVec.ofNat 12 (0x020 + 4 * j)) = .wide .k j ∧
    target (BitVec.ofNat 12 (0x040 + 4 * j)) = .wide .xb j ∧
    target (BitVec.ofNat 12 (0x060 + 4 * j)) = .wide .pmx j ∧
    target (BitVec.ofNat 12 (0x080 + 4 * j)) = .wide .pmz j ∧
    target (BitVec.ofNat 12 (0x0A0 + 4 * j)) = .wide .ppx j ∧
    target (BitVec.ofNat 12 (0x0C0 + 4 * j)) = .wide .ppz j ∧
    target (BitVec.ofNat 12 (0x0E0 + 4 * j)) = .wide .resx j) ∧
  target 0x000 = .id ∧ target 0x004 = .ctrl ∧ target 0x008 = .status ∧ target 0x00C = .cmd ∧
  ∀ off : Offset, off.toNat % 4 = 0 →
    (target off = .reserved ↔ (0x010 ≤ off.toNat ∧ off.toNat ≤ 0x01C) ∨ 0x100 ≤ off.toNat)

/-- A misaligned transfer, and an aligned transfer to a reserved offset, end with `pslverr` = 1, change no state and
read 0, busy or not (R70, R71). -/
def Obligations.BusErrorsChangeNothing : Prop :=
  ∀ (s : State) (off : Offset) (v : Word32),
    (off.toNat % 4 ≠ 0 ∨ (0x010 ≤ off.toNat ∧ off.toNat ≤ 0x01C) ∨ 0x100 ≤ off.toNat) →
    busRead s off = (0, true) ∧ busWrite s off v = (s, true)

/-- Reads of mapped offsets return what R66 says, with no error: the ID constant, IE, the STATUS fields, 0 for CMD and K,
the register's word for XB always and for the others while BUSY = 0 (R25, R66). -/
def Obligations.ReadsReturnTheMappedWord : Prop :=
  ∀ (s : State) (j : Fin 8),
    busRead s 0x000 = (0x25519001, false) ∧
    (busRead s 0x004).2 = false ∧ (busRead s 0x004).1.toNat = s.status.ie.toNat ∧
    (busRead s 0x008).2 = false ∧
    (busRead s 0x008).1.toNat =
      s.status.busy.toNat + 2 * s.status.done.toNat + 16 * s.status.result.toNat +
        256 * s.status.overrun.toNat ∧
    busRead s 0x00C = (0, false) ∧
    busRead s (wordOffset .k j) = (0, false) ∧
    busRead s (wordOffset .xb j) = (wordOf s.regs.xb j, false) ∧
    ∀ g : WideReg, g ≠ .k →
      (busRead s (wordOffset g j)).2 = false ∧
      (s.status.busy = false → (busRead s (wordOffset g j)).1 = wordOf (s.regs.get g) j)

/-- A write to one word of a 256-bit register other than RESX while BUSY = 0 replaces that word, leaves the other seven
and every other register unchanged, and touches nothing else (R22, R67). -/
def Obligations.WritesReplaceOneWord : Prop :=
  ∀ (s : State) (g : WideReg) (j : Fin 8) (v : Word32), g ≠ .resx → s.status.busy = false →
    let r := busWrite s (wordOffset g j) v
    r.2 = false ∧ wordOf (r.1.regs.get g) j = v ∧
    (∀ i, i ≠ j → wordOf (r.1.regs.get g) i = wordOf (s.regs.get g) i) ∧
    (∀ h, h ≠ g → r.1.regs.get h = s.regs.get h) ∧
    r.1 = { s with regs := r.1.regs }

/-- While BUSY = 1 a write to CMD or to any word of K, XB, PMX, PMZ, PPX or PPZ changes nothing but OVERRUN, which it
sets (R34, R69). -/
def Obligations.BusyWritesAreDropped : Prop :=
  ∀ (s : State) (v : Word32), s.status.busy = true →
    busWrite s 0x00C v = ({ s with status := { s.status with overrun := true } }, false) ∧
    ∀ (g : WideReg) (j : Fin 8), g ≠ .resx →
      busWrite s (wordOffset g j) v = ({ s with status := { s.status with overrun := true } }, false)

/-- Writes to ID and to RESX are ignored without error, busy or not; a write to CTRL sets IE to bit 0; a write to STATUS
clears DONE and OVERRUN where bits 1 and 8 are 1; neither touches anything else (R30, R32, R34, R67). -/
def Obligations.ControlWritesTouchTheirBitsOnly : Prop :=
  ∀ (s : State) (j : Fin 8) (v : Word32),
    busWrite s 0x000 v = (s, false) ∧
    busWrite s (wordOffset .resx j) v = (s, false) ∧
    busWrite s 0x004 v = ({ s with status := { s.status with ie := v.toNat.testBit 0 } }, false) ∧
    busWrite s 0x008 v =
      ({ s with
          status :=
            { s.status with
              done := if v.toNat.testBit 1 then false else s.status.done
              overrun := if v.toNat.testBit 8 then false else s.status.overrun } }, false)

/-- An illegal word written to CMD while BUSY = 0 sets DONE and RESULT = 3 at the write, and changes nothing else (R96). -/
def Obligations.IllegalWordCompletesAtOnce : Prop :=
  ∀ (s : State) (w : Word32), s.status.busy = false →
    w ∉ ([0x001, 0x002, 0x102, 0x003, 0x004, 0x104, 0x005, 0x006] : List Word32) →
    busWrite s 0x00C w = ({ s with status := { s.status with done := true, result := 3 } }, false)

/-- A legal word written to CMD while BUSY = 0 sets BUSY, clears DONE, keeps RESULT, IE and OVERRUN, and latches the word
and K, XB, PMX, PMZ, PPX, PPZ; no register changes (R97). -/
def Obligations.LegalWordStartsTheCommand : Prop :=
  ∀ (s : State) (w : Word32), s.status.busy = false →
    w ∈ ([0x001, 0x002, 0x102, 0x003, 0x004, 0x104, 0x005, 0x006] : List Word32) →
    let t := (busWrite s 0x00C w).1
    (busWrite s 0x00C w).2 = false ∧
    t.status = { s.status with busy := true, done := false } ∧
    t.engine.latch = ⟨w, s.regs.k, s.regs.xb, s.regs.pmx, s.regs.pmz, s.regs.ppx, s.regs.ppz⟩ ∧
    t.regs = s.regs ∧ t.fau = s.fau ∧ t.env = s.env ∧ t.edge = s.edge ∧ t.powerLost = s.powerLost

/-- The eight writes of `wrfe REG, V` on an idle block leave V in the register, whichever of the six it is, and every
other register as it was; the eight reads of `rdfe REG` give the register's value, 0 for K, and change no register
(R25, R63, R105). That the host keeps the values it reads in a list, and ends a transfer at each of eight edges, is the
model's choice, log 19 and 14. -/
def Obligations.WrfeAndRdfeMoveWholeRegisters : Prop :=
  ∀ (s : State) (g : WideReg) (rest : List Input),
    s.status.busy = false → s.fau.txn = .idle → s.powerLost = false →
    (∀ v : Word256, g ≠ .resx → s.env.inputs = asmWrfe g v ++ rest →
      ∃ t, Reaches 8 s t ∧ t.regs.get g = v ∧ (∀ h, h ≠ g → t.regs.get h = s.regs.get h) ∧
        t.env.inputs = rest ∧ t.status = s.status) ∧
    (s.env.inputs = asmRdfe g ++ rest →
      ∃ t, Reaches 8 s t ∧ t.rdfeValue = (if g = .k then 0 else s.regs.get g) ∧ t.regs = s.regs ∧
        t.env.inputs = rest ∧ t.status = s.status)

/-- The statements `rd OFF` and `rd OFF == V` read the mapped word, keep it as their value, and change no register, flag,
engine or FAU state (R66, R72, R104). That the second counts a mismatch, and how values are kept, is the model's
choice, log 19. -/
def Obligations.HostReadsHaveNoSideEffect : Prop :=
  ∀ (s : State) (off : Offset) (v : Word32) (inp : Input) (rest : List Input),
    inp = .rd off ∨ inp = .rdEq off v → s.env.inputs = inp :: rest →
    s.hostAct.regs = s.regs ∧ s.hostAct.status = s.status ∧ s.hostAct.engine = s.engine ∧
      s.hostAct.fau = s.fau ∧ s.hostAct.edge = s.edge ∧ s.hostAct.powerLost = s.powerLost ∧
      s.hostAct.env.inputs = rest ∧
      (s.powerLost = false →
        s.hostAct.env.resp = some (.read (busRead s off).1 (busRead s off).2) ∧
        s.hostAct.env.values = (busRead s off).1 :: s.env.values ∧
        s.hostAct.env.mismatches =
          s.env.mismatches + (if inp = .rdEq off v ∧ (busRead s off).1 ≠ v then 1 else 0))

/-- No read tells the scalar: two states that differ only in K and in the engine's hidden state answer every read alike
(R25). Of the reads of PMX to RESX while BUSY = 1, which R68 leaves open, this holds because the model draws their
value by the edge alone, which is its choice, log 7. -/
def Obligations.ScalarCannotBeReadBack : Prop :=
  ∀ (s : State) (k : Word256) (e : Engine) (off : Offset),
    busRead { s with regs := { s.regs with k := k }, engine := e } off = busRead s off

/-- While a command runs, no read of a slot or of RESX tells anything of the registers or of the ladder: the answer is the
same whatever they hold (R68, R218, S1). That the free value depends on the edge alone is the model's choice, log 7. -/
def Obligations.BusyReadTellsNothing : Prop :=
  ∀ (s : State) (r : Regs) (e : Engine) (g : WideReg) (j : Fin 8), s.status.busy = true → g ≠ .k → g ≠ .xb →
    busRead { s with regs := r, engine := e } (wordOffset g j) = busRead s (wordOffset g j) ∧
    (busRead s (wordOffset g j)).2 = false

/-- A `poll` at the head of the host's program stays there as long as it reads BUSY = 1 and is done when it reads BUSY = 0;
either way the host is answered the STATUS word (R104; one read an edge is the model's choice, log 27). -/
def Obligations.PollWaitsForIdle : Prop :=
  ∀ (s : State) (rest : List Input), s.powerLost = false → s.env.inputs = .poll :: rest →
    s.hostAct.env.inputs = (if s.status.busy then .poll :: rest else rest) ∧
    s.hostAct.env.resp = some (.read s.status.statusWord false) ∧
    s.hostAct.regs = s.regs ∧ s.hostAct.status = s.status

/-! ## Steps -/

/-- At its completion edge the engine runs exactly the command its latched word decodes to, and then the host's transfer
takes effect (R98, R99). That `withFetchWord` places a command so that the very next step is that edge, and that the
engine's last moves are made at that edge (`settled`), are the model's choice, log 2 and 28. -/
def Obligations.StepRunsTheLatchedCommand : Prop :=
  (∀ (s : State) (i : Instr), s.powerLost = false → benign s.nextInput = true → s.commitDue = true →
    decodeCmd s.engine.latch.word = .ok i →
    step s = andThen (exec i s.settled) fun t => .next t.hostAct.tick) ∧
  (∀ (s : State) (w : Nat) (i : Instr), decodeTableWord 32 w = some i →
    step (s.withFetchWord 32 w) =
      andThen (exec i (s.withFetchWord 32 w)) fun t => .next t.hostAct.tick)

/-- When the FAU's answer is due it answers exactly the operation its request decodes to, the running engine takes the
answer, and then the host's transfer takes effect (R130, R131). That the FAU and the engine act before the host at
such an edge, that the engine's next move is a later edge's, and that `withFetchWord` places the request of an 8-bit
table word so that the very next step is that edge, are the model's choice, log 23, 28, 2 and 9. -/
def Obligations.StepAnswersTheFieldRequest : Prop :=
  (∀ (s : State) (r : FauReq) (i : Instr), s.powerLost = false → benign s.nextInput = true →
    s.fau.txn = .outstanding r 0 → decodeFau r = .ok i →
    step s = andThen (exec i s.clearRsp) fun t => .next t.absorb.hostAct.tick) ∧
  (∀ (s : State) (w : Nat) (i : Instr), decodeTableWord 8 w = some i →
    step (s.withFetchWord 8 w) =
      andThen (exec i (s.withFetchWord 8 w)) fun t => .next t.absorb.hostAct.tick)

/-- The completion, which leads to `u`, acts before a host transfer at the same edge: a STATUS read there sees BUSY = 0 and
DONE = 1, a read of a register sees the command's result, a write of a register's word is not dropped and wins over the
command's, and a write to CMD is issued (R74). That the engine's last moves are made at that edge (`settled`) is the
model's choice, log 28. -/
def Obligations.CompletionPrecedesTheHostTransfer : Prop :=
  ∀ (s t u : State) (i : Instr), s.powerLost = false → s.commitDue = true →
    decodeCmd s.engine.latch.word = .ok i → exec i s.settled = .next u → step s = .next t →
    (s.nextInput = .rd 0x008 ∨ s.nextInput = .poll ∨ (∃ v, s.nextInput = .rdEq 0x008 v) →
      ∃ d, t.env.resp = some (.read d false) ∧ d.getLsbD 0 = false ∧ d.getLsbD 1 = true) ∧
    (∀ (g : WideReg) (j : Fin 8), g ≠ .k → s.nextInput = .rd (wordOffset g j) →
      t.env.resp = some (.read (wordOf (u.regs.get g) j) false)) ∧
    (∀ (g : WideReg) (j : Fin 8) (v : Word32), g ≠ .resx → s.nextInput = .wr (wordOffset g j) v →
      wordOf (t.regs.get g) j = v ∧ (∀ m, m ≠ j → wordOf (t.regs.get g) m = wordOf (u.regs.get g) m) ∧
      (∀ h, h ≠ g → t.regs.get h = u.regs.get h) ∧ t.status = u.status) ∧
    (∀ w : Word32, s.nextInput = .wr 0x00C w →
      t.regs = u.regs ∧ t.status.overrun = s.status.overrun ∧
      (legalCommandWord w = true →
        t.status.busy = true ∧ t.status.done = false ∧ t.engine.latch = Latch.capture w u.regs) ∧
      (legalCommandWord w = false →
        t.status.busy = false ∧ t.status.done = true ∧ t.status.result.toNat = 3))

/-- A step with `rst_n` low leaves every register, flag and hidden value at R42's reset value, abandons a running
command and any request, raises no `irq`, and answers a read with 0 and a transfer with no error (R42, R230 to R232).
That reset is seen at an edge, and the mark `powerLost` which it clears, are the model's, log 15 and 10. -/
def Obligations.ResetRestoresEveryValue : Prop :=
  ∀ (s : State) (during : Option Transfer) (rest : List Input), s.env.inputs = .rstLow during :: rest →
    ∃ t, step s = .next t ∧
      (∀ g, t.regs.get g = 0) ∧ t.status = ⟨false, false, false, 0, false⟩ ∧ t.irq = false ∧
      t.engine.latch = ⟨0, 0, 0, 0, 0, 0, 0⟩ ∧ t.engine.w0 = ⟨0, 0⟩ ∧ t.engine.w1 = ⟨0, 0⟩ ∧
      t.engine.bitIndex = 0 ∧ t.engine.swapSel = false ∧ (∀ n, place t.engine.scratch n = 0) ∧
      t.fau.txn = .idle ∧ t.powerLost = false ∧ t.env.inputs = rest ∧ busRead t 0x000 = (0x25519001, false) ∧
      (∀ off, during = some (.read off) → t.env.resp = some (.read 0 false)) ∧
      (∀ off v, during = some (.write off v) → t.env.resp = some (.write false))

/-- `irq` is IE and DONE; it falls when a legal command starts, rises with IE at an illegal word and at a completion (R37,
R209). -/
def Obligations.IrqFollowsEnableAndDone : Prop :=
  ∀ s : State, s.powerLost = false →
    s.irq = (s.status.ie && s.status.done) ∧
    (∀ (i : Instr) (w : Word32), (s.startCommand i w).irq = false) ∧
    (∀ w : Word32, s.status.busy = false → legalCommandWord w = false → (s.writeCmd w).irq = s.status.ie) ∧
    (∀ (i : Instr) (t : State), isCommand i = true → exec i s = .next t → t.irq = s.status.ie)

/-- The FAU handshake: a presented request's signals stay the same until it is transferred, one request at a time is
outstanding, and each is answered once, with no new request before its answer (R130, R131). That none is presented at
the very edge of the answer either, and that a response is kept for one edge, are the model's choice, log 28 and 18. -/
def Obligations.OneFieldRequestAtATime : Prop :=
  ∀ s t : State, s.powerLost = false → benign s.nextInput = true → step s = .next t →
    match s.fau.txn with
    | .presented r (n + 1) => t.fau = ⟨.presented r n, none⟩
    | .presented r 0 => ∃ n, t.fau = ⟨.outstanding r n, none⟩
    | .outstanding r (n + 1) => t.fau = ⟨.outstanding r n, none⟩
    | .outstanding _ 0 => t.fau.txn = .idle ∧ t.fau.rsp.isSome = true
    | .idle => t.fau.rsp = none ∧ (t.fau.txn = .idle ∨ ∃ r n, t.fau.txn = .presented r n)

/-- A 256-bit register changes only by reset, by a host write to one of its words, or at the completion of a command that
writes it; so K and XB change by the first two alone, RESX by the first and the last (R21, R25, R26, R29, R75, R101).
Between a clock stop and reset, when nothing is known of a register, this is said of the words the model keeps
unread, which is its choice, log 10. -/
def Obligations.RegistersChangeOnlyByTheirWriters : Prop :=
  ∀ (s t : State) (g : WideReg), step s = .next t → t.regs.get g ≠ s.regs.get g →
    (∃ d, s.nextInput = .rstLow d) ∨
    (g ≠ .resx ∧ ∃ j v, s.nextInput = .wr (wordOffset g j) v) ∨
    (s.commitDue = true ∧ ∃ i, decodeCmd s.engine.latch.word = .ok i ∧ g ∈ writtenRegs i ∧ g ≠ .k ∧ g ≠ .xb)

/-- OVERRUN is sticky: only reset or a write of 1 to STATUS bit 8 clears it, and only a host write to CMD or to a word of
K, XB, PMX, PMZ, PPX or PPZ at an edge that leaves a command running sets it (R34, R69, R206). Between a clock stop and
reset, when nothing is known of the flag, this is said of the bit the model keeps unread, which is its choice, log
10. -/
def Obligations.OverrunIsSticky : Prop :=
  ∀ s t : State, step s = .next t →
    (s.status.overrun = true → t.status.overrun = false →
      (∃ d, s.nextInput = .rstLow d) ∨ ∃ v, s.nextInput = .wr 0x008 v ∧ v.getLsbD 8 = true) ∧
    (s.status.overrun = false → t.status.overrun = true →
      s.status.busy = true ∧ s.commitDue = false ∧
        ((∃ v, s.nextInput = .wr 0x00C v) ∨
          ∃ g j v, g ≠ .resx ∧ s.nextInput = .wr (wordOffset g j) v))

/-- After a clock stop without reset nothing is known of the registers and flags until `rst_n` falls, and only a reset ends
this (R219, S16): `irq` and every read of CTRL, STATUS or a data register but K answer from free values. The mark
`powerLost` and the free values `lostWord`, `lostBit` and `lostResult` are the model's choice, log 10. -/
def Obligations.OnlyResetEndsAClockStop : Prop :=
  (∀ (s : State) (rest : List Input), s.env.inputs = .clockStop :: rest →
    ∃ t, step s = .next t ∧ t.powerLost = true) ∧
  (∀ s t : State, s.powerLost = true → step s = .next t →
    (t.powerLost = false ↔ ∃ d, s.nextInput = .rstLow d)) ∧
  (∀ s : State, s.powerLost = true → s.irq = (Config.lostBit s.edge 0 && Config.lostBit s.edge 2)) ∧
  (∀ s t : State, s.powerLost = true → step s = .next t →
    (∀ (g : WideReg) (j : Fin 8), g ≠ .k → s.nextInput = .rd (wordOffset g j) →
      t.env.resp = some (.read
        (if g ≠ .xb ∧ Config.lostBit s.edge 1 = true then Config.busyRead s.edge
          else wordOf (Config.lostWord s.edge g.number) j) false)) ∧
    (s.nextInput = .rd 0x004 →
      ∃ d, t.env.resp = some (.read d false) ∧ d.toNat = (Config.lostBit s.edge 0).toNat) ∧
    (s.nextInput = .rd 0x008 →
      ∃ d, t.env.resp = some (.read d false) ∧
        d.toNat = (Config.lostBit s.edge 1).toNat + 2 * (Config.lostBit s.edge 2).toNat +
          16 * (Config.lostResult s.edge).toNat + 256 * (Config.lostBit s.edge 3).toNat))

/-! ## Invariants -/

/-- The state after reset meets both invariants (R42). -/
def Obligations.ResetStateIsCoherent : Prop :=
  Coherent State.reset ∧ EngineAgrees State.reset

/-- Every step from a coherent state, whatever the host, reset or the clock do, leads to a coherent one: RESULT at most
3, RESX canonical, only legal words run, DONE = 0 while BUSY = 1, the running command's operands unchanged, FAU
requests only while it runs and only of the operations R137 allows. Between a clock stop and reset, when nothing is
known of the state, this is said of the words the model keeps unread, which is its choice, log 10. -/
def Obligations.EveryStepKeepsCoherence : Prop :=
  ∀ s t : State, Coherent s → step s = .next t → Coherent t

/-- Every step from a coherent state in which the engine works towards its command's rule leads to another such state. The
sequence of field operations it works by is the model's choice among those R138 leaves open, log 4; that the open
request carries 0 on the signals its operation does not read is its choice, log 24; and between a clock stop and
reset this is said of the words it keeps unread, log 10. -/
def Obligations.EveryStepKeepsTheEngineOnItsRule : Prop :=
  ∀ s t : State, Coherent s → EngineAgrees s → step s = .next t → EngineAgrees t

/-- What the engine's field operations left in its scratch at the completion edge is exactly what the command's rule
writes (R98): the meaning is the completion with the scratch's values. The sequence and its places in the scratch
are the model's choice among those R138 leaves open, log 4; so are the last moves made at that edge (`settled`), log
28. -/
def Obligations.FieldOperationsComputeTheCommand : Prop :=
  ∀ (s : State) (i : Instr), EngineAgrees s → s.commitDue = true → decodeCmd s.engine.latch.word = .ok i →
    exec i s.settled =
      .next (s.settled.complete
        (sequenceWrites i s.engine.latch s.settled.engine.scratch s.settled.engine.invZero).1
        (sequenceWrites i s.engine.latch s.settled.engine.scratch s.settled.engine.invZero).2)

/-- A started command reaches its completion edge, with the operands it latched, after finitely many steps, whatever
transfers the host makes meanwhile (R98, R100). That edges go on quietly after the host's list is the model's choice,
log 3; that the FAU accepts and answers every request is R100's assumption, log 6. The premise that the engine agrees
with its rule speaks of the model's own sequence and request signals, log 4 and 24. -/
def Obligations.StartedCommandReachesCompletion : Prop :=
  ∀ s : State, Coherent s → EngineAgrees s → s.status.busy = true → s.powerLost = false →
    (∀ inp ∈ s.env.inputs, benign inp = true) →
    ∃ n t, Reaches n s t ∧ t.commitDue = true ∧ t.engine.latch = s.engine.latch

/-- The engine's issue of field operations goes by the command, for SMUL the scalar's class, and never by the ladder bit, an
operand or an answer: LSTEP starts alike for both bits, SMUL alike for all scalars of a class; from alike states the
engine's move and its taking of any answers lead to alike states, and completions are due alike (R139, R158, R183).
Of what the spec leaves open here the model's choices are log 4 and 28. -/
def Obligations.EngineIssueIgnoresTheLadderBit : Prop :=
  ∀ s t : State, s.pace = t.pace →
    s.engine.settle.atEnd = t.engine.settle.atEnd ∧
    (s.edge = t.edge → s.engineTurn.pace = t.engineTurn.pace) ∧
    (∀ b c : Bool, (s.startCommand (.lstep b) (cmdWord 4 b)).pace = (t.startCommand (.lstep c) (cmdWord 4 c)).pace) ∧
    (smulClass s.regs.k = smulClass t.regs.k →
      (s.startCommand .smul (cmdWord 1 false)).pace = (t.startCommand .smul (cmdWord 1 false)).pace) ∧
    (∀ r q : FauRsp, (s.setEngine (s.engine.take r).rest).pace = (t.setEngine (t.engine.take q).rest).pace)

/-! ## Algebra of the formulas -/

/-- Doubling a scaled representative scales the result by λ⁴ (R143). -/
def Obligations.DoublingScalesByTheFourthPower : Prop :=
  ∀ (q : Point) (l : Word256),
    let l4 := fieldSqr (fieldSqr l)
    dbl ⟨fieldMul l q.x, fieldMul l q.z⟩ = ⟨fieldMul l4 (dbl q).x, fieldMul l4 (dbl q).z⟩

/-- DIFFADD is symmetric in its points, scales by λ²μ², and takes x1 into Z5 only, once (R156). -/
def Obligations.DiffaddIsSymmetricAndScales : Prop :=
  ∀ (q r : Point) (x1 l m : Word256),
    let c := fieldMul (fieldSqr l) (fieldSqr m)
    diffadd q r x1 = diffadd r q x1 ∧
    diffadd ⟨fieldMul l q.x, fieldMul l q.z⟩ ⟨fieldMul m r.x, fieldMul m r.z⟩ x1 =
      ⟨fieldMul c (diffadd q r x1).x, fieldMul c (diffadd q r x1).z⟩ ∧
    diffadd q r x1 = ⟨(diffadd q r 1).x, fieldMul x1 (diffadd q r 1).z⟩

/-- The special paths for k = 1 and k = 2 give what the general path would (R180). -/
def Obligations.SpecialScalarsAgreeWithTheLadder : Prop :=
  ∀ xb : Word256, smulResult 1 xb = toAffine (ladder 1 xb).1 ∧ smulResult 2 xb = toAffine (ladder 2 xb).1

/-- Two PDBL of PM = (x:1) leave in PM exactly the pair SMUL with K = 4 and XB = x converts, and an AFFINE after them leaves
in RESX and RESULT what that SMUL leaves (R145). -/
def Obligations.DoublingTwiceIsMultiplyingByFour : Prop :=
  ∀ s : State, s.regs.k = 4 → s.regs.pmx = s.regs.xb → s.regs.pmz = 1 →
    (performAll [.pdbl .pm, .pdbl .pm] s).regs.pm = (ladder s.regs.k s.regs.xb).1 ∧
    (performAll [.pdbl .pm, .pdbl .pm, .affine] s).regs.resx = (perform .smul s).regs.resx ∧
    (performAll [.pdbl .pm, .pdbl .pm, .affine] s).status.result = (perform .smul s).status.result

/-- LINIT, then LSTEP k[L−2] to k[0], then AFFINE leave in RESX and RESULT what SMUL leaves, and before the AFFINE the
slots hold SMUL's final working pair (R186). -/
def Obligations.LadderByHandEqualsSmul : Prop :=
  ∀ s : State, 3 ≤ s.regs.k.toNat →
    let u := performAll (.linit :: lstepsBelow s.regs.k (bitLen s.regs.k - 1)) s
    (u.regs.pm, u.regs.pp) = ladder s.regs.k s.regs.xb ∧
    (perform .affine u).regs.resx = (perform .smul s).regs.resx ∧
    (perform .affine u).status.result = (perform .smul s).status.result

/-- SMUL's RESX and RESULT depend on K and on XB modulo p alone (R187). -/
def Obligations.SmulDependsOnXbModuloP : Prop :=
  ∀ s s' t t' : State, s.engine.latch.k = s'.engine.latch.k →
    s.engine.latch.xb.toNat % Config.fieldPrime = s'.engine.latch.xb.toNat % Config.fieldPrime →
    exec .smul s = .next t → exec .smul s' = .next t' →
    t.regs.resx = t'.regs.resx ∧ t.status.result = t'.status.result

/-! ## The curve

The curve, its group law and `Represents` are PRESUMED, log 25. The group law of Mathlib asks for a field, so each
statement takes the primality of p as a premise;
Laws/Field.lean proves it (`fact_prime_fieldPrime`). -/

/-- DBL of a representative of Q represents 2Q, infinity and the point of order 2 included, and DBL(X, 0) is (X⁴ : 0)
(R142). The curve, its sum and `Represents` are the
model's, log 25. -/
def Obligations.DoublingRepresentsTwiceThePoint : Prop :=
  ∀ [Fact (Nat.Prime Config.fieldPrime)] (q : Point),
    (∀ Q : curve.Point, Represents q Q → Represents (dbl q) (Q + Q)) ∧
    (residue q.z = 0 → residue (dbl q).x = residue q.x ^ 4 ∧ (dbl q).z = 0)

/-- DIFFADD of representatives of Q and R with R − Q = ±P, P of nonzero x-coordinate fe(x1), represents Q + R, Q or R at
infinity included; for fe(x1) = 0 its Z is 0, whatever the points (R151). The curve, its sum and `Represents` are the
model's, log 25. -/
def Obligations.DiffaddRepresentsTheSum : Prop :=
  ∀ [Fact (Nat.Prime Config.fieldPrime)] (q r : Point) (x1 : Word256),
    (∀ (Q R : curve.Point) (x y : Fp) (h : curve.Nonsingular x y), residue x1 = x → x ≠ 0 →
      Represents q Q → Represents r R → (R - Q = .some x y h ∨ R - Q = -.some x y h) →
      Represents (diffadd q r x1) (Q + R)) ∧
    (residue x1 = 0 → (diffadd q r x1).z = 0)

/-- A ladder step with bit b takes representatives of n·P and (n+1)·P to representatives of (2n+b)·P and (2n+b+1)·P (R157,
90_conflicts.md C1). The curve, its multiples and `Represents` are the model's, log 25. -/
def Obligations.LadderStepAdvancesThePrefix : Prop :=
  ∀ [Fact (Nat.Prime Config.fieldPrime)] (pm pp : Point) (x1 : Word256) (n : Nat) (b : Bool) (x y : Fp)
    (h : curve.Nonsingular x y), residue x1 = x → x ≠ 0 →
    Represents pm (n • .some x y h) → Represents pp ((n + 1) • .some x y h) →
    Represents (ladderStep pm pp x1 b).1 ((2 * n + b.toNat) • .some x y h) ∧
    Represents (ladderStep pm pp x1 b).2 ((2 * n + b.toNat + 1) • .some x y h)

/-- SMUL computes scalar multiplication: for a curve point P with x(P) = fe(XB) ≠ 0 and k ≥ 1, it completes with OK and the
canonical RESX = x(k·P) when k·P ≠ O, and with INV_ZERO and RESX = 0 when k·P = O; for fe(XB) = 0 and k ≥ 2 it completes
with INV_ZERO and RESX = 0; for k = 1 it completes with OK and RESX = fe(XB) for every XB (R181, 90_conflicts.md C5). The
curve and its multiples are the model's, log 25. -/
def Obligations.SmulComputesTheMultiple : Prop :=
  ∀ [Fact (Nat.Prime Config.fieldPrime)] (s : State),
    (∀ (x y : Fp) (h : curve.Nonsingular x y), residue s.engine.latch.xb = x → x ≠ 0 →
      1 ≤ s.engine.latch.k.toNat →
      (∀ (x' y' : Fp) (h' : curve.Nonsingular x' y'),
        s.engine.latch.k.toNat • (.some x y h : curve.Point) = .some x' y' h' →
        ∃ t, CompletesWith .smul s t 0 ∧ residue t.regs.resx = x' ∧ t.regs.resx.toNat < Config.fieldPrime) ∧
      (s.engine.latch.k.toNat • (.some x y h : curve.Point) = 0 →
        ∃ t, CompletesWith .smul s t 2 ∧ t.regs.resx = 0)) ∧
    (residue s.engine.latch.xb = 0 → 2 ≤ s.engine.latch.k.toNat →
      ∃ t, CompletesWith .smul s t 2 ∧ t.regs.resx = 0) ∧
    (s.engine.latch.k = 1 →
      ∃ t, CompletesWith .smul s t 0 ∧ t.regs.resx.toNat = s.engine.latch.xb.toNat % Config.fieldPrime)
end

