-- ==== Sys2Proof/Laws/State.lean ====
section
/-! SUPPORT. The small lemmas of every update of the state: one per field, true by unfolding, so that no later
proof unfolds a record update. -/

namespace Sys2Proof.Machine

@[simp] theorem State.complete_regs (s : State) (w : List (WideReg × Word256)) (c : BitVec 4) : (s.complete w c).regs = s.regs.setAll w := rfl
@[simp] theorem State.complete_status (s : State) (w : List (WideReg × Word256)) (c : BitVec 4) : (s.complete w c).status = { s.status with busy := false, done := true, result := c } := rfl
@[simp] theorem State.complete_engine (s : State) (w : List (WideReg × Word256)) (c : BitVec 4) : (s.complete w c).engine = s.engine := rfl
@[simp] theorem State.complete_fau (s : State) (w : List (WideReg × Word256)) (c : BitVec 4) : (s.complete w c).fau = s.fau := rfl
@[simp] theorem State.complete_env (s : State) (w : List (WideReg × Word256)) (c : BitVec 4) : (s.complete w c).env = s.env := rfl
@[simp] theorem State.complete_edge (s : State) (w : List (WideReg × Word256)) (c : BitVec 4) : (s.complete w c).edge = s.edge := rfl
@[simp] theorem State.complete_powerLost (s : State) (w : List (WideReg × Word256)) (c : BitVec 4) : (s.complete w c).powerLost = s.powerLost := rfl

@[simp] theorem State.rejectIllegal_regs (s : State) (c : BitVec 4) : (s.rejectIllegal c).regs = s.regs := rfl
@[simp] theorem State.rejectIllegal_status (s : State) (c : BitVec 4) : (s.rejectIllegal c).status = { s.status with done := true, result := c } := rfl
@[simp] theorem State.rejectIllegal_engine (s : State) (c : BitVec 4) : (s.rejectIllegal c).engine = s.engine := rfl
@[simp] theorem State.rejectIllegal_fau (s : State) (c : BitVec 4) : (s.rejectIllegal c).fau = s.fau := rfl
@[simp] theorem State.rejectIllegal_env (s : State) (c : BitVec 4) : (s.rejectIllegal c).env = s.env := rfl
@[simp] theorem State.rejectIllegal_edge (s : State) (c : BitVec 4) : (s.rejectIllegal c).edge = s.edge := rfl
@[simp] theorem State.rejectIllegal_powerLost (s : State) (c : BitVec 4) : (s.rejectIllegal c).powerLost = s.powerLost := rfl

@[simp] theorem State.respond_regs (s : State) (v : Word256) (e : Bool) : (s.respond v e).regs = s.regs := rfl
@[simp] theorem State.respond_status (s : State) (v : Word256) (e : Bool) : (s.respond v e).status = s.status := rfl
@[simp] theorem State.respond_engine (s : State) (v : Word256) (e : Bool) : (s.respond v e).engine = s.engine := rfl
@[simp] theorem State.respond_fau (s : State) (v : Word256) (e : Bool) : (s.respond v e).fau = { txn := .idle, rsp := some ⟨v, e⟩ } := rfl
@[simp] theorem State.respond_env (s : State) (v : Word256) (e : Bool) : (s.respond v e).env = s.env := rfl
@[simp] theorem State.respond_edge (s : State) (v : Word256) (e : Bool) : (s.respond v e).edge = s.edge := rfl
@[simp] theorem State.respond_powerLost (s : State) (v : Word256) (e : Bool) : (s.respond v e).powerLost = s.powerLost := rfl

@[simp] theorem State.applyReset_regs (s : State) : (s.applyReset).regs = Regs.reset := rfl
@[simp] theorem State.applyReset_status (s : State) : (s.applyReset).status = Status.reset := rfl
@[simp] theorem State.applyReset_engine (s : State) : (s.applyReset).engine = Engine.reset := rfl
@[simp] theorem State.applyReset_fau (s : State) : (s.applyReset).fau = FauPort.reset := rfl
@[simp] theorem State.applyReset_env (s : State) : (s.applyReset).env = s.env := rfl
@[simp] theorem State.applyReset_edge (s : State) : (s.applyReset).edge = s.edge := rfl
@[simp] theorem State.applyReset_powerLost (s : State) : (s.applyReset).powerLost = false := rfl

@[simp] theorem State.setTxn_regs (s : State) (t : FauTxn) : (s.setTxn t).regs = s.regs := rfl
@[simp] theorem State.setTxn_status (s : State) (t : FauTxn) : (s.setTxn t).status = s.status := rfl
@[simp] theorem State.setTxn_engine (s : State) (t : FauTxn) : (s.setTxn t).engine = s.engine := rfl
@[simp] theorem State.setTxn_fau (s : State) (t : FauTxn) : (s.setTxn t).fau = { s.fau with txn := t } := rfl
@[simp] theorem State.setTxn_env (s : State) (t : FauTxn) : (s.setTxn t).env = s.env := rfl
@[simp] theorem State.setTxn_edge (s : State) (t : FauTxn) : (s.setTxn t).edge = s.edge := rfl
@[simp] theorem State.setTxn_powerLost (s : State) (t : FauTxn) : (s.setTxn t).powerLost = s.powerLost := rfl

@[simp] theorem State.setEngine_regs (s : State) (e : Engine) : (s.setEngine e).regs = s.regs := rfl
@[simp] theorem State.setEngine_status (s : State) (e : Engine) : (s.setEngine e).status = s.status := rfl
@[simp] theorem State.setEngine_engine (s : State) (e : Engine) : (s.setEngine e).engine = e := rfl
@[simp] theorem State.setEngine_fau (s : State) (e : Engine) : (s.setEngine e).fau = s.fau := rfl
@[simp] theorem State.setEngine_env (s : State) (e : Engine) : (s.setEngine e).env = s.env := rfl
@[simp] theorem State.setEngine_edge (s : State) (e : Engine) : (s.setEngine e).edge = s.edge := rfl
@[simp] theorem State.setEngine_powerLost (s : State) (e : Engine) : (s.setEngine e).powerLost = s.powerLost := rfl

@[simp] theorem State.clearRsp_regs (s : State) : (s.clearRsp).regs = s.regs := rfl
@[simp] theorem State.clearRsp_status (s : State) : (s.clearRsp).status = s.status := rfl
@[simp] theorem State.clearRsp_engine (s : State) : (s.clearRsp).engine = s.engine := rfl
@[simp] theorem State.clearRsp_fau (s : State) : (s.clearRsp).fau = { s.fau with rsp := none } := rfl
@[simp] theorem State.clearRsp_env (s : State) : (s.clearRsp).env = s.env := rfl
@[simp] theorem State.clearRsp_edge (s : State) : (s.clearRsp).edge = s.edge := rfl
@[simp] theorem State.clearRsp_powerLost (s : State) : (s.clearRsp).powerLost = s.powerLost := rfl

@[simp] theorem State.dropWrite_regs (s : State) : (s.dropWrite).regs = s.regs := rfl
@[simp] theorem State.dropWrite_status (s : State) : (s.dropWrite).status = s.status.setOverrun := rfl
@[simp] theorem State.dropWrite_engine (s : State) : (s.dropWrite).engine = s.engine := rfl
@[simp] theorem State.dropWrite_fau (s : State) : (s.dropWrite).fau = s.fau := rfl
@[simp] theorem State.dropWrite_env (s : State) : (s.dropWrite).env = s.env := rfl
@[simp] theorem State.dropWrite_edge (s : State) : (s.dropWrite).edge = s.edge := rfl
@[simp] theorem State.dropWrite_powerLost (s : State) : (s.dropWrite).powerLost = s.powerLost := rfl

@[simp] theorem State.answer_regs (s : State) (r : Option BusResp) (l : List Input) : (s.answer r l).regs = s.regs := rfl
@[simp] theorem State.answer_status (s : State) (r : Option BusResp) (l : List Input) : (s.answer r l).status = s.status := rfl
@[simp] theorem State.answer_engine (s : State) (r : Option BusResp) (l : List Input) : (s.answer r l).engine = s.engine := rfl
@[simp] theorem State.answer_fau (s : State) (r : Option BusResp) (l : List Input) : (s.answer r l).fau = s.fau := rfl
@[simp] theorem State.answer_env (s : State) (r : Option BusResp) (l : List Input) : (s.answer r l).env = { s.env with resp := r, inputs := l } := rfl
@[simp] theorem State.answer_edge (s : State) (r : Option BusResp) (l : List Input) : (s.answer r l).edge = s.edge := rfl
@[simp] theorem State.answer_powerLost (s : State) (r : Option BusResp) (l : List Input) : (s.answer r l).powerLost = s.powerLost := rfl

@[simp] theorem State.countMismatch_regs (s : State) (d : Bool) : (s.countMismatch d).regs = s.regs := rfl
@[simp] theorem State.countMismatch_status (s : State) (d : Bool) : (s.countMismatch d).status = s.status := rfl
@[simp] theorem State.countMismatch_engine (s : State) (d : Bool) : (s.countMismatch d).engine = s.engine := rfl
@[simp] theorem State.countMismatch_fau (s : State) (d : Bool) : (s.countMismatch d).fau = s.fau := rfl
@[simp] theorem State.countMismatch_env (s : State) (d : Bool) : (s.countMismatch d).env = { s.env with mismatches := s.env.mismatches + d.toNat } := rfl
@[simp] theorem State.countMismatch_edge (s : State) (d : Bool) : (s.countMismatch d).edge = s.edge := rfl
@[simp] theorem State.countMismatch_powerLost (s : State) (d : Bool) : (s.countMismatch d).powerLost = s.powerLost := rfl

@[simp] theorem State.tick_regs (s : State) : (s.tick).regs = s.regs := rfl
@[simp] theorem State.tick_status (s : State) : (s.tick).status = s.status := rfl
@[simp] theorem State.tick_engine (s : State) : (s.tick).engine = s.engine := rfl
@[simp] theorem State.tick_fau (s : State) : (s.tick).fau = s.fau := rfl
@[simp] theorem State.tick_env (s : State) : (s.tick).env = s.env := rfl
@[simp] theorem State.tick_edge (s : State) : (s.tick).edge = s.edge + 1 := rfl
@[simp] theorem State.tick_powerLost (s : State) : (s.tick).powerLost = s.powerLost := rfl

@[simp] theorem State.startCommand_regs (s : State) (i : Instr) (w : Word32) : (s.startCommand i w).regs = s.regs := rfl
@[simp] theorem State.startCommand_status (s : State) (i : Instr) (w : Word32) : (s.startCommand i w).status = s.status.start := rfl
@[simp] theorem State.startCommand_engine (s : State) (i : Instr) (w : Word32) : (s.startCommand i w).engine = s.engine.load i (Latch.capture w s.regs) := rfl
@[simp] theorem State.startCommand_fau (s : State) (i : Instr) (w : Word32) : (s.startCommand i w).fau = s.fau := rfl
@[simp] theorem State.startCommand_env (s : State) (i : Instr) (w : Word32) : (s.startCommand i w).env = s.env := rfl
@[simp] theorem State.startCommand_edge (s : State) (i : Instr) (w : Word32) : (s.startCommand i w).edge = s.edge := rfl
@[simp] theorem State.startCommand_powerLost (s : State) (i : Instr) (w : Word32) : (s.startCommand i w).powerLost = s.powerLost := rfl

@[simp] theorem Engine.load_latch (e : Engine) (i : Instr) (l : Latch) : (e.load i l).latch = l := rfl
@[simp] theorem Engine.load_w0 (e : Engine) (i : Instr) (l : Latch) : (e.load i l).w0 = e.w0 := rfl
@[simp] theorem Engine.load_w1 (e : Engine) (i : Instr) (l : Latch) : (e.load i l).w1 = e.w1 := rfl
@[simp] theorem Engine.load_bitIndex (e : Engine) (i : Instr) (l : Latch) : (e.load i l).bitIndex = e.bitIndex := rfl
@[simp] theorem Engine.load_swapSel (e : Engine) (i : Instr) (l : Latch) : (e.load i l).swapSel = e.swapAtStart i := rfl
@[simp] theorem Engine.load_scratch (e : Engine) (i : Instr) (l : Latch) : (e.load i l).scratch = (planOf i l).1 := rfl
@[simp] theorem Engine.load_todo (e : Engine) (i : Instr) (l : Latch) : (e.load i l).todo = (planOf i l).2.1 := rfl
@[simp] theorem Engine.load_stage (e : Engine) (i : Instr) (l : Latch) : (e.load i l).stage = (planOf i l).2.2 := rfl
@[simp] theorem Engine.load_invZero (e : Engine) (i : Instr) (l : Latch) : (e.load i l).invZero = false := rfl

@[simp] theorem Engine.loadIteration_latch (e : Engine) (x : Word256) (n : BitVec 9) : (e.loadIteration x n).latch = e.latch := rfl
@[simp] theorem Engine.loadIteration_w0 (e : Engine) (x : Word256) (n : BitVec 9) : (e.loadIteration x n).w0 = e.w0 := rfl
@[simp] theorem Engine.loadIteration_w1 (e : Engine) (x : Word256) (n : BitVec 9) : (e.loadIteration x n).w1 = e.w1 := rfl
@[simp] theorem Engine.loadIteration_bitIndex (e : Engine) (x : Word256) (n : BitVec 9) : (e.loadIteration x n).bitIndex = n := rfl
@[simp] theorem Engine.loadIteration_swapSel (e : Engine) (x : Word256) (n : BitVec 9) : (e.loadIteration x n).swapSel = e.latch.k.getLsbD n.toNat := rfl
@[simp] theorem Engine.loadIteration_scratch (e : Engine) (x : Word256) (n : BitVec 9) : (e.loadIteration x n).scratch = stepScratch e.w0 e.w1 x (e.latch.k.getLsbD n.toNat) := rfl
@[simp] theorem Engine.loadIteration_todo (e : Engine) (x : Word256) (n : BitVec 9) : (e.loadIteration x n).todo = stepSeq := rfl
@[simp] theorem Engine.loadIteration_stage (e : Engine) (x : Word256) (n : BitVec 9) : (e.loadIteration x n).stage = .ladder := rfl
@[simp] theorem Engine.loadIteration_invZero (e : Engine) (x : Word256) (n : BitVec 9) : (e.loadIteration x n).invZero = e.invZero := rfl
@[simp] theorem Engine.loadIteration_pause (e : Engine) (x : Word256) (n : BitVec 9) : (e.loadIteration x n).pause = e.pause := rfl

@[simp] theorem Engine.enterAffine_latch (e : Engine) : (e.enterAffine).latch = e.latch := rfl
@[simp] theorem Engine.enterAffine_w0 (e : Engine) : (e.enterAffine).w0 = e.w0 := rfl
@[simp] theorem Engine.enterAffine_w1 (e : Engine) : (e.enterAffine).w1 = e.w1 := rfl
@[simp] theorem Engine.enterAffine_bitIndex (e : Engine) : (e.enterAffine).bitIndex = e.bitIndex := rfl
@[simp] theorem Engine.enterAffine_swapSel (e : Engine) : (e.enterAffine).swapSel = e.swapSel := rfl
@[simp] theorem Engine.enterAffine_scratch (e : Engine) : (e.enterAffine).scratch = [e.w0.x, e.w0.z] := rfl
@[simp] theorem Engine.enterAffine_todo (e : Engine) : (e.enterAffine).todo = affineSeq 0 1 2 := rfl
@[simp] theorem Engine.enterAffine_stage (e : Engine) : (e.enterAffine).stage = .commit := rfl
@[simp] theorem Engine.enterAffine_invZero (e : Engine) : (e.enterAffine).invZero = e.invZero := rfl
@[simp] theorem Engine.enterAffine_pause (e : Engine) : (e.enterAffine).pause = e.pause := rfl

@[simp] theorem Engine.take_latch (e : Engine) (r : FauRsp) : (e.take r).latch = e.latch := rfl
@[simp] theorem Engine.take_w0 (e : Engine) (r : FauRsp) : (e.take r).w0 = e.w0 := rfl
@[simp] theorem Engine.take_w1 (e : Engine) (r : FauRsp) : (e.take r).w1 = e.w1 := rfl
@[simp] theorem Engine.take_bitIndex (e : Engine) (r : FauRsp) : (e.take r).bitIndex = e.bitIndex := rfl
@[simp] theorem Engine.take_swapSel (e : Engine) (r : FauRsp) : (e.take r).swapSel = e.swapSel := rfl
@[simp] theorem Engine.take_scratch (e : Engine) (r : FauRsp) : (e.take r).scratch = e.scratch ++ [if r.err then 0 else r.res] := rfl
@[simp] theorem Engine.take_todo (e : Engine) (r : FauRsp) : (e.take r).todo = e.todo.tail := rfl
@[simp] theorem Engine.take_stage (e : Engine) (r : FauRsp) : (e.take r).stage = e.stage := rfl
@[simp] theorem Engine.take_invZero (e : Engine) (r : FauRsp) : (e.take r).invZero = (e.invZero || r.err) := rfl
@[simp] theorem Engine.take_pause (e : Engine) (r : FauRsp) : (e.take r).pause = e.pause := rfl

@[simp] theorem Engine.rest_latch (e : Engine) : e.rest.latch = e.latch := rfl
@[simp] theorem Engine.rest_w0 (e : Engine) : e.rest.w0 = e.w0 := rfl
@[simp] theorem Engine.rest_w1 (e : Engine) : e.rest.w1 = e.w1 := rfl
@[simp] theorem Engine.rest_bitIndex (e : Engine) : e.rest.bitIndex = e.bitIndex := rfl
@[simp] theorem Engine.rest_swapSel (e : Engine) : e.rest.swapSel = e.swapSel := rfl
@[simp] theorem Engine.rest_scratch (e : Engine) : e.rest.scratch = e.scratch := rfl
@[simp] theorem Engine.rest_todo (e : Engine) : e.rest.todo = e.todo := rfl
@[simp] theorem Engine.rest_stage (e : Engine) : e.rest.stage = e.stage := rfl
@[simp] theorem Engine.rest_invZero (e : Engine) : e.rest.invZero = e.invZero := rfl
@[simp] theorem Engine.rest_point (e : Engine) : e.rest.point = e.point := rfl

@[simp] theorem Engine.takePair_latch (e : Engine) : e.takePair.latch = e.latch := rfl
@[simp] theorem Engine.takePair_bitIndex (e : Engine) : e.takePair.bitIndex = e.bitIndex := rfl
@[simp] theorem Engine.takePair_swapSel (e : Engine) : e.takePair.swapSel = e.swapSel := rfl
@[simp] theorem Engine.takePair_scratch (e : Engine) : e.takePair.scratch = e.scratch := rfl
@[simp] theorem Engine.takePair_todo (e : Engine) : e.takePair.todo = e.todo := rfl
@[simp] theorem Engine.takePair_stage (e : Engine) : e.takePair.stage = e.stage := rfl
@[simp] theorem Engine.takePair_invZero (e : Engine) : e.takePair.invZero = e.invZero := rfl

@[simp] theorem State.settled_regs (s : State) : (s.settled).regs = s.regs := rfl
@[simp] theorem State.settled_status (s : State) : (s.settled).status = s.status := rfl
@[simp] theorem State.settled_engine (s : State) : (s.settled).engine = s.engine.settle := rfl
@[simp] theorem State.settled_fau (s : State) : (s.settled).fau = { s.fau with rsp := none } := rfl
@[simp] theorem State.settled_env (s : State) : (s.settled).env = s.env := rfl
@[simp] theorem State.settled_edge (s : State) : (s.settled).edge = s.edge := rfl
@[simp] theorem State.settled_powerLost (s : State) : (s.settled).powerLost = s.powerLost := rfl

@[simp] theorem State.keepValue_regs (s : State) (v : Word32) : (s.keepValue v).regs = s.regs := rfl
@[simp] theorem State.keepValue_status (s : State) (v : Word32) : (s.keepValue v).status = s.status := rfl
@[simp] theorem State.keepValue_engine (s : State) (v : Word32) : (s.keepValue v).engine = s.engine := rfl
@[simp] theorem State.keepValue_fau (s : State) (v : Word32) : (s.keepValue v).fau = s.fau := rfl
@[simp] theorem State.keepValue_env (s : State) (v : Word32) : (s.keepValue v).env = { s.env with values := v :: s.env.values } := rfl
@[simp] theorem State.keepValue_edge (s : State) (v : Word32) : (s.keepValue v).edge = s.edge := rfl
@[simp] theorem State.keepValue_powerLost (s : State) (v : Word32) : (s.keepValue v).powerLost = s.powerLost := rfl

/-! The registers by name. -/

@[simp] theorem Regs.get_k (r : Regs) : r.get .k = r.k := rfl
@[simp] theorem Regs.get_xb (r : Regs) : r.get .xb = r.xb := rfl
@[simp] theorem Regs.get_pmx (r : Regs) : r.get .pmx = r.pmx := rfl
@[simp] theorem Regs.get_pmz (r : Regs) : r.get .pmz = r.pmz := rfl
@[simp] theorem Regs.get_ppx (r : Regs) : r.get .ppx = r.ppx := rfl
@[simp] theorem Regs.get_ppz (r : Regs) : r.get .ppz = r.ppz := rfl
@[simp] theorem Regs.get_resx (r : Regs) : r.get .resx = r.resx := rfl

@[simp] theorem Regs.get_set_same (r : Regs) (g : WideReg) (v : Word256) : (r.set g v).get g = v := by
  cases g <;> rfl

theorem Regs.get_set_other (r : Regs) {g h : WideReg} (v : Word256) (hne : h ≠ g) :
    (r.set g v).get h = r.get h := by
  cases g <;> cases h <;> first | rfl | exact absurd rfl hne

/-- Two register files that agree on every register are the same. -/
theorem Regs.ext_get {r t : Regs} (h : ∀ g, r.get g = t.get g) : r = t := by
  cases r; cases t
  simp only [Regs.mk.injEq]
  exact ⟨h .k, h .xb, h .pmx, h .pmz, h .ppx, h .ppz, h .resx⟩

/-- A register none of the writes names keeps its value. -/
theorem Regs.get_setAll_other (r : Regs) (w : List (WideReg × Word256)) {g : WideReg}
    (h : ∀ q ∈ w, q.1 ≠ g) : (r.setAll w).get g = r.get g := by
  induction w generalizing r with
  | nil => rfl
  | cons q rest ih =>
    have hq : g ≠ q.1 := fun e => h q (by simp) e.symm
    rw [Regs.setAll, ih _ fun p hp => h p (by simp [hp]), Regs.get_set_other r q.2 hq]

@[simp] theorem Regs.setAll_nil (r : Regs) : r.setAll [] = r := rfl
@[simp] theorem Regs.setAll_cons (r : Regs) (g : WideReg) (v : Word256) (w : List (WideReg × Word256)) :
    r.setAll ((g, v) :: w) = (r.set g v).setAll w := rfl

/-! What the observable state is. -/

theorem State.observed_eq {s : State} (h : s.powerLost = false) : s.observed = s := by
  simp [State.observed, h]

/-! Going on after an outcome. -/

@[simp] theorem andThen_next (s : State) (f : State → Host.Outcome State Fault Refusal) :
    andThen (.next s) f = f s := rfl
@[simp] theorem andThen_fault (r : Fault) (f : State → Host.Outcome State Fault Refusal) :
    andThen (.fault r) f = .fault r := rfl
@[simp] theorem andThen_refused (r : Refusal) (f : State → Host.Outcome State Fault Refusal) :
    andThen (.refused r) f = .refused r := rfl

/-- The one way `andThen` answers a next state. -/
theorem andThen_eq_next {o : Host.Outcome State Fault Refusal} {f : State → Host.Outcome State Fault Refusal}
    {t : State} (h : andThen o f = .next t) : ∃ u, o = .next u ∧ f u = .next t := by
  cases o with
  | next u => exact ⟨u, rfl, h⟩
  | fault r => simp at h
  | refused r => simp at h

end Sys2Proof.Machine
end

