-- ==== Sys2Proof/Laws/Bus.lean ====
section
/-! SUPPORT. The host port: the words of a 256-bit register, the address map, and what a write and a host
statement can do (one inversion lemma each). -/

namespace Sys2Proof.Machine

/-! ## Words of a register -/

theorem getLsbD_wordOf (v : Word256) (j : Fin 8) {i : Nat} (hi : i < 32) :
    (wordOf v j).getLsbD i = v.getLsbD (32 * j.val + i) := by
  simp [wordOf, hi]

theorem getLsbD_setWordOf (v : Word256) (j : Fin 8) (d : Word32) {n : Nat} (hn : n < 256) :
    (setWordOf v j d).getLsbD n =
      if 32 * j.val ≤ n ∧ n < 32 * j.val + 32 then d.getLsbD (n - 32 * j.val) else v.getLsbD n := by
  simp only [setWordOf, BitVec.getLsbD_or, BitVec.getLsbD_and, BitVec.getLsbD_not, BitVec.getLsbD_shiftLeft,
    BitVec.getLsbD_setWidth, BitVec.getLsbD_allOnes, hn, decide_true, Bool.true_and]
  by_cases h1 : n < 32 * j.val
  · rw [if_neg (by omega)]; simp [h1]
  · by_cases h2 : n < 32 * j.val + 32
    · have h3 : n - 32 * j.val < 32 := by omega
      have h4 : n - 32 * j.val < 256 := by omega
      rw [if_pos (by omega)]; simp [h1, h3, h4]
    · have h3 : ¬ n - 32 * j.val < 32 := by omega
      have h4 : n - 32 * j.val < 256 := by omega
      rw [if_neg (by omega)]
      simp [h1, h3, h4, BitVec.getLsbD_of_ge d _ (by omega : 32 ≤ n - 32 * j.val)]

/-- A word written is the word read back (R63, R67). -/
@[simp] theorem wordOf_setWordOf_same (v : Word256) (j : Fin 8) (d : Word32) :
    wordOf (setWordOf v j d) j = d := by
  apply BitVec.eq_of_getLsbD_eq
  intro i hi
  rw [getLsbD_wordOf _ _ hi, getLsbD_setWordOf _ _ _ (by omega), if_pos (by omega)]
  congr 1; omega

/-- The other seven words keep their values (R22, R67). -/
theorem wordOf_setWordOf_other (v : Word256) {i j : Fin 8} (d : Word32) (h : i ≠ j) :
    wordOf (setWordOf v j d) i = wordOf v i := by
  have hne : i.val ≠ j.val := fun e => h (Fin.ext e)
  apply BitVec.eq_of_getLsbD_eq
  intro n hn
  rw [getLsbD_wordOf _ _ hn, getLsbD_wordOf _ _ hn, getLsbD_setWordOf _ _ _ (by omega), if_neg (by omega)]

/-- A register word is its eight bus words (R63). -/
theorem eq_of_wordOf_eq {v w : Word256} (h : ∀ j, wordOf v j = wordOf w j) : v = w := by
  apply BitVec.eq_of_getLsbD_eq
  intro n hn
  have hm : n % 32 < 32 := Nat.mod_lt _ (by norm_num)
  have := congrArg (fun x : Word32 => x.getLsbD (n % 32)) (h ⟨n / 32, by omega⟩)
  simp only [getLsbD_wordOf _ _ hm] at this
  have e : 32 * (n / 32) + n % 32 = n := Nat.div_add_mod n 32
  rwa [e] at this

/-! ## The address map -/

@[simp] theorem target_wordOffset (g : WideReg) (j : Fin 8) : target (wordOffset g j) = .wide g j := by
  cases g <;> revert j <;> decide +kernel

/-- What holds of each of the 4096 offsets, checked one by one, holds of every offset. -/
theorem offset_all {P : Offset → Bool} (h : ∀ a, a < 64 → ∀ b, b < 64 → P (BitVec.ofNat 12 (64 * a + b)) = true)
    (off : Offset) : P off = true := by
  have hlt := off.isLt
  have := h (off.toNat / 64) (by omega) (off.toNat % 64) (by omega)
  rwa [Nat.div_add_mod, BitVec.ofNat_toNat, BitVec.setWidth_eq] at this

/-- Only its own offset selects a word of a register, STATUS or CMD (R73). -/
theorem eq_offset_of_target (off : Offset) :
    (∀ g j, target off = .wide g j → off = wordOffset g j) ∧
      (target off = .status → off = statusOffset) ∧ (target off = .cmd → off = cmdOffset) := by
  have := offset_all (P := fun off =>
    match target off with
    | .wide g j => decide (off = wordOffset g j)
    | .status => decide (off = statusOffset)
    | .cmd => decide (off = cmdOffset)
    | .misaligned | .reserved | .id | .ctrl => true) (by decide +kernel) off
  refine ⟨fun g j h => ?_, fun h => ?_, fun h => ?_⟩ <;> rw [h] at this <;> exact of_decide_eq_true this

@[simp] theorem target_statusOffset : target statusOffset = .status := by decide
@[simp] theorem target_ctrlOffset : target ctrlOffset = .ctrl := by decide
@[simp] theorem target_cmdOffset : target cmdOffset = .cmd := by decide

/-! ## What a write can do -/

/-- Everything a bus write can do to the state (R67, R69 to R71, R95 to R97). -/
theorem busWrite_cases (s : State) (off : Offset) (v : Word32) :
    (busWrite s off v).1 = s ∨
    (target off = .ctrl ∧ (busWrite s off v).1 = { s with status := s.status.writeCtrl v }) ∨
    (target off = .status ∧ (busWrite s off v).1 = { s with status := s.status.writeStatus v }) ∨
    (s.status.busy = true ∧ (target off = .cmd ∨ ∃ g j, g ≠ .resx ∧ target off = .wide g j) ∧
      (busWrite s off v).1 = s.dropWrite) ∨
    (s.status.busy = false ∧ target off = .cmd ∧
      (busWrite s off v).1 = s.rejectIllegal codeIllegalCmd) ∨
    (s.status.busy = false ∧ target off = .cmd ∧
      ∃ i, decodeCmd v = .ok i ∧ (busWrite s off v).1 = s.startCommand i v) ∨
    (s.status.busy = false ∧ ∃ g j, g ≠ .resx ∧ target off = .wide g j ∧
      (busWrite s off v).1 = { s with regs := s.regs.set g (setWordOf (s.regs.get g) j v) }) := by
  unfold busWrite
  cases ht : target off with
  | misaligned => exact .inl rfl
  | reserved => exact .inl rfl
  | id => exact .inl rfl
  | ctrl => exact .inr (.inl ⟨rfl, rfl⟩)
  | status => exact .inr (.inr (.inl ⟨rfl, rfl⟩))
  | cmd =>
    cases hb : s.status.busy with
    | true => exact .inr (.inr (.inr (.inl ⟨rfl, .inl rfl, by simp [State.writeCmd, hb]⟩)))
    | false =>
      cases hd : decodeCmd v with
      | error e =>
        exact .inr (.inr (.inr (.inr (.inl ⟨rfl, rfl, by simp [State.writeCmd, State.issue, hb, hd]⟩))))
      | ok i =>
        exact .inr (.inr (.inr (.inr (.inr (.inl
          ⟨rfl, rfl, i, rfl, by simp [State.writeCmd, State.issue, hb, hd]⟩)))))
  | wide g j =>
    by_cases hg : g = .resx
    · exact .inl (by simp [State.writeWide, hg])
    · cases hb : s.status.busy with
      | true =>
        exact .inr (.inr (.inr (.inl ⟨rfl, .inr ⟨g, j, hg, rfl⟩, by simp [State.writeWide, hg, hb]⟩)))
      | false =>
        exact .inr (.inr (.inr (.inr (.inr (.inr
          ⟨rfl, g, j, hg, rfl, by simp [State.writeWide, hg, hb]⟩)))))

/-! ## What a host statement can do -/

/-- What the host does at an edge: nothing to the block, or, while the state is known, a bus write; the answer and the
inputs left are recorded (R104, R219). -/
theorem hostAct_cases (s : State) :
    (∃ e, s.hostAct = { s with env := e }) ∨
    (s.powerLost = false ∧ ∃ off v e, s.nextInput = .wr off v ∧
      s.hostAct = { (busWrite s off v).1 with env := e }) := by
  unfold State.hostAct State.nextInput
  cases s.env.inputs with
  | nil => exact .inl ⟨_, rfl⟩
  | cons inp rest =>
    cases inp with
    | quiet => exact .inl ⟨_, rfl⟩
    | rd off => exact .inl ⟨_, rfl⟩
    | rdEq off v => exact .inl ⟨_, rfl⟩
    | rstLow d => exact .inl ⟨_, rfl⟩
    | clockStop => exact .inl ⟨_, rfl⟩
    | strayFauResponse => exact .inl ⟨_, rfl⟩
    | poll =>
      by_cases h : (busRead s.observed statusOffset).1.getLsbD 0
      · exact .inl ⟨_, by simp only [h, if_true]; rfl⟩
      · exact .inl ⟨_, by simp only [h]; rfl⟩
    | wr off v =>
      cases hp : s.powerLost with
      | true =>
        exact .inl ⟨{ s.env with resp := some (.write (busWrite s off v).2), inputs := rest }, by
          simp [State.hostWrite, hp, State.answer]⟩
      | false =>
        exact .inr ⟨rfl, off, v, _, rfl, by simp only [State.hostWrite, hp]; rfl⟩

/-- A bus write touches registers, status and engine only. -/
theorem busWrite_keeps (s : State) (off : Offset) (v : Word32) :
    (busWrite s off v).1.fau = s.fau ∧ (busWrite s off v).1.env = s.env ∧
      (busWrite s off v).1.edge = s.edge ∧ (busWrite s off v).1.powerLost = s.powerLost := by
  rcases busWrite_cases s off v with h | ⟨_, h⟩ | ⟨_, h⟩ | ⟨_, _, h⟩ | ⟨_, _, h⟩ | ⟨_, _, i, _, h⟩ | ⟨_, g, j, _, _, h⟩ <;>
    rw [h] <;> exact ⟨rfl, rfl, rfl, rfl⟩

/-! The value of `rdfe`. -/

theorem toNat_wordOf (v : Word256) (j : Fin 8) : (wordOf v j).toNat = v.toNat / 2 ^ (32 * j.val) % 2 ^ 32 := by
  simp [wordOf, BitVec.extractLsb'_toNat, Nat.shiftRight_eq_div_pow]

theorem joinWords_nil : joinWords [] = 0 := rfl

theorem joinWords_cons (w : Word32) (ws : List Word32) :
    joinWords (w :: ws) = w.toNat + joinWords ws * 2 ^ 32 := by
  unfold joinWords
  exact List.foldr_cons ..

/-- The words of a register from number `m` on, joined. -/
theorem joinWords_from (v : Word256) (js : List (Fin 8)) (m : Nat)
    (h : js.map Fin.val = List.range' m (8 - m)) (hm : m ≤ 8) :
    joinWords (js.map (wordOf v)) = v.toNat / 2 ^ (32 * m) := by
  induction js generalizing m with
  | nil =>
    have h8 : m = 8 := by
      have hl : 0 = 8 - m := by simpa using congrArg List.length h
      omega
    have e : 32 * 8 = 256 := rfl
    rw [h8, e, Nat.div_eq_of_lt v.isLt, List.map_nil, joinWords_nil]
  | cons j js ih =>
    have hl : js.length + 1 = 8 - m := by simpa using congrArg List.length h
    obtain ⟨k, hk⟩ : ∃ k, 8 - m = k + 1 := ⟨_, hl.symm⟩
    rw [hk, List.range'_succ, List.map_cons, List.cons.injEq] at h
    have hk' : k = 8 - (m + 1) := by omega
    rw [List.map_cons, joinWords_cons, ih (m + 1) (hk' ▸ h.2) (by omega), toNat_wordOf, h.1,
      Nat.mul_add, Nat.pow_add, ← Nat.div_div_eq_div_mul, Nat.mul_one, Nat.mul_comm (_ / _ / _), Nat.mod_add_div]

/-- The eight words of a register, joined, are the register (R63, R105). -/
theorem joinWords_words (v : Word256) : joinWords ((List.finRange 8).map (wordOf v)) = v.toNat := by
  rw [joinWords_from v _ 0 (by decide) (by decide), Nat.mul_zero, Nat.pow_zero, Nat.div_one]

/-- Eight zero words, joined. -/
theorem joinWords_zeros : joinWords ((List.finRange 8).map fun _ => 0) = 0 := by decide

end Sys2Proof.Machine
end

