-- ==== Sys2Proof/Laws/Field.lean ====
section
/-! SUPPORT. Arithmetic in Fp: p is prime (by Pratt certificates), each field operation of the FAU is the
operation of the field `ZMod p`, its result is canonical, and INV gives the inverse. -/

namespace Sys2Proof.Machine

/-! ## Powers -/

theorem powMod_mod (m n : Nat) : ∀ a e acc, e < 2 ^ n →
    powMod m n a e acc % m = acc * a ^ e % m := by
  induction n with
  | zero =>
    intro a e acc h
    obtain rfl : e = 0 := by omega
    simp [powMod]
  | succ n ih =>
    intro a e acc h
    have hp : ∀ c, c * (a * a % m) ^ (e / 2) % m = c * a ^ (2 * (e / 2)) % m := by
      intro c
      rw [pow_mul, Nat.mul_mod, Nat.pow_mod, Nat.mod_mod, ← Nat.pow_mod, ← Nat.mul_mod, pow_two]
    rw [powMod, ih _ _ _ (by rw [pow_succ] at h; omega), hp]
    rcases Nat.mod_two_eq_zero_or_one e with h0 | h1
    · rw [if_neg (by omega), show 2 * (e / 2) = e by omega]
    · rw [if_pos h1, Nat.mul_mod, Nat.mod_mod, ← Nat.mul_mod, mul_assoc, ← pow_succ',
        show 2 * (e / 2) + 1 = e by omega]

/-! ## Primality -/

/-- Lucas' criterion with the powers computed by `powMod` and the prime factors of p − 1 listed. -/
theorem prime_of_certificate (p a n : Nat) (factors : List Nat) (hprime : ∀ q ∈ factors, q.Prime)
    (hprod : factors.prod = p - 1) (hn : p - 1 < 2 ^ n) (h1 : 1 < p)
    (hone : powMod p n a (p - 1) 1 % p = 1)
    (hne : ∀ q ∈ factors, powMod p n a ((p - 1) / q) 1 % p ≠ 1) : p.Prime := by
  have cast : ∀ e, e ≤ p - 1 → ((a : ZMod p) ^ e = 1 ↔ powMod p n a e 1 % p = 1) := by
    intro e he
    rw [powMod_mod p n a e 1 (by omega), one_mul, ← Nat.cast_pow, ← Nat.cast_one,
      ZMod.natCast_eq_natCast_iff, Nat.ModEq, Nat.mod_eq_of_lt h1]
  refine lucas_primality p a ((cast _ le_rfl).2 hone) fun q hq hd => ?_
  rw [Ne, cast _ (Nat.div_le_self _ _)]
  rw [← hprod] at hd
  obtain ⟨r, hr, hqr⟩ := (Prime.dvd_prod_iff hq.prime).1 hd
  rw [(Nat.prime_dvd_prime_iff_eq hq (hprime r hr)).1 hqr]
  exact hne r hr

theorem prime_569003 : Nat.Prime 569003 := by norm_num
theorem prime_8574133 : Nat.Prime 8574133 := by norm_num
theorem prime_1923133 : Nat.Prime 1923133 := by norm_num

theorem prime_2773320623 : Nat.Prime 2773320623 :=
  prime_of_certificate _ 5 32 [2, 2437, 569003]
    (by simp only [List.mem_cons, List.not_mem_nil, or_false]; rintro q (rfl | rfl | rfl) <;> norm_num)
    (by norm_num) (by norm_num) (by norm_num) (by decide +kernel) (by decide +kernel)

theorem prime_72106336199 : Nat.Prime 72106336199 :=
  prime_of_certificate _ 7 37 [2, 13, 2773320623]
    (by
      simp only [List.mem_cons, List.not_mem_nil, or_false]
      rintro q (rfl | rfl | rfl)
      · norm_num
      · norm_num
      · exact prime_2773320623)
    (by norm_num) (by norm_num) (by norm_num) (by decide +kernel) (by decide +kernel)

theorem prime_1919519569386763 : Nat.Prime 1919519569386763 :=
  prime_of_certificate _ 2 51 [2, 3, 7, 19, 47, 47, 127, 8574133]
    (by
      simp only [List.mem_cons, List.not_mem_nil, or_false]
      rintro q (rfl | rfl | rfl | rfl | rfl | rfl | rfl | rfl)
      all_goals first | exact prime_8574133 | norm_num)
    (by norm_num) (by norm_num) (by norm_num) (by decide +kernel) (by decide +kernel)

theorem prime_31757755568855353 : Nat.Prime 31757755568855353 :=
  prime_of_certificate _ 10 55 [2, 2, 2, 3, 31, 107, 223, 4153, 430751]
    (by
      simp only [List.mem_cons, List.not_mem_nil, or_false]
      rintro q (rfl | rfl | rfl | rfl | rfl | rfl | rfl | rfl | rfl) <;> norm_num)
    (by norm_num) (by norm_num) (by norm_num) (by decide +kernel) (by decide +kernel)

theorem prime_75445702479781427272750846543864801 :
    Nat.Prime 75445702479781427272750846543864801 :=
  prime_of_certificate _ 7 116
    [2, 2, 2, 2, 2, 3, 3, 5, 5, 75707, 72106336199, 1919519569386763]
    (by
      simp only [List.mem_cons, List.not_mem_nil, or_false]
      rintro q (rfl | rfl | rfl | rfl | rfl | rfl | rfl | rfl | rfl | rfl | rfl | rfl)
      all_goals first
        | exact prime_72106336199
        | exact prime_1919519569386763
        | norm_num)
    (by norm_num) (by norm_num) (by norm_num) (by decide +kernel) (by decide +kernel)

/-- The large prime factor of p − 1. -/
theorem prime_largeFactor :
    Nat.Prime 74058212732561358302231226437062788676166966415465897661863160754340907 :=
  prime_of_certificate _ 2 236
    [2, 3, 353, 57467, 132049, 1923133, 31757755568855353, 75445702479781427272750846543864801]
    (by
      simp only [List.mem_cons, List.not_mem_nil, or_false]
      rintro q (rfl | rfl | rfl | rfl | rfl | rfl | rfl | rfl)
      all_goals first
        | exact prime_31757755568855353
        | exact prime_75445702479781427272750846543864801
        | norm_num)
    (by norm_num) (by norm_num) (by norm_num) (by decide +kernel) (by decide +kernel)

/-- p = 2^255 − 19 is prime. -/
theorem prime_fieldPrime : Nat.Prime Config.fieldPrime :=
  prime_of_certificate _ 2 255
    [2, 2, 3, 65147, 74058212732561358302231226437062788676166966415465897661863160754340907]
    (by
      simp only [List.mem_cons, List.not_mem_nil, or_false]
      rintro q (rfl | rfl | rfl | rfl | rfl)
      all_goals first | exact prime_largeFactor | norm_num)
    (by norm_num [Config.fieldPrime]) (by norm_num [Config.fieldPrime])
    (by norm_num [Config.fieldPrime]) (by decide +kernel) (by decide +kernel)

theorem fact_prime_fieldPrime : Fact (Nat.Prime Config.fieldPrime) := ⟨prime_fieldPrime⟩

theorem fieldPrime_pos : 0 < Config.fieldPrime := prime_fieldPrime.pos

theorem fieldPrime_lt : Config.fieldPrime < 2 ^ 255 := by norm_num [Config.fieldPrime]

/-! ## Canonical words and residues -/

@[simp] theorem toNat_canonical (n : Nat) : (canonical n).toNat = n % Config.fieldPrime := by
  have h1 := Nat.mod_lt n fieldPrime_pos
  have h2 := fieldPrime_lt
  rw [canonical, BitVec.toNat_ofNat, Nat.mod_eq_of_lt]
  exact h1.trans (h2.trans (by norm_num))

theorem canonical_lt (n : Nat) : (canonical n).toNat < Config.fieldPrime := by
  rw [toNat_canonical]; exact Nat.mod_lt _ fieldPrime_pos

theorem fe_lt (w : Word256) : fe w < Config.fieldPrime := Nat.mod_lt _ fieldPrime_pos

@[simp] theorem fe_canonical (n : Nat) : fe (canonical n) = n % Config.fieldPrime := by
  rw [fe, toNat_canonical, Nat.mod_mod]

theorem cast_mod_fieldPrime (n : Nat) : ((n % Config.fieldPrime : Nat) : Fp) = (n : Fp) :=
  ZMod.natCast_mod _ _

@[simp] theorem residue_canonical (n : Nat) : residue (canonical n) = (n : Fp) := by
  rw [residue, toNat_canonical, cast_mod_fieldPrime]

@[simp] theorem cast_fe (w : Word256) : ((fe w : Nat) : Fp) = residue w := cast_mod_fieldPrime _

theorem residue_eq_zero_iff (w : Word256) : residue w = 0 ↔ fe w = 0 := by
  rw [residue, ZMod.natCast_eq_zero_iff, fe, Nat.dvd_iff_mod_eq_zero]

theorem residue_eq_iff (v w : Word256) : residue v = residue w ↔ fe v = fe w := by
  rw [residue, residue, ZMod.natCast_eq_natCast_iff, fe, fe, Nat.ModEq]

/-- Two canonical words that denote the same field element are the same word. -/
theorem eq_of_residue_eq {v w : Word256} (hv : v.toNat < Config.fieldPrime)
    (hw : w.toNat < Config.fieldPrime) (h : residue v = residue w) : v = w := by
  rw [residue_eq_iff, fe, fe, Nat.mod_eq_of_lt hv, Nat.mod_eq_of_lt hw] at h
  exact BitVec.eq_of_toNat_eq h

/-! ## The operations -/

@[simp] theorem residue_fieldCopy (a : Word256) : residue (fieldCopy a) = residue a := by
  simp [fieldCopy]

@[simp] theorem residue_fieldSetui (i : Word32) : residue (fieldSetui i) = (i.toNat : Fp) := by
  simp [fieldSetui]

@[simp] theorem residue_fieldAdd (a b : Word256) : residue (fieldAdd a b) = residue a + residue b := by
  simp [fieldAdd]

@[simp] theorem residue_fieldSub (a b : Word256) : residue (fieldSub a b) = residue a - residue b := by
  rw [fieldSub, residue_canonical, Nat.cast_add, Nat.cast_sub (fe_lt b).le]
  simp [sub_eq_add_neg]

@[simp] theorem residue_fieldMul (a b : Word256) : residue (fieldMul a b) = residue a * residue b := by
  simp [fieldMul]

@[simp] theorem residue_fieldSqr (a : Word256) : residue (fieldSqr a) = residue a ^ 2 := by
  simp [fieldSqr, pow_two]

@[simp] theorem residue_fieldMului (a : Word256) (i : Word32) :
    residue (fieldMului a i) = residue a * (i.toNat : Fp) := by
  simp [fieldMului]

@[simp] theorem residue_oneWord : residue oneWord = 1 := by
  simp [residue, oneWord]

theorem fieldCopy_lt (a : Word256) : (fieldCopy a).toNat < Config.fieldPrime := canonical_lt _
theorem fieldAdd_lt (a b : Word256) : (fieldAdd a b).toNat < Config.fieldPrime := canonical_lt _
theorem fieldSub_lt (a b : Word256) : (fieldSub a b).toNat < Config.fieldPrime := canonical_lt _
theorem fieldMul_lt (a b : Word256) : (fieldMul a b).toNat < Config.fieldPrime := canonical_lt _
theorem fieldSqr_lt (a : Word256) : (fieldSqr a).toNat < Config.fieldPrime := canonical_lt _
theorem fieldMului_lt (a : Word256) (i : Word32) : (fieldMului a i).toNat < Config.fieldPrime :=
  canonical_lt _
theorem finv_lt (a : Word256) : (finv a).toNat < Config.fieldPrime := canonical_lt _

/-- A canonical word is its own copy. -/
theorem fieldCopy_of_lt {a : Word256} (h : a.toNat < Config.fieldPrime) : fieldCopy a = a :=
  eq_of_residue_eq (fieldCopy_lt a) h (residue_fieldCopy a)

/-- The inverse's residue is the (p−2)-th power. -/
theorem residue_finv_pow (a : Word256) :
    residue (finv a) = residue a ^ (Config.fieldPrime - 2) := by
  have h := powMod_mod Config.fieldPrime 255 (fe a) (Config.fieldPrime - 2) 1
    (by norm_num [Config.fieldPrime])
  rw [finv, residue_canonical, ← cast_mod_fieldPrime, h, cast_mod_fieldPrime]
  simp

/-- INV's result is the inverse in the field (R128). -/
theorem residue_mul_finv (a : Word256) (h : residue a ≠ 0) : residue a * residue (finv a) = 1 := by
  have : Fact (Nat.Prime Config.fieldPrime) := fact_prime_fieldPrime
  rw [residue_finv_pow, ← pow_succ',
    show Config.fieldPrime - 2 + 1 = Config.fieldPrime - 1 by norm_num [Config.fieldPrime]]
  exact ZMod.pow_card_sub_one_eq_one h

end Sys2Proof.Machine
end

