-- ==== Sys2Proof/Laws/Exec.lean ====
section
/-! SUPPORT. What `exec` can do: a command's meaning is a completion with its rule's writes, a field request's
a response; and the formulas of DBL and DIFFADD over Fp. -/

namespace Sys2Proof.Machine

/-- A command's meaning is the completion with the writes and the code of its rule (R99). -/
theorem exec_command {i : Instr} (h : isCommand i = true) (s : State) :
    exec i s = .next (s.complete (ruleWrites i s.engine.latch).1 (ruleWrites i s.engine.latch).2) := by
  cases i with
  | pdbl slot => cases slot <;> rfl
  | smul => rfl
  | dadd => rfl
  | lstep b => rfl
  | linit => rfl
  | affine => rfl
  | fauCopy | fauSetui | fauAdd | fauSub | fauMul | fauSqr | fauMului | fauInv | fauIszero | fauEq =>
    simp [isCommand] at h

/-- A field request's meaning is a response (R131). -/
theorem exec_fieldRequest {i : Instr} (h : isCommand i = false) (s : State) :
    ∃ v e, exec i s = .next (s.respond v e) := by
  cases i with
  | pdbl | smul | dadd | lstep | linit | affine => simp [isCommand] at h
  | fauCopy | fauSetui | fauAdd | fauSub | fauMul | fauSqr | fauMului | fauInv | fauIszero | fauEq =>
    exact ⟨_, _, rfl⟩

/-- What the command decoder reads is a command. -/
theorem isCommand_of_decodeCmd {w : Word32} {i : Instr} (h : decodeCmd w = .ok i) : isCommand i = true := by
  unfold decodeCmd at h
  simp only at h
  split at h
  · cases h
  · split at h
    · cases h
    · unfold decodeOpcode at h
      split at h <;> first | cases h; rfl | cases h

/-- What the field-request decoder reads is a field request. -/
theorem isCommand_of_decodeFau {r : FauReq} {i : Instr} (h : decodeFau r = .ok i) : isCommand i = false := by
  unfold decodeFau at h
  split at h <;> first | cases h; rfl | cases h

/-! ## The formulas over Fp -/

theorem residue_dbl_x (q : Point) :
    residue (dbl q).x = (residue q.x + residue q.z) ^ 2 * (residue q.x - residue q.z) ^ 2 := by
  simp [dbl]

theorem residue_a24 : ((Config.a24.toNat : Nat) : Fp) = 121666 := by
  have h : Config.a24.toNat = 121666 := rfl
  rw [h]; norm_num

theorem residue_dbl_z (q : Point) :
    residue (dbl q).z =
      ((residue q.x + residue q.z) ^ 2 - (residue q.x - residue q.z) ^ 2) *
        ((residue q.x - residue q.z) ^ 2 +
          121666 * ((residue q.x + residue q.z) ^ 2 - (residue q.x - residue q.z) ^ 2)) := by
  simp only [dbl, residue_fieldMul, residue_fieldSub, residue_fieldSqr, residue_fieldAdd,
    residue_fieldMului, residue_a24]
  ring

theorem residue_diffadd_x (q r : Point) (x1 : Word256) :
    residue (diffadd q r x1).x =
      4 * (residue q.x * residue r.x - residue q.z * residue r.z) ^ 2 := by
  simp only [diffadd, residue_fieldMul, residue_fieldSub, residue_fieldSqr, residue_fieldAdd]
  ring

theorem residue_diffadd_z (q r : Point) (x1 : Word256) :
    residue (diffadd q r x1).z =
      4 * residue x1 * (residue q.z * residue r.x - residue q.x * residue r.z) ^ 2 := by
  simp only [diffadd, residue_fieldMul, residue_fieldSub, residue_fieldSqr, residue_fieldAdd]
  ring

theorem dbl_canonical (q : Point) : CanonicalPoint (dbl q) := ⟨fieldMul_lt _ _, fieldMul_lt _ _⟩

theorem diffadd_canonical (q r : Point) (x1 : Word256) : CanonicalPoint (diffadd q r x1) :=
  ⟨fieldSqr_lt _, fieldMul_lt _ _⟩

/-- Canonical points with the same residues are the same words. -/
theorem point_eq_of_residue {q r : Point} (hq : CanonicalPoint q) (hr : CanonicalPoint r)
    (hx : residue q.x = residue r.x) (hz : residue q.z = residue r.z) : q = r := by
  cases q; cases r
  exact congrArg₂ Point.mk (eq_of_residue_eq hq.1 hr.1 hx) (eq_of_residue_eq hq.2 hr.2 hz)

/-- DBL sees its operands modulo p only (R23). -/
theorem dbl_congr {q r : Point} (hx : residue q.x = residue r.x) (hz : residue q.z = residue r.z) :
    dbl q = dbl r :=
  point_eq_of_residue (dbl_canonical q) (dbl_canonical r)
    (by rw [residue_dbl_x, residue_dbl_x, hx, hz]) (by rw [residue_dbl_z, residue_dbl_z, hx, hz])

/-- DIFFADD sees its operands modulo p only (R23). -/
theorem diffadd_congr {q q' r r' : Point} {x x' : Word256} (hqx : residue q.x = residue q'.x)
    (hqz : residue q.z = residue q'.z) (hrx : residue r.x = residue r'.x)
    (hrz : residue r.z = residue r'.z) (h : residue x = residue x') :
    diffadd q r x = diffadd q' r' x' :=
  point_eq_of_residue (diffadd_canonical _ _ _) (diffadd_canonical _ _ _)
    (by rw [residue_diffadd_x, residue_diffadd_x, hqx, hqz, hrx, hrz])
    (by rw [residue_diffadd_z, residue_diffadd_z, hqx, hqz, hrx, hrz, h])

/-! ## Bit length -/

/-- What `bitLenBelow` finds: no set bit from there up, and a set bit just below. -/
theorem bitLenBelow_spec (k : Word256) (n : Nat) :
    bitLenBelow k n ≤ n ∧ (∀ m, bitLenBelow k n ≤ m → m < n → k.getLsbD m = false) ∧
      (bitLenBelow k n ≠ 0 → k.getLsbD (bitLenBelow k n - 1) = true) := by
  induction n with
  | zero => simp [bitLenBelow]
  | succ n ih =>
    rw [bitLenBelow]
    split
    · rename_i h
      exact ⟨le_rfl, fun m h1 h2 => by omega, fun _ => by simpa using h⟩
    · rename_i h
      refine ⟨by omega, fun m h1 h2 => ?_, ih.2.2⟩
      rcases Nat.lt_succ_iff_lt_or_eq.1 h2 with h3 | h3
      · exact ih.2.1 m h1 h3
      · subst h3; simpa using h

/-- k < 2^bitlen(k) (R10, R172). -/
theorem lt_two_pow_bitLen (k : Word256) : k.toNat < 2 ^ bitLen k := by
  have h := bitLenBelow_spec k 256
  have high : ∀ j, 256 ≤ j → k.toNat.testBit j = false := fun j hj =>
    Nat.testBit_lt_two_pow (lt_of_lt_of_le k.isLt (Nat.pow_le_pow_right (by norm_num) hj))
  have above : ∀ j, bitLen k ≤ j → k.toNat.testBit j = false := by
    intro j hj
    by_cases hj' : j < 256
    · exact h.2.1 j hj hj'
    · exact high j (by omega)
  exact Nat.lt_of_testBit (bitLen k) (above _ le_rfl) Nat.testBit_two_pow_self fun j hj => by
    rw [Nat.testBit_two_pow_of_ne (by omega), above j (by omega)]

/-- 2^(bitlen(k)−1) ≤ k for k ≠ 0 (R172). -/
theorem two_pow_le_of_ne_zero {k : Word256} (hk : k ≠ 0) : 0 < bitLen k ∧ 2 ^ (bitLen k - 1) ≤ k.toNat := by
  have h := bitLenBelow_spec k 256
  have h0 : bitLen k ≠ 0 := by
    intro h0
    have hlt := lt_two_pow_bitLen k
    rw [h0] at hlt
    exact hk (BitVec.eq_of_toNat_eq (by simp at hlt ⊢; omega))
  exact ⟨by omega, Nat.ge_two_pow_of_testBit (h.2.2 h0)⟩

end Sys2Proof.Machine
end

