-- ==== Sys2Proof/Laws/Curve.lean ====
section
/-! SUPPORT. Facts about Fp and the curve: small numbers are not zero in Fp, the curve's equation, DBL's Z over
the curve's coefficient, and the x-coordinate of a sum against that of the difference. -/

namespace Sys2Proof.Machine

theorem natCast_ne_zero {n : Nat} (h1 : 0 < n) (h2 : n < Config.fieldPrime) : ((n : Nat) : Fp) ≠ 0 := by
  rw [Ne, ZMod.natCast_eq_zero_iff]
  exact fun h => absurd (Nat.le_of_dvd h1 h) (by omega)

theorem two_ne_zero_fp : (2 : Fp) ≠ 0 := by
  have := natCast_ne_zero (n := 2) (by norm_num) (by norm_num [Config.fieldPrime])
  exact_mod_cast this

/-- a24 = (A+2)/4 in Fp (R6). -/
theorem a24_cast : (121666 : Fp) * 4 = (Config.montgomeryA : Fp) + 2 := by
  rw [Config.montgomeryA]; norm_num

/-- A² ≠ 4: the curve has no cusp or node. -/
theorem montgomeryA_sq_ne : (Config.montgomeryA : Fp) ^ 2 - 4 ≠ 0 := by
  have := natCast_ne_zero (n := 486662 ^ 2 - 4) (by norm_num) (by norm_num [Config.fieldPrime])
  have h : ((486662 ^ 2 - 4 : Nat) : Fp) = (Config.montgomeryA : Fp) ^ 2 - 4 := by
    rw [Nat.cast_sub (by norm_num)]; push_cast; rw [Config.montgomeryA]; norm_num
  rwa [h] at this

/-- DBL's Z is 4XZ(X² + AXZ + Z²). -/
theorem residue_dbl_z_curve (q : Point) :
    residue (dbl q).z =
      4 * residue q.x * residue q.z *
        (residue q.x ^ 2 + (Config.montgomeryA : Fp) * residue q.x * residue q.z + residue q.z ^ 2) := by
  rw [residue_dbl_z]
  linear_combination (4 * (residue q.x) ^ 2 * (residue q.z) ^ 2) * a24_cast

/-- The equation of a curve point (R6). -/
theorem curve_eq {x y : Fp} (h : curve.Nonsingular x y) :
    y ^ 2 = x ^ 3 + (Config.montgomeryA : Fp) * x ^ 2 + x := by
  have := (WeierstrassCurve.Affine.equation_iff x y).1 h.1
  simp only [zero_mul, add_zero, one_mul] at this
  exact this

/-- x(Q+R)·x(R−Q)·(x(Q)−x(R))² = (x(Q)x(R)−1)² for points of different x-coordinates. -/
theorem add_x_mul_sub_x [Fact (Nat.Prime Config.fieldPrime)] {x1 y1 x2 y2 x4 y4 : Fp}
    (h1 : curve.Nonsingular x1 y1) (h2 : curve.Nonsingular x2 y2) (h4 : curve.Nonsingular x4 y4) (hx : x1 ≠ x2)
    (hd : (.some x2 y2 h2 : curve.Point) - .some x1 y1 h1 = .some x4 y4 h4) :
    ∃ x3 y3 h3, (.some x1 y1 h1 : curve.Point) + .some x2 y2 h2 = .some x3 y3 h3 ∧
      x3 * x4 * (x1 - x2) ^ 2 = (x1 * x2 - 1) ^ 2 := by
  have e1 := curve_eq h1
  have e2 := curve_eq h2
  refine ⟨_, _, _, WeierstrassCurve.Affine.Point.add_of_X_ne hx, ?_⟩
  rw [sub_eq_add_neg, WeierstrassCurve.Affine.Point.neg_some,
    WeierstrassCurve.Affine.Point.add_of_X_ne (Ne.symm hx)] at hd
  injection hd with hx4 hy4
  rw [← hx4]
  rw [WeierstrassCurve.Affine.slope_of_X_ne hx, WeierstrassCurve.Affine.slope_of_X_ne (Ne.symm hx)]
  simp only [WeierstrassCurve.Affine.addX, WeierstrassCurve.Affine.negY, zero_mul, sub_zero, add_zero]
  have hx' : x1 - x2 ≠ 0 := sub_ne_zero.2 hx
  have hx'' : x2 - x1 ≠ 0 := sub_ne_zero.2 (Ne.symm hx)
  set A := (Config.montgomeryA : Fp)
  have s1 : ((y1 - y2) / (x1 - x2)) ^ 2 * (x1 - x2) ^ 2 = (y1 - y2) ^ 2 := by
    rw [div_pow]; exact div_mul_cancel₀ _ (pow_ne_zero _ hx')
  have s2 : ((y2 - -y1) / (x2 - x1)) ^ 2 * (x1 - x2) ^ 2 = (y1 + y2) ^ 2 := by
    rw [div_pow, show (x1 - x2) ^ 2 = (x2 - x1) ^ 2 by ring, show (y1 + y2) ^ 2 = (y2 - -y1) ^ 2 by ring]
    exact div_mul_cancel₀ _ (pow_ne_zero _ hx'')
  set L := ((y1 - y2) / (x1 - x2)) ^ 2
  set M := ((y2 - -y1) / (x2 - x1)) ^ 2
  apply mul_right_cancel₀ (pow_ne_zero 2 hx')
  have k : ((L - A - x1 - x2) * (M - A - x2 - x1) * (x1 - x2) ^ 2) * (x1 - x2) ^ 2 =
      ((y1 - y2) ^ 2 - (A + x1 + x2) * (x1 - x2) ^ 2) *
        ((y1 + y2) ^ 2 - (A + x1 + x2) * (x1 - x2) ^ 2) := by
    linear_combination ((M - A - x2 - x1) * (x1 - x2) ^ 2) * s1 +
      ((y1 - y2) ^ 2 - (A + x1 + x2) * (x1 - x2) ^ 2) * s2
  rw [k]
  have k2 : ((y1 - y2) ^ 2 - (A + x1 + x2) * (x1 - x2) ^ 2) *
        ((y1 + y2) ^ 2 - (A + x1 + x2) * (x1 - x2) ^ 2) =
      (y1 ^ 2 - y2 ^ 2) ^ 2 - 2 * (A + x1 + x2) * (x1 - x2) ^ 2 * (y1 ^ 2 + y2 ^ 2) +
        (A + x1 + x2) ^ 2 * (x1 - x2) ^ 4 := by ring
  rw [k2, e1, e2]
  ring

end Sys2Proof.Machine
end

