-- ==== Sys2Proof/Laws/Step.lean ====
section
/-! SUPPORT. What an edge can do: one inversion lemma for the FAU and the engine, one for the whole step; and
what the FAU answers to an operation of the engine's sequence. -/

namespace Sys2Proof.Machine

/-- The operation a request of the engine stands for, and its answer (R121 to R128, R137). -/
theorem exec_request (u : Uop) (scratch : List Word256) :
    ∃ i, decodeFau (u.request scratch) = .ok i ∧ i.blockPresents = true ∧
      ∀ s : State, exec i s = .next (s.respond (uopValue u scratch).1 (uopValue u scratch).2) := by
  obtain ⟨op, a, b⟩ := u
  cases op <;> exact ⟨_, rfl, rfl, fun _ => rfl⟩

/-- The engine presents only the operations R137 allows. -/
theorem presentable_request (u : Uop) (scratch : List Word256) :
    presentable (u.request scratch) = true := by
  obtain ⟨i, hd, hp, -⟩ := exec_request u scratch
  simp [presentable, hd, hp]

/-- The engine is at its completion edge. -/
theorem commitDue_iff (s : State) :
    s.commitDue = true ↔ s.status.busy = true ∧ s.fau.txn = .idle ∧ s.engine.settle.todo = [] ∧
      s.engine.settle.stage = .commit ∧ s.engine.settle.pause = 0 := by
  simp [State.commitDue, Engine.atEnd, and_assoc]

/-! ## The engine's moves -/

/-- What a move that takes no edge can be. -/
theorem Engine.freeMove_cases {e f : Engine} (h : e.freeMove = some f) :
    e.pause = 0 ∧
      ((∃ u rest, e.todo = u :: rest ∧
          f = (e.take ⟨(uopValue u e.scratch).1, (uopValue u e.scratch).2⟩).rest) ∨
        (e.todo = [] ∧ e.stage = .init ∧ f = e.enterLadder.rest) ∨
        (e.todo = [] ∧ e.stage = .ladder ∧ f = e.closeIteration.rest)) := by
  unfold Engine.freeMove at h
  split at h
  · cases h
  · rename_i hp
    refine ⟨by simpa using hp, ?_⟩
    split at h
    · rename_i u rest hu
      split at h
      · cases h
      · cases h; exact .inl ⟨u, rest, hu, rfl⟩
    · rename_i ht
      split at h
      · rename_i hs; cases h; exact .inr (.inl ⟨ht, hs, rfl⟩)
      · rename_i hs; cases h; exact .inr (.inr ⟨ht, hs, rfl⟩)
      · cases h

/-- What every move keeps, the settled engine has. -/
theorem Engine.settle_induct {P : Engine → Prop} (move : ∀ e f, P e → e.freeMove = some f → P f) {e : Engine}
    (h : P e) : P e.settle := by
  have : ∀ n e, P e → P (Engine.settleFor n e) := by
    intro n
    induction n with
    | zero => exact fun e h => h
    | succ n ih =>
      intro e h
      unfold Engine.settleFor
      split
      · exact ih _ (move _ _ h ‹_›)
      · exact h
  exact this _ _ h

theorem Engine.freeMove_latch {e f : Engine} (h : e.freeMove = some f) : f.latch = e.latch := by
  rcases (Engine.freeMove_cases h).2 with ⟨u, rest, -, rfl⟩ | ⟨-, -, rfl⟩ | ⟨-, -, rfl⟩
  · rfl
  · rfl
  · simp only [Engine.rest_latch, Engine.closeIteration]
    split <;> rfl

/-- The engine's moves never touch the captured operands (R69, R97). -/
@[simp] theorem Engine.settle_latch (e : Engine) : e.settle.latch = e.latch :=
  Engine.settle_induct (P := fun f => f.latch = e.latch) (fun _ _ h hm => (Engine.freeMove_latch hm).trans h) rfl

/-- At the end of its sequence the engine has no move. -/
theorem Engine.settle_of_atEnd {e : Engine} (h : e.todo = []) (hs : e.stage = .commit) : e.settle = e := by
  simp [Engine.settle, Engine.movesLeft, h, hs, Engine.settleFor]

/-- Everything the FAU and the engine can do at an edge (R98, R99, R131). -/
theorem engineEdge_cases {s t : State} (h : engineEdge s = .next t) :
    (∃ r n, s.fau.txn = .presented r (n + 1) ∧ t = s.clearRsp.setTxn (.presented r n)) ∨
    (∃ r n, s.fau.txn = .presented r 0 ∧ t = s.clearRsp.setTxn (.outstanding r n)) ∨
    (∃ r n, s.fau.txn = .outstanding r (n + 1) ∧ t = s.clearRsp.setTxn (.outstanding r n)) ∨
    (∃ r i v e, s.fau.txn = .outstanding r 0 ∧ decodeFau r = .ok i ∧
      exec i s.clearRsp = .next (s.clearRsp.respond v e) ∧ t = (s.clearRsp.respond v e).absorb) ∨
    (s.commitDue = true ∧ ∃ i, decodeCmd s.engine.latch.word = .ok i ∧
      t = s.settled.complete (ruleWrites i s.engine.latch).1 (ruleWrites i s.engine.latch).2) ∨
    (s.fau.txn = .idle ∧ s.commitDue = false ∧ s.status.busy = true ∧ t = s.clearRsp.engineTurn) ∨
    (s.fau.txn = .idle ∧ s.status.busy = false ∧ t = s.clearRsp) := by
  unfold engineEdge at h
  split at h
  · rename_i r n hr
    cases h; exact .inl ⟨r, n, hr, rfl⟩
  · rename_i r hr
    cases h; exact .inr (.inl ⟨r, _, hr, rfl⟩)
  · rename_i r n hr
    cases h; exact .inr (.inr (.inl ⟨r, n, hr, rfl⟩))
  · rename_i r hr
    split at h
    · cases h
    · rename_i i hi
      obtain ⟨v, e, he⟩ := exec_fieldRequest (isCommand_of_decodeFau hi) s.clearRsp
      rw [he, andThen_next] at h
      cases h
      exact .inr (.inr (.inr (.inl ⟨r, i, v, e, hr, hi, he, rfl⟩)))
  · rename_i hr
    split at h
    · rename_i hc
      split at h
      · cases h
      · rename_i i hi
        rw [exec_command (isCommand_of_decodeCmd hi)] at h
        simp only [State.settled_engine, Engine.settle_latch] at h
        cases h
        exact .inr (.inr (.inr (.inr (.inl ⟨hc, i, hi, rfl⟩))))
    · rename_i hc
      split at h
      · rename_i hb
        cases h
        exact .inr (.inr (.inr (.inr (.inr (.inl ⟨hr, by simpa using hc, hb, rfl⟩)))))
      · rename_i hb
        cases h
        exact .inr (.inr (.inr (.inr (.inr (.inr ⟨hr, by simpa using hb, rfl⟩)))))

/-- What the engine's own step can be: moves and an edge of waiting, or moves and the next request presented. -/
theorem engineTurn_cases (s : State) :
    (∃ n, s.engine.settle.pause = n + 1 ∧ s.engineTurn = s.setEngine { s.engine.settle with pause := n }) ∨
    (∃ u rest, s.engine.settle.pause = 0 ∧ s.engine.settle.todo = u :: rest ∧
      s.engineTurn = (s.setEngine s.engine.settle).setTxn
        (.presented (u.request s.engine.settle.scratch) (Config.fauWait s.edge))) ∨
    (s.engine.settle.pause = 0 ∧ s.engine.settle.todo = [] ∧ s.engineTurn = s.setEngine s.engine.settle) := by
  unfold State.engineTurn
  cases hp : s.engine.settle.pause with
  | succ n => exact .inl ⟨n, rfl, by simp [hp]⟩
  | zero =>
    cases ht : s.engine.settle.todo with
    | cons u rest => exact .inr (.inl ⟨u, rest, rfl, rfl, by simp [hp, ht]⟩)
    | nil => exact .inr (.inr ⟨rfl, rfl, by simp [hp, ht]⟩)

/-- The engine's own step touches the engine and the FAU port only. -/
theorem engineTurn_keeps (s : State) :
    s.engineTurn.regs = s.regs ∧ s.engineTurn.status = s.status ∧ s.engineTurn.env = s.env ∧
      s.engineTurn.edge = s.edge ∧ s.engineTurn.powerLost = s.powerLost ∧
      s.engineTurn.engine.latch = s.engine.latch := by
  rcases engineTurn_cases s with ⟨n, -, h⟩ | ⟨u, rest, -, -, h⟩ | ⟨-, -, h⟩ <;> rw [h] <;>
    exact ⟨rfl, rfl, rfl, rfl, rfl, Engine.settle_latch _⟩

/-- Taking a response touches the engine only, and never its latch. -/
theorem absorb_keeps (s : State) :
    s.absorb.regs = s.regs ∧ s.absorb.status = s.status ∧ s.absorb.env = s.env ∧
      s.absorb.edge = s.edge ∧ s.absorb.powerLost = s.powerLost ∧ s.absorb.fau = s.fau ∧
      s.absorb.engine.latch = s.engine.latch := by
  unfold State.absorb
  split <;> exact ⟨rfl, rfl, rfl, rfl, rfl, rfl, rfl⟩

/-- The FAU and the engine leave the block's surroundings and the latch alone (R69). -/
theorem engineEdge_keeps {s t : State} (h : engineEdge s = .next t) :
    t.env = s.env ∧ t.edge = s.edge ∧ t.powerLost = s.powerLost ∧ t.engine.latch = s.engine.latch := by
  rcases engineEdge_cases h with ⟨r, n, -, rfl⟩ | ⟨r, n, -, rfl⟩ | ⟨r, n, -, rfl⟩ |
    ⟨r, i, v, e, -, -, -, rfl⟩ | ⟨-, i, -, rfl⟩ | ⟨-, -, -, rfl⟩ | ⟨-, -, rfl⟩
  · exact ⟨rfl, rfl, rfl, rfl⟩
  · exact ⟨rfl, rfl, rfl, rfl⟩
  · exact ⟨rfl, rfl, rfl, rfl⟩
  · obtain ⟨-, -, h3, h4, h5, -, h7⟩ := absorb_keeps (s.clearRsp.respond v e)
    exact ⟨h3, h4, h5, h7⟩
  · exact ⟨rfl, rfl, rfl, Engine.settle_latch _⟩
  · obtain ⟨-, -, h3, h4, h5, h6⟩ := engineTurn_keeps s.clearRsp
    exact ⟨h3, h4, h5, h6⟩
  · exact ⟨rfl, rfl, rfl, rfl⟩

/-- Everything a step can do (R62, R74, R219, R230). -/
theorem step_cases {s t : State} (h : step s = .next t) :
    (∃ d rest, s.env.inputs = .rstLow d :: rest ∧ t = s.resetEdge d rest) ∨
    (∃ rest, s.env.inputs = .clockStop :: rest ∧ t = s.clockStopEdge rest) ∨
    (s.powerLost = true ∧ benign s.nextInput = true ∧ t = s.hostAct.tick) ∨
    (s.powerLost = false ∧ benign s.nextInput = true ∧ ∃ u, engineEdge s = .next u ∧ t = u.hostAct.tick) := by
  have run : benign s.nextInput = true → runEdge s = .next t →
      (s.powerLost = true ∧ benign s.nextInput = true ∧ t = s.hostAct.tick) ∨
      (s.powerLost = false ∧ benign s.nextInput = true ∧ ∃ u, engineEdge s = .next u ∧ t = u.hostAct.tick) := by
    intro hb hr
    unfold runEdge at hr
    split at hr
    · rename_i hp; cases hr; exact .inl ⟨hp, hb, rfl⟩
    · rename_i hp
      obtain ⟨u, hu, ht⟩ := andThen_eq_next hr
      cases ht
      exact .inr ⟨by simpa using hp, hb, u, hu, rfl⟩
  unfold step clockEdge at h
  split at h
  · rename_i d rest hi; cases h; exact .inl ⟨d, rest, hi, rfl⟩
  · rename_i rest hi; cases h; exact .inr (.inl ⟨rest, hi, rfl⟩)
  · cases h
  · rename_i h1 h2 h3
    refine .inr (.inr (run ?_ h))
    unfold State.nextInput
    cases hi : s.env.inputs with
    | nil => rfl
    | cons inp rest =>
      cases inp with
      | rstLow d => exact absurd hi (h1 d rest)
      | clockStop => exact absurd hi (h2 rest)
      | strayFauResponse => exact absurd hi (h3 rest)
      | quiet | wr | rd | rdEq | poll => rfl

/-- A step with nothing but bus transfers outside runs the FAU and the engine, then the host. -/
theorem step_of_benign {s : State} (hp : s.powerLost = false) (hb : benign s.nextInput = true) :
    step s = andThen (engineEdge s) fun u => .next u.hostAct.tick := by
  unfold step clockEdge State.nextInput at *
  split
  · rename_i h; simp [h, benign] at hb
  · rename_i h; simp [h, benign] at hb
  · rename_i h; simp [h, benign] at hb
  · simp [runEdge, hp]

end Sys2Proof.Machine
end

