-- ==== Sys2Proof/Laws/Engine.lean ====
section
/-! SUPPORT. What the engine's sequences of R138 compute: one lemma per sequence, saying where its results stand
in the scratch; and the classes of scalars SMUL tells apart (R173, R183). -/

namespace Sys2Proof.Machine

/-- A sequence without INV runs through, and what follows it goes on from its scratch. -/
theorem runSeq_append (sc : List Word256) (z : Bool) (l m : List Uop) (h : ∀ u ∈ l, u.op ≠ .inv) :
    runSeq sc z (l ++ m) = runSeq (runSeq sc z l).1 z m ∧ (runSeq sc z l).2 = z := by
  induction l generalizing sc with
  | nil => exact ⟨rfl, rfl⟩
  | cons u l ih =>
    have hu : ∀ sc, (uopValue u sc).2 = false := by
      have := h u (by simp)
      intro sc
      unfold uopValue
      split <;> first | rfl | (rename_i e; exact absurd e this)
    simp only [List.cons_append, runSeq, hu, Bool.or_false]
    exact ih _ fun v hv => h v (by simp [hv])

/-- The doubling of the point at places 0 and 1 (R138, R140). -/
theorem runSeq_doubling (q : Point) :
    (runSeq [q.x, q.z] false (doublingSeq 0 1 2)).2 = false ∧
      (⟨place (runSeq [q.x, q.z] false (doublingSeq 0 1 2)).1 6,
        place (runSeq [q.x, q.z] false (doublingSeq 0 1 2)).1 10⟩ : Point) = dbl q := by
  simp [runSeq, doublingSeq, doublingTail, uopValue, place, dbl]

/-- The differential addition (R138, R150). -/
theorem runSeq_diffadd (q r : Point) (x1 : Word256) :
    (runSeq [q.x, q.z, r.x, r.z, x1] false diffaddSeq).2 = false ∧
      (⟨place (runSeq [q.x, q.z, r.x, r.z, x1] false diffaddSeq).1 13,
        place (runSeq [q.x, q.z, r.x, r.z, x1] false diffaddSeq).1 15⟩ : Point) = diffadd q r x1 := by
  simp [runSeq, diffaddSeq, uopValue, place, diffadd]

/-- The combined step (R138, R153): its pair, swapped back by the bit, is LADDERSTEP's, and x1 stays at place 4. -/
theorem runSeq_step (pm pp : Point) (x1 : Word256) (b z : Bool) :
    (runSeq (stepScratch pm pp x1 b) z stepSeq).2 = z ∧
      place (runSeq (stepScratch pm pp x1 b) z stepSeq).1 4 = x1 ∧
      cswap b
          ⟨place (runSeq (stepScratch pm pp x1 b) z stepSeq).1 18,
            place (runSeq (stepScratch pm pp x1 b) z stepSeq).1 22⟩
          ⟨place (runSeq (stepScratch pm pp x1 b) z stepSeq).1 13,
            place (runSeq (stepScratch pm pp x1 b) z stepSeq).1 15⟩ =
        ladderStep pm pp x1 b := by
  have key : ∀ u v : Point,
      (runSeq [u.x, u.z, v.x, v.z, x1] z stepSeq).2 = z ∧
        place (runSeq [u.x, u.z, v.x, v.z, x1] z stepSeq).1 4 = x1 ∧
        (⟨place (runSeq [u.x, u.z, v.x, v.z, x1] z stepSeq).1 18,
          place (runSeq [u.x, u.z, v.x, v.z, x1] z stepSeq).1 22⟩ : Point) = dbl u ∧
        (⟨place (runSeq [u.x, u.z, v.x, v.z, x1] z stepSeq).1 13,
          place (runSeq [u.x, u.z, v.x, v.z, x1] z stepSeq).1 15⟩ : Point) = diffadd u v x1 := by
    intro u v
    simp [runSeq, stepSeq, diffaddSeq, doublingTail, uopValue, place, dbl, diffadd]
  obtain ⟨h1, h2, h3, h4⟩ := key (cswap b pm pp).1 (cswap b pm pp).2
  refine ⟨h1, h2, ?_⟩
  unfold stepScratch ladderStep
  simp only
  rw [h3, h4]

/-- The ladder's first pair (R170, R179). -/
theorem runSeq_init (xb : Word256) :
    (runSeq [xb, oneWord] false initSeq).2 = false ∧
      place (runSeq [xb, oneWord] false initSeq).1 2 = fieldCopy xb ∧
      place (runSeq [xb, oneWord] false initSeq).1 1 = oneWord ∧
      (⟨place (runSeq [xb, oneWord] false initSeq).1 7,
        place (runSeq [xb, oneWord] false initSeq).1 11⟩ : Point) = dbl (trivialPoint xb) := by
  simp [runSeq, initSeq, doublingSeq, doublingTail, uopValue, place, dbl, trivialPoint]

/-- TOAFFINE of the point at places `x` and `z` (R178, R182): what the engine writes from `fau_err` and the last
place is TOAFFINE's word and code. -/
theorem runSeq_affine (sc : List Word256) {x z : Nat} (hx : x < sc.length) :
    (if (runSeq sc false (affineSeq x z sc.length)).2 then ([(WideReg.resx, (0 : Word256))], codeInvZero)
      else ([(.resx, place (runSeq sc false (affineSeq x z sc.length)).1 (sc.length + 1))], codeOk)) =
      ([(WideReg.resx, (toAffine ⟨place sc x, place sc z⟩).1)], (toAffine ⟨place sc x, place sc z⟩).2) := by
  unfold toAffine
  by_cases h : fe (place sc z) = 0
  · simp [runSeq, affineSeq, h, uopValue, fieldInv]
  · have e1 : ∀ w, place (sc ++ [w]) x = place sc x := by
      intro w; simp [place, List.getElem?_append, hx]
    have e2 : ∀ w, place (sc ++ [w]) sc.length = w := by intro w; simp [place]
    have e3 : ∀ w v, place (sc ++ [w, v]) (sc.length + 1) = v := by intro w v; simp [place]
    simp [runSeq, affineSeq, h, uopValue, fieldInv, e1, e2, e3]

/-! ## The engine's moves -/

/-- Only the inverse of zero is an error, and its result word is 0 (R128). -/
theorem uopValue_kept (u : Uop) (sc : List Word256) :
    (if (uopValue u sc).2 then 0 else (uopValue u sc).1) = (uopValue u sc).1 := by
  obtain ⟨op, a, b⟩ := u
  cases op with
  | inv => by_cases h : fe (place sc a) = 0 <;> simp [uopValue, fieldInv, h]
  | copy | add | sub | mul | sqr | mului => rfl

/-- An iteration's end leaves one iteration's moves fewer, or the conversion's two. -/
theorem Engine.closeIteration_movesLeft (e : Engine) :
    e.closeIteration.movesLeft < 19 * e.bitIndex.toNat + 3 := by
  unfold Engine.closeIteration Engine.movesLeft
  split
  · simp [affineSeq]
  · rename_i hb
    have hpos : 0 < e.bitIndex.toNat :=
      Nat.pos_of_ne_zero fun h => hb (BitVec.eq_of_toNat_eq (by simpa using h))
    have hsub : (e.bitIndex - 1).toNat = e.bitIndex.toNat - 1 := by
      have := e.bitIndex.isLt
      rw [BitVec.toNat_sub]
      simp; omega
    have hl : stepSeq.length = 18 := rfl
    simp only [Engine.loadIteration_todo, Engine.loadIteration_stage, Engine.loadIteration_bitIndex, hl, hsub]
    omega

/-- Every move leaves fewer. -/
theorem Engine.freeMove_movesLeft {e f : Engine} (h : e.freeMove = some f) : f.movesLeft < e.movesLeft := by
  have hr : ∀ g : Engine, g.rest.movesLeft = g.movesLeft := fun _ => rfl
  rcases (Engine.freeMove_cases h).2 with ⟨u, rest, hu, rfl⟩ | ⟨ht, hs, rfl⟩ | ⟨ht, hs, rfl⟩ <;> rw [hr]
  · simp [Engine.movesLeft, hu]
  · have := (BitVec.ofNat 9 (e.latch.ladderLength - 2)).isLt
    have hl : stepSeq.length = 18 := rfl
    simp only [Engine.movesLeft, Engine.enterLadder, Engine.loadIteration_todo, Engine.loadIteration_stage,
      Engine.loadIteration_bitIndex, hl, ht, hs, List.length_nil]
    omega
  · have := e.closeIteration_movesLeft
    simp only [Engine.movesLeft, ht, hs, List.length_nil] at this ⊢
    omega

/-- The settled engine has no move left. -/
theorem Engine.settle_freeMove (e : Engine) : e.settle.freeMove = none := by
  have key : ∀ n e, Engine.movesLeft e ≤ n → (Engine.settleFor n e).freeMove = none := by
    intro n
    induction n with
    | zero =>
      intro e h
      cases hf : e.freeMove with
      | none => simp [Engine.settleFor, hf]
      | some f => exact absurd (Engine.freeMove_movesLeft hf) (by omega)
    | succ n ih =>
      intro e h
      cases hf : e.freeMove with
      | none => simp [Engine.settleFor, hf]
      | some f =>
        have := Engine.freeMove_movesLeft hf
        simp only [Engine.settleFor, hf]
        exact ih f (by omega)
  exact key _ e le_rfl

/-- Settling leaves no more moves than there were. -/
theorem Engine.settle_movesLeft (e : Engine) : e.settle.movesLeft ≤ e.movesLeft :=
  Engine.settle_induct (P := fun f => f.movesLeft ≤ e.movesLeft)
    (fun _ _ h hm => (Engine.freeMove_movesLeft hm).le.trans h) le_rfl

/-- A waiting engine has no move. -/
theorem Engine.settle_of_pause {e : Engine} (h : e.pause ≠ 0) : e.settle = e := by
  have hf : e.freeMove = none := by simp [Engine.freeMove, h]
  unfold Engine.settle
  cases e.movesLeft <;> simp [Engine.settleFor, hf]

/-- No total latency is excluded (R7, R243): where no operation goes over the port and no gap stands before one, a
started engine has only the command's own share of the latency left, and that is any number. -/
theorem Engine.load_settle_of_free (hg : ∀ p, Config.gap p = 0) (ho : ∀ p, Config.onPort p = false) (e : Engine)
    (i : Instr) (l : Latch) :
    (e.load i l).settle.todo = [] ∧ (e.load i l).settle.stage = .commit ∧
      (e.load i l).settle.pause = Config.latency l.kind := by
  have hrest : ∀ f : Engine, (f.rest.todo ≠ [] ∨ f.rest.stage ≠ .commit → f.rest.pause = 0) ∧
      (f.rest.todo = [] → f.rest.stage = .commit → f.rest.pause = Config.latency f.latch.kind) := by
    intro f
    simp only [Engine.rest, hg]
    cases f.todo <;> cases f.stage <;> simp
  have hinv : ((e.load i l).settle.todo ≠ [] ∨ (e.load i l).settle.stage ≠ .commit → (e.load i l).settle.pause = 0) ∧
      ((e.load i l).settle.todo = [] → (e.load i l).settle.stage = .commit →
        (e.load i l).settle.pause = Config.latency (e.load i l).settle.latch.kind) :=
    Engine.settle_induct
      (P := fun f => (f.todo ≠ [] ∨ f.stage ≠ .commit → f.pause = 0) ∧
        (f.todo = [] → f.stage = .commit → f.pause = Config.latency f.latch.kind))
      (fun f f' _ hm => by
        rcases (Engine.freeMove_cases hm).2 with ⟨u, rest, -, rfl⟩ | ⟨-, -, rfl⟩ | ⟨-, -, rfl⟩ <;> exact hrest _)
      (hrest _)
  have hf := Engine.settle_freeMove (e.load i l)
  rw [Engine.settle_latch, Engine.load_latch] at hinv
  obtain ⟨h0, h1⟩ := hinv
  cases ht : (e.load i l).settle.todo with
  | cons u rest =>
    have hp := h0 (.inl (by simp [ht]))
    simp [Engine.freeMove, hp, ht, ho] at hf
  | nil =>
    cases hs : (e.load i l).settle.stage with
    | commit => exact ⟨rfl, rfl, h1 ht hs⟩
    | init | ladder =>
      have hp := h0 (.inr (by simp [hs]))
      simp [Engine.freeMove, hp, ht, hs] at hf

/-! ## The classes of scalars -/

/-- The four paths of SMUL (R173). -/
theorem smulClass_cases (k : Word256) :
    (k = 0 ∧ smulClass k = .zero) ∨ (k = 1 ∧ smulClass k = .one) ∨ (k = 2 ∧ smulClass k = .two) ∨
      (k ≠ 0 ∧ k ≠ 1 ∧ k ≠ 2 ∧ smulClass k = .bits (bitLen k)) := by
  unfold smulClass
  split
  · exact .inl ⟨‹_›, rfl⟩
  · split
    · exact .inr (.inl ⟨‹_›, rfl⟩)
    · split
      · exact .inr (.inr (.inl ⟨‹_›, rfl⟩))
      · exact .inr (.inr (.inr ⟨‹_›, ‹_›, ‹_›, rfl⟩))

/-- The general path's result (R179). -/
theorem smulResult_general {k : Word256} (h0 : k ≠ 0) (h1 : k ≠ 1) (h2 : k ≠ 2) (xb : Word256) :
    smulResult k xb = toAffine (ladder k xb).1 := by
  rw [smulResult, if_neg h0, if_neg h1, if_neg h2]

end Sys2Proof.Machine
end

