-- ==== Sys2Proof/Laws/PerInstr.lean ====
section
/-! SUPPORT. The family Carrier: how an instruction travels. A command travels as one command word whose bits
above B are 0 (R90, R94), a field request as request signals whose operation is not a reserved one (R130, R137). -/

namespace Sys2Proof.Laws.Carrier

def Statement (i : Instr) : Prop :=
  (Machine.isCommand i = true → ∃ w, encode i = .cmdw w ∧ w.toNat < 2 ^ 9) ∧
    (Machine.isCommand i = false → ∃ r, encode i = .fauReq r ∧ r.op.toNat ≤ 9)

/-- A command's statement, from its word. -/
theorem of_word {i : Instr} {w : Word32} (h : encode i = .cmdw w) (hc : Machine.isCommand i = true)
    (hw : w.toNat < 2 ^ 9) : Statement i :=
  ⟨fun _ => ⟨w, h, hw⟩, fun hf => (Bool.noConfusion (hc.symm.trans hf))⟩

/-- A field request's statement, from its signals. -/
theorem of_request {i : Instr} {r : FauReq} (h : encode i = .fauReq r) (hc : Machine.isCommand i = false)
    (hr : r.op.toNat ≤ 9) : Statement i :=
  ⟨fun hf => (Bool.noConfusion (hc.symm.trans hf)), fun _ => ⟨r, h, hr⟩⟩

theorem smul : Statement .smul := of_word rfl rfl (by decide)
theorem pdbl (slot : Slot) : Statement (.pdbl slot) := of_word rfl rfl (by cases slot <;> decide)
theorem dadd : Statement .dadd := of_word rfl rfl (by decide)
theorem lstep (bit : Bool) : Statement (.lstep bit) := of_word rfl rfl (by cases bit <;> decide)
theorem linit : Statement .linit := of_word rfl rfl (by decide)
theorem affine : Statement .affine := of_word rfl rfl (by decide)
theorem fauCopy (a : Word256) : Statement (.fauCopy a) := of_request rfl rfl (Nat.le_of_ble_eq_true rfl)
theorem fauSetui (imm : Word32) : Statement (.fauSetui imm) := of_request rfl rfl (Nat.le_of_ble_eq_true rfl)
theorem fauAdd (a b : Word256) : Statement (.fauAdd a b) := of_request rfl rfl (Nat.le_of_ble_eq_true rfl)
theorem fauSub (a b : Word256) : Statement (.fauSub a b) := of_request rfl rfl (Nat.le_of_ble_eq_true rfl)
theorem fauMul (a b : Word256) : Statement (.fauMul a b) := of_request rfl rfl (Nat.le_of_ble_eq_true rfl)
theorem fauSqr (a : Word256) : Statement (.fauSqr a) := of_request rfl rfl (Nat.le_of_ble_eq_true rfl)
theorem fauMului (a : Word256) (imm : Word32) : Statement (.fauMului a imm) := of_request rfl rfl (Nat.le_of_ble_eq_true rfl)
theorem fauInv (a : Word256) : Statement (.fauInv a) := of_request rfl rfl (Nat.le_of_ble_eq_true rfl)
theorem fauIszero (a : Word256) : Statement (.fauIszero a) := of_request rfl rfl (Nat.le_of_ble_eq_true rfl)
theorem fauEq (a b : Word256) : Statement (.fauEq a b) := of_request rfl rfl (Nat.le_of_ble_eq_true rfl)

end Sys2Proof.Laws.Carrier
end

