-- ==== Sys2Proof/Tests/Slice0.lean ====
section
/-! SUPPORT. The model's own tests. Expected values are the spec's: 30_encoding.md and 40_field_interface.md for
the words, 95_test_vectors.md for the results (the vector's name stands in each docstring). Last come the
witnesses: for every statement with premises, a concrete state and operands that meet them together. -/

namespace Sys2Proof.Tests

-- One theorem after another: in parallel, those that wait for the kernel hold a thread and its stack each.
set_option Elab.async false

open Sys2Proof.Machine

/-! ## WellFormed refuses, one ill-formed word per check (R103, R137) -/

/-- RSV1 ≠ 0 in bit 9 and in bit 31 (V-ENC-9, V-ENC-10). -/
theorem test_wf_high_reserved :
    (CmdFields.ofWord 0x00000204).wf = false ∧ (CmdFields.ofWord 0x00000204).highReservedClear = false ∧
      (CmdFields.ofWord 0x80000001).wf = false := by decide
/-- RSV0 ≠ 0 (V-ENC-8). -/
theorem test_wf_low_reserved :
    (CmdFields.ofWord 0x00000014).wf = false ∧ (CmdFields.ofWord 0x00000014).lowReservedClear = false := by
  decide
/-- OP = 0 and OP = 7 (V-ENC-3, V-ENC-4). -/
theorem test_wf_opcode :
    (CmdFields.ofWord 0).wf = false ∧ (CmdFields.ofWord 0).opKnown = false ∧
      (CmdFields.ofWord 7).wf = false := by decide
/-- B = 1 with SMUL, DADD, LINIT, AFFINE (V-ENC-6, V-ENC-7). -/
theorem test_wf_operand_bit :
    (CmdFields.ofWord 0x101).wf = false ∧ (CmdFields.ofWord 0x101).operandBitAllowed = false ∧
      (CmdFields.ofWord 0x103).wf = false ∧ (CmdFields.ofWord 0x105).wf = false ∧
      (CmdFields.ofWord 0x106).wf = false := by decide
/-- `fau_op` = 0xA and 0xF (R137). -/
theorem test_wf_fau_op :
    FauReq.wf ⟨0xA, 0, 0, 0⟩ = false ∧ FauReq.wf ⟨0xF, 0, 0, 0⟩ = false ∧ FauReq.wf ⟨9, 0, 0, 0⟩ = true := by
  decide
/-- `legalCommandWord` refuses the same words, and accepts the eight of R94. -/
theorem test_legal_words :
    ([0x204, 0x80000001, 0x14, 0, 7, 0xF, 0x101, 0x103, 0x105, 0x106, 0xFFFFFFFF].map legalCommandWord).or
        = false ∧
      ([0x001, 0x002, 0x102, 0x003, 0x004, 0x104, 0x005, 0x006].map legalCommandWord).and = true := by decide

/-! ## Decode: words written out from the encodings of R94 and R121 to R129 -/

theorem test_decode_smul : decodeCmd 0b00000000000000000000000000000001 = .ok .smul := by decide
theorem test_decode_pdbl_pm : decodeCmd 0b00000000000000000000000000000010 = .ok (.pdbl .pm) := by decide
theorem test_decode_pdbl_pp : decodeCmd 0b00000000000000000000000100000010 = .ok (.pdbl .pp) := by decide
theorem test_decode_dadd : decodeCmd 0b00000000000000000000000000000011 = .ok .dadd := by decide
theorem test_decode_lstep_0 : decodeCmd 0b00000000000000000000000000000100 = .ok (.lstep false) := by decide
theorem test_decode_lstep_1 : decodeCmd 0b00000000000000000000000100000100 = .ok (.lstep true) := by decide
theorem test_decode_linit : decodeCmd 0b00000000000000000000000000000101 = .ok .linit := by decide
theorem test_decode_affine : decodeCmd 0b00000000000000000000000000000110 = .ok .affine := by decide
/-- R106's variants of `lstep 1`, each illegal for its own reason. -/
theorem test_decode_r106 :
    decodeCmd 0x00000105 = .error .strayOperandBit ∧ decodeCmd 0x00000106 = .error .strayOperandBit ∧
      decodeCmd 0x00000100 = .error .reservedOpcode ∧ decodeCmd 0x0000010C = .error .reservedOpcode ∧
      decodeCmd 0x00000114 = .error .lowReservedBit ∧ decodeCmd 0x00000304 = .error .highReservedBit := by
  decide
/-- The ten field operations by `fau_op`, each with the operands it reads. -/
theorem test_decode_fau :
    decodeFau ⟨0b0000, 5, 6, 7⟩ = .ok (.fauCopy 5) ∧ decodeFau ⟨0b0001, 5, 6, 7⟩ = .ok (.fauSetui 7) ∧
      decodeFau ⟨0b0010, 5, 6, 7⟩ = .ok (.fauAdd 5 6) ∧ decodeFau ⟨0b0011, 5, 6, 7⟩ = .ok (.fauSub 5 6) ∧
      decodeFau ⟨0b0100, 5, 6, 7⟩ = .ok (.fauMul 5 6) ∧ decodeFau ⟨0b0101, 5, 6, 7⟩ = .ok (.fauSqr 5) ∧
      decodeFau ⟨0b0110, 5, 6, 7⟩ = .ok (.fauMului 5 7) ∧ decodeFau ⟨0b0111, 5, 6, 7⟩ = .ok (.fauInv 5) ∧
      decodeFau ⟨0b1000, 5, 6, 7⟩ = .ok (.fauIszero 5) ∧ decodeFau ⟨0b1001, 5, 6, 7⟩ = .ok (.fauEq 5 6) ∧
      decodeFau ⟨0b1010, 5, 6, 7⟩ = .error .reservedFauOp := by decide
/-- Table words: 32-bit rows are commands, the others requests. -/
theorem test_decode_table_word :
    decodeTableWord 32 0x104 = some (.lstep true) ∧ decodeTableWord 32 0x105 = none ∧
      decodeTableWord 8 0x7 = some (.fauInv 0) ∧ decodeTableWord 8 0xA = none ∧
      decodeTableWord 548 (3 + 9 * 2 ^ 4 + 5 * 2 ^ 260) = some (.fauSub 9 5) := by decide +kernel

/-! ## The commands' meanings -/

/-- p as a raw word. -/
def pWord : Word256 := BitVec.ofNat 256 (2 ^ 255 - 19)

/-- A state with these operands captured. -/
def latched (k xb pmx pmz ppx ppz : Word256) : State :=
  { State.reset with engine := { Engine.reset with latch := ⟨0, k, xb, pmx, pmz, ppx, ppz⟩ } }

/-- PM, PP, RESX and RESULT after an outcome. -/
def regsAfter (o : Host.Outcome State Fault Refusal) : Option (List Nat × Nat) :=
  match o with
  | .next t =>
    some ([t.regs.pmx.toNat, t.regs.pmz.toNat, t.regs.ppx.toNat, t.regs.ppz.toNat, t.regs.resx.toNat],
      t.status.result.toNat)
  | .fault _ | .refused _ => none

/-- The FAU's response after an outcome. -/
def answer (o : Host.Outcome State Fault Refusal) : Option (Nat × Bool) :=
  match o with
  | .next t => t.fau.rsp.map fun r => (r.res.toNat, r.err)
  | .fault _ | .refused _ => none

/-- V-DBL-8, raw Z = p + 1, in PM. -/
theorem test_pdbl_pm :
    regsAfter (exec (.pdbl .pm) (latched 0 0 9 (pWord + 1) 5 7)) = some ([6400, 157681440, 0, 0, 0], 0) := by
  decide +kernel
/-- `pdbl pp` with PP = (5:7) (95_test_vectors.md 3.2). -/
theorem test_pdbl_pp :
    regsAfter (exec (.pdbl .pp) (latched 0 0 9 1 5 7)) = some ([0, 0, 576, 2384654160, 0], 0) := by
  decide +kernel
/-- V-DADD-1. -/
theorem test_dadd :
    regsAfter (exec .dadd (latched 0 9 9 1 6400 157681440)) =
      some ([0, 0, 99381099745382400, 72501126958707609600, 0], 0) := by decide +kernel
/-- V-DADD-6, x1 = 0. -/
theorem test_dadd_zero_x :
    regsAfter (exec .dadd (latched 0 0 9 1 6400 157681440)) = some ([0, 0, 99381099745382400, 0, 0], 0) := by
  decide +kernel
/-- V-LSTEP-1. -/
theorem test_lstep_0 :
    regsAfter (exec (.lstep false) (latched 0 9 9 1 6400 157681440)) =
      some ([6400, 157681440, 99381099745382400, 72501126958707609600, 0], 0) := by decide +kernel
/-- V-LSTEP-2. -/
theorem test_lstep_1 :
    regsAfter (exec (.lstep true) (latched 0 9 9 1 6400 157681440)) =
      some ([99381099745382400, 72501126958707609600, 618190473570807639392492584960000,
        2082843567142055078422118400000, 0], 0) := by decide +kernel
/-- V-LINIT-3, XB = p + 9. -/
theorem test_linit :
    regsAfter (exec .linit (latched 0 (pWord + 9) 0 0 0 0)) = some ([9, 1, 6400, 157681440, 0], 0) := by
  decide +kernel
/-- V-AFF-1. -/
theorem test_affine :
    regsAfter (exec .affine (latched 0 0 6400 157681440 0 0)) =
      some ([0, 0, 0, 0,
        14847277145635483483963372537557091634710985132825781088887140890597596352251], 0) := by
  decide +kernel
/-- V-AFF-3, PMZ = p. -/
theorem test_affine_zero :
    regsAfter (exec .affine (latched 0 0 5 pWord 0 0)) = some ([0, 0, 0, 0, 0], 2) := by decide +kernel
/-- V-RFC-1. -/
theorem test_smul_rfc :
    regsAfter (exec .smul (latched
        31029842492115040904895560451863089656472772604678260265531221036453811406496
        34426434033919594451155107781188821651316167215306631574996226621102155684838 0 0 0 0)) =
      some ([0, 0, 0, 0,
        37325765543539916631701301279660700968428932651319597985674090122993663859395], 0) := by
  decide +kernel
/-- V-SMUL-0, V-SMUL-XP1, V-SMUL-2 and V-SMUL-X0c: the special scalars and x = 0. -/
theorem test_smul_special :
    regsAfter (exec .smul (latched 0 9 0 0 0 0)) = some ([0, 0, 0, 0, 0], 1) ∧
      regsAfter (exec .smul (latched 1 (pWord + 9) 0 0 0 0)) = some ([0, 0, 0, 0, 9], 0) ∧
      regsAfter (exec .smul (latched 2 9 0 0 0 0)) =
        some ([0, 0, 0, 0,
          14847277145635483483963372537557091634710985132825781088887140890597596352251], 0) ∧
      regsAfter (exec .smul (latched 3 0 0 0 0 0)) = some ([0, 0, 0, 0, 0], 2) := by decide +kernel

/-! ## The field operations' meanings -/

/-- V-FAU-1 and V-FAU-2. -/
theorem test_fau_copy :
    answer (exec (.fauCopy (pWord + 5)) State.reset) = some (5, false) ∧
      answer (exec (.fauCopy (BitVec.allOnes 256)) State.reset) = some (37, false) := by decide +kernel
/-- V-FAU-3. -/
theorem test_fau_setui : answer (exec (.fauSetui 1) State.reset) = some (1, false) := by decide +kernel
/-- V-FAU-4. -/
theorem test_fau_add : answer (exec (.fauAdd (pWord - 1) 1) State.reset) = some (0, false) := by
  decide +kernel
/-- V-FAU-5 and V-FAU-6. -/
theorem test_fau_sub :
    answer (exec (.fauSub 0 1) State.reset) = some (2 ^ 255 - 20, false) ∧
      answer (exec (.fauSub pWord 0) State.reset) = some (0, false) := by decide +kernel
/-- V-FAU-7. -/
theorem test_fau_mul : answer (exec (.fauMul (pWord - 1) (pWord - 1)) State.reset) = some (1, false) := by
  decide +kernel
/-- V-FAU-8. -/
theorem test_fau_sqr : answer (exec (.fauSqr 10) State.reset) = some (100, false) := by decide +kernel
/-- V-FAU-9. -/
theorem test_fau_mului : answer (exec (.fauMului 36 121666) State.reset) = some (4379976, false) := by
  decide +kernel
/-- V-FAU-10 and V-FAU-12. -/
theorem test_fau_inv :
    answer (exec (.fauInv 2) State.reset) =
        some (28948022309329048855892746252171976963317496166410141009864396001978282409975, false) ∧
      answer (exec (.fauInv pWord) State.reset) = some (0, true) := by decide +kernel
/-- V-FAU-14. -/
theorem test_fau_iszero : answer (exec (.fauIszero (pWord + pWord)) State.reset) = some (1, false) := by
  decide +kernel
/-- V-FAU-15. -/
theorem test_fau_eq :
    answer (exec (.fauEq 9 (pWord + 9)) State.reset) = some (1, false) ∧
      answer (exec (.fauEq 9 8) State.reset) = some (0, false) := by decide +kernel

/-! ## The host port -/

/-- V-BUS-1, 3, 5, 7. -/
theorem test_bus_reads :
    busRead State.reset 0x000 = (0x25519001, false) ∧ busRead State.reset 0x041 = (0, true) ∧
      busRead State.reset 0x010 = (0, true) ∧ busRead State.reset 0xFFC = (0, true) := by decide +kernel
/-- V-BUS-13: XB = 9 with word 1 written. -/
theorem test_bus_word_write :
    (busWrite { State.reset with regs := { Regs.reset with xb := 9 } } 0x044 0xAABBCCDD).1.regs.xb.toNat =
      9 + 0xAABBCCDD * 2 ^ 32 := by decide +kernel
/-- V-BUS-14 and V-BUS-15: STATUS = 0x132. -/
theorem test_bus_w1c :
    (busWrite { State.reset with status := ⟨false, false, true, 3, true⟩ } 0x008 0x2).1.status.statusWord
        = 0x130 ∧
      (busWrite { State.reset with status := ⟨false, false, true, 3, true⟩ } 0x008
        0xFFFFFFFF).1.status.statusWord = 0x030 := by decide +kernel
/-- V-ENC-1, 3, 8: STATUS after a word written to CMD from reset. -/
theorem test_bus_cmd :
    (busWrite State.reset 0x00C 0x1).1.status.statusWord = 0x1 ∧
      (busWrite State.reset 0x00C 0x0).1.status.statusWord = 0x32 ∧
      (busWrite State.reset 0x00C 0x14).1.status.statusWord = 0x32 := by decide +kernel

/-- R105's value of `rdfe`: word 0 lowest; R63's example, and word 7 alone. -/
theorem test_join_words :
    joinWords [9, 0, 0, 0, 0, 0, 0, 0] = 9 ∧ joinWords [0, 0, 0, 0, 0, 0, 0, 1] = 2 ^ 224 := by decide +kernel

/-! ## Steps -/

/-- Whether a step from reset with a table word placed runs it: the state it leads to, seen as above. -/
theorem test_step_runs_table_word :
    regsAfter (step (State.reset.withFetchWord 32 0x1)) = some ([0, 0, 0, 0, 0], 1) ∧
      regsAfter (step (State.reset.withFetchWord 32 0x5)) = some ([0, 1, 1, 0, 0], 0) ∧
      answer (step (State.reset.withFetchWord 8 0x9)) = some (1, false) ∧
      answer (step (State.reset.withFetchWord 8 0x7)) = some (0, true) := by decide +kernel
/-- V-RST-2: a reset edge during a command; V-BUS-2 after it. -/
theorem test_reset_during_command :
    (match step { (busWrite State.reset 0x00C 0x1).1 with env := ⟨[.rstLow (some (.read 0))], none, 0, []⟩ } with
      | .next t => some (t.status.statusWord, t.env.resp)
      | .fault _ | .refused _ => none) = some (0, some (.read 0 false)) := by decide +kernel

/-! ## Witnesses: each statement's premises met together -/

theorem witness_DecodedCommandEncodesBack : decodeCmd 0x104 = .ok (.lstep true) := by decide
/-- The first reserved operation, the last, and the last legal one. -/
theorem witness_ReservedFieldOperationsRejected :
    decodeFau ⟨0xA, 0, 0, 0⟩ = .error .reservedFauOp ∧ decodeFau ⟨0xF, 0, 0, 0⟩ = .error .reservedFauOp ∧
      decodeFau ⟨9, 0, 0, 0⟩ ≠ .error .reservedFauOp := by decide
/-- Z = 0 and Z ≠ 0 for TOAFFINE's two clauses. -/
theorem witness_AffineDividesOrReportsZero :
    residue (latched 0 0 5 pWord 0 0).engine.latch.pmz = 0 ∧ residue (latched 0 0 5 1 0 0).engine.latch.pmz ≠ 0 := by
  rw [residue_eq_zero_iff, Ne, residue_eq_zero_iff]
  decide +kernel
theorem witness_SmulOfZeroIsInfinity :
    (latched 0 9 0 0 0 0).engine.latch.k = 0 ∧ State.reset.regs.k = 0 := ⟨rfl, rfl⟩
theorem witness_SmulOfOneCopies :
    (latched 1 9 0 0 0 0).engine.latch.k = 1 ∧
      ({ State.reset with regs := ⟨1, 9, 0, 0, 0, 0, 0⟩ } : State).regs.k = 1 := ⟨rfl, rfl⟩
theorem witness_SmulOfTwoDoublesOnce : (latched 2 9 0 0 0 0).engine.latch.k = 2 := rfl
/-- k = 3, the least scalar of the general path (one step, with bit 1), and k = 4 (two, with bit 0). -/
theorem witness_SmulGeneralPathRunsTheLadder :
    3 ≤ (latched 3 9 0 0 0 0).engine.latch.k.toNat ∧ 3 ≤ (latched 4 9 0 0 0 0).engine.latch.k.toNat ∧
      (3 : Word256).toNat.testBit 0 = true ∧ (4 : Word256).toNat.testBit 1 = false := by decide +kernel
/-- A nonzero and a zero word, the zero one p itself. -/
theorem witness_InvGivesTheUniqueInverse :
    ¬ Config.fieldPrime ∣ (2 : Word256).toNat ∧ Config.fieldPrime ∣ pWord.toNat := by
  rw [Nat.dvd_iff_mod_eq_zero, Nat.dvd_iff_mod_eq_zero]
  decide +kernel
theorem witness_CommandLeavesTheRestUnchanged :
    isCommand .dadd = true ∧ ∃ t, exec .dadd (latched 0 9 9 1 1 0) = .next t := ⟨rfl, _, rfl⟩
theorem witness_FieldRequestChangesOnlyThePort :
    isCommand (.fauInv 2) = false ∧ ∃ t, exec (.fauInv 2) State.reset = .next t := ⟨rfl, _, rfl⟩
theorem witness_CommandResultsAreCanonical :
    isCommand .linit = true ∧ WideReg.pmx ∈ writtenRegs .linit ∧
      ∃ t, exec .linit (latched 0 9 0 0 0 0) = .next t := ⟨rfl, by decide, _, rfl⟩
/-- Codes 1 and 2 occur: 2 from SMUL and from AFFINE. -/
theorem witness_ResultCodesTellWhatHappened :
    (∃ t, exec .smul (latched 0 9 0 0 0 0) = .next t ∧ t.status.result.toNat = 1) ∧
      (∃ t, exec .smul (latched 2 0 0 0 0 0) = .next t ∧ t.status.result.toNat = 2) ∧
      ∃ t, exec .affine (latched 0 0 5 pWord 0 0) = .next t ∧ t.status.result.toNat = 2 :=
  ⟨⟨_, rfl, by decide +kernel⟩, ⟨_, rfl, by decide +kernel⟩, ⟨_, rfl, by decide +kernel⟩⟩
/-- The ends of both reserved ranges, and the mapped words beside them. -/
theorem witness_AddressMapPlacesTheRegisters :
    target 0x010 = .reserved ∧ target 0x01C = .reserved ∧ target 0x100 = .reserved ∧
      target 0xFFC = .reserved ∧ target 0x00C = .cmd ∧ target 0x020 = .wide .k 0 ∧
      target 0x0FC = .wide .resx 7 := by decide +kernel
theorem witness_BusErrorsChangeNothing :
    (0x041 : Offset).toNat % 4 ≠ 0 ∧ (0x010 ≤ (0x01C : Offset).toNat ∧ (0x01C : Offset).toNat ≤ 0x01C) ∧
      0x100 ≤ (0xFFC : Offset).toNat := by decide
theorem witness_ReadsReturnTheMappedWord : WideReg.resx ≠ .k ∧ State.reset.status.busy = false := by decide
theorem witness_WritesReplaceOneWord :
    WideReg.k ≠ .resx ∧ State.reset.status.busy = false ∧ (0 : Fin 8) ≠ 7 ∧ WideReg.xb ≠ .k := by decide

/-- LSTEP 1 started on slots that hold P and O, XB = 9. -/
def started : State :=
  (busWrite { State.reset with regs := ⟨0, 9, 9, 1, 1, 0, 0⟩ } 0x00C 0x104).1

/-- The same with one edge left to wait before the engine's next move. -/
def running : State := { started with engine := { started.engine with pause := 1 } }

theorem running_busy : running.status.busy = true := by decide +kernel
theorem witness_BusyWritesAreDropped : running.status.busy = true ∧ WideReg.ppz ≠ .resx :=
  ⟨running_busy, by decide⟩
theorem witness_IllegalWordCompletesAtOnce :
    State.reset.status.busy = false ∧
      (0x105 : Word32) ∉ ([0x001, 0x002, 0x102, 0x003, 0x004, 0x104, 0x005, 0x006] : List Word32) := by decide
theorem witness_LegalWordStartsTheCommand :
    State.reset.status.busy = false ∧
      (0x104 : Word32) ∈ ([0x001, 0x002, 0x102, 0x003, 0x004, 0x104, 0x005, 0x006] : List Word32) := by decide

/-- The state after reset with these inputs to come. -/
def withInputs (l : List Input) : State := { State.reset with env := ⟨l, none, 0, []⟩ }

/-- A write of PPZ, and reads of RESX and of K. -/
theorem witness_WrfeAndRdfeMoveWholeRegisters :
    WideReg.ppz ≠ .resx ∧ (withInputs (asmWrfe .ppz 9 ++ [.poll])).status.busy = false ∧
      (withInputs (asmWrfe .ppz 9 ++ [.poll])).fau.txn = .idle ∧
      (withInputs (asmWrfe .ppz 9 ++ [.poll])).powerLost = false ∧
      (withInputs (asmWrfe .ppz 9 ++ [.poll])).env.inputs = asmWrfe .ppz 9 ++ [.poll] ∧
      (withInputs (asmRdfe .resx ++ [.poll])).env.inputs = asmRdfe .resx ++ [.poll] ∧
      (withInputs (asmRdfe .k ++ [])).env.inputs = asmRdfe .k ++ [] :=
  ⟨by decide, rfl, rfl, rfl, rfl, rfl, rfl⟩
/-- Both statements, the second with a value that differs from the word read. -/
theorem witness_HostReadsHaveNoSideEffect :
    (withInputs [.rd 0x040]).env.inputs = .rd 0x040 :: [] ∧
      (withInputs [.rdEq 0x040 7]).env.inputs = .rdEq 0x040 7 :: [] ∧
      (withInputs [.rdEq 0x040 7]).powerLost = false ∧ (busRead (withInputs [.rdEq 0x040 7]) 0x040).1 ≠ 7 :=
  ⟨rfl, rfl, rfl, by decide +kernel⟩
theorem witness_BusyReadTellsNothing :
    running.status.busy = true ∧ WideReg.pmx ≠ .k ∧ WideReg.pmx ≠ .xb :=
  ⟨running_busy, by decide, by decide⟩
/-- A poll of a busy block and of an idle one. -/
theorem witness_PollWaitsForIdle :
    ({ running with env := ⟨[.poll], none, 0, []⟩ } : State).powerLost = false ∧ running.status.busy = true ∧
      (withInputs [.poll]).powerLost = false ∧ (withInputs [.poll]).env.inputs = .poll :: [] ∧
      (withInputs [.poll]).status.busy = false := ⟨rfl, running_busy, rfl, rfl, rfl⟩

/-- A command at its completion edge: SMUL with K = 0, nothing left to do. -/
def atCompletion (inp : Input) : State :=
  { (State.reset.stageCommand 0x1) with env := ⟨[inp], none, 0, []⟩ }

theorem witness_StepRunsTheLatchedCommand :
    (atCompletion .quiet).powerLost = false ∧ benign (atCompletion .quiet).nextInput = true ∧
      (atCompletion .quiet).commitDue = true ∧
      decodeCmd (atCompletion .quiet).engine.latch.word = .ok .smul ∧
      decodeTableWord 32 0x1 = some .smul := by decide +kernel
theorem witness_StepAnswersTheFieldRequest :
    (State.reset.withFetchWord 8 0x7).powerLost = false ∧
      benign (State.reset.withFetchWord 8 0x7).nextInput = true ∧
      (State.reset.withFetchWord 8 0x7).fau.txn = .outstanding ⟨7, 0, 0, 0⟩ 0 ∧
      decodeFau ⟨7, 0, 0, 0⟩ = .ok (.fauInv 0) ∧ decodeTableWord 8 0x7 = some (.fauInv 0) := by
  decide +kernel
/-- PDBL of PM at its completion edge. -/
def doublingDone (inp : Input) : State :=
  { ({ State.reset with regs := ⟨0, 0, 9, 1, 0, 0, 0⟩ } : State).stageCommand 0x2 with env := ⟨[inp], none, 0, []⟩ }

/-- The completion edge, and a next state for each transfer at it. -/
theorem witness_CompletionPrecedesTheHostTransfer :
    (doublingDone .poll).powerLost = false ∧ (doublingDone .poll).commitDue = true ∧
      decodeCmd (doublingDone .poll).engine.latch.word = .ok (.pdbl .pm) ∧
      (∃ u, exec (.pdbl .pm) (doublingDone .poll).settled = .next u) ∧
      (∃ t, step (doublingDone .poll) = .next t) ∧ (doublingDone .poll).nextInput = .poll ∧
      (∃ t, step (doublingDone (.rd 0x008)) = .next t) ∧ (∃ t, step (doublingDone (.rdEq 0x008 2)) = .next t) :=
  ⟨rfl, by decide +kernel, by decide +kernel, ⟨_, rfl⟩, ⟨_, rfl⟩, rfl, ⟨_, rfl⟩, ⟨_, rfl⟩⟩
/-- A read and a write of the last word of the slot that the command writes, and a legal and an illegal command word. -/
theorem witness_CompletionPrecedesTheHostTransfer_registers :
    WideReg.pmz ∈ writtenRegs (.pdbl .pm) ∧
      (∃ t, step (doublingDone (.rd (wordOffset .pmz 7))) = .next t) ∧
      (∃ t, step (doublingDone (.wr (wordOffset .pmz 7) 1)) = .next t) ∧
      (∃ t, step (doublingDone (.wr 0x00C 0x6)) = .next t) ∧ legalCommandWord 0x6 = true ∧
      (∃ t, step (doublingDone (.wr 0x00C 0x7)) = .next t) ∧ legalCommandWord 0x7 = false :=
  ⟨by decide, ⟨_, rfl⟩, ⟨_, rfl⟩, ⟨_, rfl⟩, by decide, ⟨_, rfl⟩, by decide⟩
theorem witness_ResetRestoresEveryValue :
    ({ running with env := ⟨[.rstLow (some (.read 0x008))], none, 0, []⟩ } : State).env.inputs =
      .rstLow (some (.read 0x008)) :: [] ∧
    ({ running with env := ⟨[.rstLow (some (.write 0x00C 0x1))], none, 0, []⟩ } : State).env.inputs =
      .rstLow (some (.write 0x00C 0x1)) :: [] := ⟨rfl, rfl⟩
theorem witness_IrqFollowsEnableAndDone :
    State.reset.powerLost = false ∧ State.reset.status.busy = false ∧ legalCommandWord 0x7 = false ∧
      isCommand .smul = true ∧ ∃ t, exec .smul State.reset = .next t :=
  ⟨rfl, rfl, by decide, rfl, _, rfl⟩

/-- `running` with the FAU transaction set. -/
def withTxn (t : FauTxn) : State := { running with fau := ⟨t, none⟩ }

/-- One state for each form of the transaction, each with a next state. -/
theorem witness_OneFieldRequestAtATime :
    (∃ t, step (withTxn (.presented ⟨2, 9, 1, 0⟩ 1)) = .next t) ∧
      (∃ t, step (withTxn (.presented ⟨2, 9, 1, 0⟩ 0)) = .next t) ∧
      (∃ t, step (withTxn (.outstanding ⟨2, 9, 1, 0⟩ 1)) = .next t) ∧
      (∃ t, step (withTxn (.outstanding ⟨2, 9, 1, 0⟩ 0)) = .next t) ∧
      (∃ t, step (withTxn .idle) = .next t) ∧
      running.powerLost = false ∧ benign running.nextInput = true :=
  ⟨⟨_, rfl⟩, ⟨_, rfl⟩, ⟨_, rfl⟩, ⟨_, rfl⟩, ⟨_, rfl⟩, rfl, rfl⟩

/-- K changes by a write and by reset, RESX by a completion. -/
theorem witness_RegistersChangeOnlyByTheirWriters :
    (∃ t, step (withInputs [.wr 0x020 5]) = .next t ∧ t.regs.get .k ≠ State.reset.regs.get .k) ∧
      (∃ t, step { State.reset with regs := ⟨5, 0, 0, 0, 0, 0, 0⟩, env := ⟨[.rstLow none], none, 0, []⟩ } = .next t ∧
        t.regs.get .k ≠ 5) ∧
      ∃ t, step { (State.reset.stageCommand 0x1) with regs := ⟨0, 0, 0, 0, 0, 0, 7⟩ } = .next t ∧
        t.regs.get .resx ≠ 7 :=
  ⟨⟨_, rfl, by decide +kernel⟩, ⟨_, rfl, by decide +kernel⟩, ⟨_, rfl, by decide +kernel⟩⟩

/-- OVERRUN cleared by a write to STATUS, and set by a write to CMD while a request waits. -/
theorem witness_OverrunIsSticky :
    (∃ t, step { withInputs [.wr 0x008 0x100] with status := ⟨false, false, false, 0, true⟩ } = .next t ∧
        t.status.overrun = false) ∧
      ∃ t, step { withTxn (.outstanding ⟨2, 9, 1, 0⟩ 1) with env := ⟨[.wr 0x00C 7], none, 0, []⟩ } = .next t ∧
        t.status.overrun = true :=
  ⟨⟨_, rfl, by decide +kernel⟩, ⟨_, rfl, by decide +kernel⟩⟩

/-- A clock stop, then a quiet edge, a reset and a read. -/
theorem witness_OnlyResetEndsAClockStop :
    (withInputs [.clockStop]).env.inputs = .clockStop :: [] ∧
      (∃ t, step { withInputs [.quiet] with powerLost := true } = .next t ∧ t.powerLost = true) ∧
      (∃ t, step { withInputs [.rstLow none] with powerLost := true } = .next t ∧ t.powerLost = false) ∧
      (∃ t, step { withInputs [.rd (wordOffset .xb 7)] with powerLost := true } = .next t) ∧
      (∃ t, step { withInputs [.rd (wordOffset .resx 0)] with powerLost := true } = .next t) ∧
      (∃ t, step { withInputs [.rd 0x004] with powerLost := true } = .next t) ∧
      ∃ t, step { withInputs [.rd 0x008] with powerLost := true } = .next t :=
  ⟨rfl, ⟨_, rfl, rfl⟩, ⟨_, rfl, rfl⟩, ⟨_, rfl⟩, ⟨_, rfl⟩, ⟨_, rfl⟩, ⟨_, rfl⟩⟩

/-- A running state is coherent. -/
theorem coherent_running : Coherent running where
  result_defined := by decide +kernel
  resx_canonical := by decide +kernel
  latched_legal := fun _ => by decide +kernel
  busy_not_done := fun _ => by decide +kernel
  operands_held := fun _ => by decide +kernel
  idle_no_request := fun _ => rfl
  request_presentable := rfl

/-- Its sequence leads to what LSTEP 1 writes. -/
theorem agrees_running : EngineAgrees running := fun _ =>
  ⟨.lstep true, by decide +kernel, trivial,
    show sequenceWrites _ _ _ _ = ruleWrites _ _ by decide +kernel⟩

theorem witness_EveryStepKeepsCoherence :
    Coherent running ∧ running.status.busy = true ∧ ∃ t, step running = .next t :=
  ⟨coherent_running, running_busy, _, rfl⟩
theorem witness_EveryStepKeepsTheEngineOnItsRule :
    Coherent running ∧ EngineAgrees running ∧ running.status.busy = true ∧ ∃ t, step running = .next t :=
  ⟨coherent_running, agrees_running, running_busy, _, rfl⟩
theorem witness_FieldOperationsComputeTheCommand :
    EngineAgrees (atCompletion .quiet) ∧ (atCompletion .quiet).commitDue = true ∧
      decodeCmd (atCompletion .quiet).engine.latch.word = .ok .smul :=
  ⟨fun _ => ⟨.smul, by decide +kernel, trivial,
      show sequenceWrites _ _ _ _ = ruleWrites _ _ by decide +kernel⟩,
    by decide +kernel, by decide +kernel⟩
theorem witness_StartedCommandReachesCompletion :
    Coherent running ∧ EngineAgrees running ∧ running.status.busy = true ∧ running.powerLost = false ∧
      ∀ inp ∈ running.env.inputs, benign inp = true :=
  ⟨coherent_running, agrees_running, running_busy, rfl, by decide +kernel⟩
/-- LSTEP `b` started with `pmx` in PM, and K = `k`. -/
def stepping (b : Bool) (pmx k : Word256) : State :=
  { (latched 0 9 pmx 1 1 0).startCommand (.lstep b) (cmdWord 4 b) with regs := ⟨k, 0, 0, 0, 0, 0, 0⟩ }

/-- Two states alike in pace that differ in the ladder bit, an operand and the scalar. -/
theorem witness_EngineIssueIgnoresTheLadderBit :
    (stepping false 1 5).pace = (stepping true 2 7).pace ∧ (stepping false 1 5).edge = (stepping true 2 7).edge ∧
      smulClass (stepping false 1 5).regs.k = smulClass (stepping true 2 7).regs.k :=
  ⟨rfl, rfl, by decide +kernel⟩
theorem witness_DoublingTwiceIsMultiplyingByFour :
    ({ State.reset with regs := ⟨4, 9, 9, 1, 0, 0, 0⟩ } : State).regs.k = 4 ∧
      ({ State.reset with regs := ⟨4, 9, 9, 1, 0, 0, 0⟩ } : State).regs.pmx =
        ({ State.reset with regs := ⟨4, 9, 9, 1, 0, 0, 0⟩ } : State).regs.xb ∧
      ({ State.reset with regs := ⟨4, 9, 9, 1, 0, 0, 0⟩ } : State).regs.pmz = 1 := ⟨rfl, rfl, rfl⟩
theorem witness_LadderByHandEqualsSmul :
    3 ≤ ({ State.reset with regs := ⟨3, 9, 0, 0, 0, 0, 0⟩ } : State).regs.k.toNat := by decide
theorem witness_SmulDependsOnXbModuloP :
    (latched 5 9 0 0 0 0).engine.latch.k = (latched 5 (pWord + 9) 0 0 0 0).engine.latch.k ∧
      (latched 5 9 0 0 0 0).engine.latch.xb.toNat % Config.fieldPrime =
        (latched 5 (pWord + 9) 0 0 0 0).engine.latch.xb.toNat % Config.fieldPrime ∧
      (∃ t, exec .smul (latched 5 9 0 0 0 0) = .next t) ∧
      ∃ t, exec .smul (latched 5 (pWord + 9) 0 0 0 0) = .next t :=
  ⟨rfl, by decide +kernel, ⟨_, rfl⟩, ⟨_, rfl⟩⟩

/-! ### The curve: the base point x = 9, and x = 1 of order 4 (95_test_vectors.md sections 2 and 3.7) -/

/-- A square root of x³ + A·x² + x for x = 9. -/
def baseY : Nat := 14781619447589544791020593568409986887264606134616475288964881837755586237401
/-- A square root of A + 2, the y of x = 1. -/
def fourY : Nat := 48802004052532134862652268456126542835229456083994414501085850622543968879637

theorem nonsingular_of {x y : Nat} (h : y ^ 2 % Config.fieldPrime =
      (x ^ 3 + Config.montgomeryA * x ^ 2 + x) % Config.fieldPrime)
    (h1 : 0 < 2 * y % Config.fieldPrime) : curve.Nonsingular (x : Fp) (y : Fp) := by
  refine (WeierstrassCurve.Affine.nonsingular_iff _ _).2 ⟨?_, .inr ?_⟩
  · rw [WeierstrassCurve.Affine.equation_iff]
    have := (ZMod.natCast_eq_natCast_iff (y ^ 2) (x ^ 3 + Config.montgomeryA * x ^ 2 + x) _).2 h
    push_cast at this
    simpa using this
  · intro e
    simp only [zero_mul, sub_zero] at e
    have : ((2 * y : Nat) : Fp) = 0 := by push_cast; linear_combination e
    rw [ZMod.natCast_eq_zero_iff, Nat.dvd_iff_mod_eq_zero] at this
    omega

theorem nonsingular_base : curve.Nonsingular ((9 : Nat) : Fp) (baseY : Fp) :=
  nonsingular_of (by decide +kernel) (by decide +kernel)
theorem nonsingular_four : curve.Nonsingular ((1 : Nat) : Fp) (fourY : Fp) :=
  nonsingular_of (by decide +kernel) (by decide +kernel)

/-- The base point. -/
def basePoint : curve.Point := .some _ _ nonsingular_base

theorem nine_ne_zero : ((9 : Nat) : Fp) ≠ 0 :=
  natCast_ne_zero (by norm_num) (by norm_num [Config.fieldPrime])
theorem one_ne_zero_fp : ((1 : Nat) : Fp) ≠ 0 :=
  natCast_ne_zero (by norm_num) (by norm_num [Config.fieldPrime])
theorem residue_small (n : Nat) (h : n < 2 ^ 256) : residue (BitVec.ofNat 256 n) = (n : Fp) := by
  rw [residue, BitVec.toNat_ofNat, Nat.mod_eq_of_lt h]

theorem represents_base : Represents ⟨9, 1⟩ basePoint := by
  have h9 : residue 9 = ((9 : Nat) : Fp) := residue_small 9 (by norm_num)
  have h1 : residue 1 = ((1 : Nat) : Fp) := residue_small 1 (by norm_num)
  refine ⟨by rw [h1]; exact one_ne_zero_fp, ?_⟩
  rw [h9, h1]; simp
theorem represents_infinity : Represents ⟨1, 0⟩ (0 : curve.Point) := by
  have h1 : residue 1 = ((1 : Nat) : Fp) := residue_small 1 (by norm_num)
  have h0 : residue 0 = ((0 : Nat) : Fp) := residue_small 0 (by norm_num)
  exact ⟨by rw [h0]; simp, by rw [h1]; exact one_ne_zero_fp⟩

/-- p is prime, (9:1) represents the base point and (1:0) represents O; (5:p) has Z = 0. -/
theorem witness_DoublingRepresentsTwiceThePoint :
    Nat.Prime Config.fieldPrime ∧ Represents ⟨9, 1⟩ basePoint ∧ Represents ⟨1, 0⟩ (0 : curve.Point) ∧
      residue (⟨5, pWord⟩ : Point).z = 0 :=
  ⟨prime_fieldPrime, represents_base, represents_infinity, by rw [residue_eq_zero_iff]; decide +kernel⟩
/-- Both signs of the difference: R − Q = P for Q = O, R = P, and R − Q = −P for Q = P, R = O; and x1 = p. -/
theorem witness_DiffaddRepresentsTheSum :
    residue pWord = 0 ∧ residue 9 = ((9 : Nat) : Fp) ∧ ((9 : Nat) : Fp) ≠ 0 ∧ Represents ⟨1, 0⟩ (0 : curve.Point) ∧
      Represents ⟨9, 1⟩ basePoint ∧
      (haveI := fact_prime_fieldPrime; basePoint - 0 = basePoint ∧ 0 - basePoint = -basePoint) :=
  ⟨by rw [residue_eq_zero_iff]; decide +kernel, residue_small 9 (by norm_num), nine_ne_zero, represents_infinity,
    represents_base, haveI := fact_prime_fieldPrime; ⟨sub_zero _, zero_sub _⟩⟩
/-- n = 0: (1:0) represents 0·P and (9:1) represents 1·P. -/
theorem witness_LadderStepAdvancesThePrefix :
    haveI := fact_prime_fieldPrime
    residue 9 = ((9 : Nat) : Fp) ∧ ((9 : Nat) : Fp) ≠ 0 ∧ Represents ⟨1, 0⟩ ((0 : Nat) • basePoint) ∧
      Represents ⟨9, 1⟩ ((0 + 1 : Nat) • basePoint) := by
  have := fact_prime_fieldPrime
  refine ⟨residue_small 9 (by norm_num), nine_ne_zero, ?_, ?_⟩
  · rw [zero_nsmul]; exact represents_infinity
  · rw [zero_add, one_nsmul]; exact represents_base

/-- The point of x = 1 has order 4. -/
theorem four_mul_four :
    haveI := fact_prime_fieldPrime
    4 • (.some _ _ nonsingular_four : curve.Point) = 0 := by
  have := fact_prime_fieldPrime
  have hc := curve_eq nonsingular_four
  have hy : (fourY : Fp) ≠ 0 := by
    have : ¬ (fourY % Config.fieldPrime = 0) := by decide +kernel
    rwa [Ne, ZMod.natCast_eq_zero_iff, Nat.dvd_iff_mod_eq_zero]
  have hn : curve.negY ((1 : Nat) : Fp) (fourY : Fp) = -(fourY : Fp) := by
    simp [WeierstrassCurve.Affine.negY]
  have h2y : 2 * (fourY : Fp) ≠ 0 := mul_ne_zero two_ne_zero_fp hy
  have hne : (fourY : Fp) ≠ curve.negY ((1 : Nat) : Fp) (fourY : Fp) := by
    rw [hn]; intro e; apply h2y; linear_combination e
  have hs : curve.slope ((1 : Nat) : Fp) ((1 : Nat) : Fp) (fourY : Fp) (fourY : Fp) = (fourY : Fp) := by
    rw [WeierstrassCurve.Affine.slope_of_Y_ne rfl hne, hn, div_eq_iff (by intro e; apply h2y; linear_combination e)]
    simp only [Nat.cast_one] at hc ⊢
    linear_combination (-2) * hc
  have hx : curve.addX ((1 : Nat) : Fp) ((1 : Nat) : Fp) (fourY : Fp) = 0 := by
    simp only [WeierstrassCurve.Affine.addX, Nat.cast_one] at hc ⊢
    linear_combination hc
  rw [show 4 = 2 * 2 from rfl, mul_smul, two_smul ℕ (.some _ _ nonsingular_four : curve.Point),
    WeierstrassCurve.Affine.Point.add_self_of_Y_ne hne, two_smul]
  apply WeierstrassCurve.Affine.Point.add_self_of_Y_eq
  simp only [WeierstrassCurve.Affine.negY, WeierstrassCurve.Affine.addY, WeierstrassCurve.Affine.negAddY, hs, hx]
  simp

/-- k = 1 for a point that is not O, k = 4 for one of order 4, fe(XB) = 0 with k = 2, and k = 1 for
any XB. -/
theorem witness_SmulComputesTheMultiple :
    haveI := fact_prime_fieldPrime
    (residue (latched 1 9 0 0 0 0).engine.latch.xb = ((9 : Nat) : Fp) ∧ ((9 : Nat) : Fp) ≠ 0 ∧
        1 ≤ (latched 1 9 0 0 0 0).engine.latch.k.toNat ∧
        (latched 1 9 0 0 0 0).engine.latch.k.toNat • basePoint = .some _ _ nonsingular_base) ∧
      (residue (latched 4 1 0 0 0 0).engine.latch.xb = ((1 : Nat) : Fp) ∧ ((1 : Nat) : Fp) ≠ 0 ∧
        1 ≤ (latched 4 1 0 0 0 0).engine.latch.k.toNat ∧
        (latched 4 1 0 0 0 0).engine.latch.k.toNat • (.some _ _ nonsingular_four : curve.Point) = 0) ∧
      residue (latched 2 pWord 0 0 0 0).engine.latch.xb = 0 ∧ 2 ≤ (latched 2 pWord 0 0 0 0).engine.latch.k.toNat ∧
      (latched 1 7 0 0 0 0).engine.latch.k = 1 := by
  have := fact_prime_fieldPrime
  refine ⟨⟨residue_small 9 (by norm_num), nine_ne_zero, by decide, ?_⟩,
    ⟨residue_small 1 (by norm_num), one_ne_zero_fp, by decide, ?_⟩, ?_, by decide, rfl⟩
  · have : (latched 1 9 0 0 0 0).engine.latch.k.toNat = 1 := by decide
    rw [this, one_smul]; rfl
  · have : (latched 4 1 0 0 0 0).engine.latch.k.toNat = 4 := by decide
    rw [this]; exact four_mul_four
  · rw [residue_eq_zero_iff]; decide +kernel

end Sys2Proof.Tests
end

section
/-! PROOFS. The state's rules: command words and the decoder, canonical writes, what an edge does to registers and
flags, and the invariant `Coherent`. -/

namespace Sys2Proof.Machine

/-! ## Legal words (R102) -/

/-- Once the reserved fields are 0, the decoder accepts the opcodes of R94, and the operand bit where R94 has one. -/
theorem isOk_decodeOpcode : ∀ (op : BitVec 4) (b : Bool),
    (decodeOpcode op b).isOk =
      ([1, 2, 3, 4, 5, 6].contains op.toNat && (b == false || [2, 4].contains op.toNat)) := by
  decide

/-- Field `B` is bit 8 (R90). -/
theorem extractLsb'_eight_beq_one (w : Word32) : (w.extractLsb' 8 1 == 1) = w.getLsbD 8 := by
  have h : w.extractLsb' 8 1 = BitVec.ofBool (w.getLsbD 8) :=
    BitVec.eq_of_getLsbD_eq fun i hi => by
      obtain rfl : i = 0 := by omega
      simp
  rw [h]
  cases w.getLsbD 8 <;> rfl

/-- The decoder accepts exactly the words of R102's predicate. -/
theorem isOk_decodeCmd (w : Word32) : (decodeCmd w).isOk = legalCommandWord w := by
  simp only [decodeCmd, legalCommandWord, CmdFields.ofWord, extractLsb'_eight_beq_one]
  by_cases h1 : w.extractLsb' 9 23 = 0
  · by_cases h0 : w.extractLsb' 4 4 = 0
    · rw [if_neg (not_not.2 h1), if_neg (not_not.2 h0), isOk_decodeOpcode, h1, h0]
      simp only [beq_self_eq_true, Bool.true_and]
    · rw [if_neg (not_not.2 h1), if_pos h0, beq_eq_false_iff_ne.2 h0]
      simp only [Bool.and_false, Bool.false_and]
      rfl
  · rw [if_pos h1, beq_eq_false_iff_ne.2 h1]
    simp only [Bool.false_and]
    rfl

theorem legal_of_decodeCmd {w : Word32} {i : Instr} (h : decodeCmd w = .ok i) : legalCommandWord w = true := by
  rw [← isOk_decodeCmd, h]
  rfl

/-- An illegal word written to the idle block is rejected (R96). -/
theorem writeCmd_of_illegal {s : State} {w : Word32} (hb : s.status.busy = false) (hw : legalCommandWord w = false) :
    s.writeCmd w = s.rejectIllegal codeIllegalCmd := by
  rw [State.writeCmd, hb, if_neg Bool.false_ne_true, State.issue]
  cases hd : decodeCmd w with
  | ok i => rw [legal_of_decodeCmd hd] at hw; cases hw
  | error e => rfl

/-! ## Canonical results (R24) -/

/-- Every word the writes carry is canonical. -/
def CanonicalWrites (l : List (WideReg × Word256)) : Prop := ∀ q ∈ l, q.2.toNat < Config.fieldPrime

theorem CanonicalWrites.append {l m : List (WideReg × Word256)} (hl : CanonicalWrites l) (hm : CanonicalWrites m) :
    CanonicalWrites (l ++ m) :=
  List.forall_mem_append.2 ⟨hl, hm⟩

theorem canonicalWrites_pm {q : Point} (h : CanonicalPoint q) : CanonicalWrites (writesPm q) := by
  simpa [CanonicalWrites, writesPm, CanonicalPoint] using h

theorem canonicalWrites_pp {q : Point} (h : CanonicalPoint q) : CanonicalWrites (writesPp q) := by
  simpa [CanonicalWrites, writesPp, CanonicalPoint] using h

theorem canonicalWrites_resx {v : Word256} (h : v.toNat < Config.fieldPrime) : CanonicalWrites [(.resx, v)] := by
  simpa [CanonicalWrites] using h

theorem trivialPoint_canonical (xb : Word256) : CanonicalPoint (trivialPoint xb) :=
  ⟨fieldCopy_lt xb, show oneWord.toNat < Config.fieldPrime by decide⟩

theorem ladderStep_canonical (pm pp : Point) (x1 : Word256) (b : Bool) :
    CanonicalPoint (ladderStep pm pp x1 b).1 ∧ CanonicalPoint (ladderStep pm pp x1 b).2 := by
  cases b with
  | false => exact ⟨dbl_canonical _, diffadd_canonical _ _ _⟩
  | true => exact ⟨diffadd_canonical _ _ _, dbl_canonical _⟩

theorem codeOk_le : codeOk.toNat ≤ 2 := by decide

/-- TOAFFINE's word is canonical, and its code OK or INV_ZERO (R178). -/
theorem toAffine_bounds (q : Point) :
    (toAffine q).1.toNat < Config.fieldPrime ∧ (toAffine q).2.toNat ≤ 2 := by
  unfold toAffine
  split
  · exact ⟨by decide, by decide⟩
  · exact ⟨fieldMul_lt _ _, codeOk_le⟩

/-- SMUL's word is canonical, and its code OK, INFINITY or INV_ZERO (R174). -/
theorem smulResult_bounds (k xb : Word256) :
    (smulResult k xb).1.toNat < Config.fieldPrime ∧ (smulResult k xb).2.toNat ≤ 2 := by
  unfold smulResult
  split
  · exact ⟨by decide, by decide⟩
  · split
    · exact ⟨fieldCopy_lt _, codeOk_le⟩
    · split
      · exact toAffine_bounds _
      · exact toAffine_bounds _

/-- A rule's writes are canonical, and its code is at most 2 (R24, R200). -/
theorem ruleWrites_bounds (i : Instr) (l : Latch) :
    CanonicalWrites (ruleWrites i l).1 ∧ (ruleWrites i l).2.toNat ≤ 2 := by
  cases i with
  | smul => exact ⟨canonicalWrites_resx (smulResult_bounds _ _).1, (smulResult_bounds _ _).2⟩
  | pdbl slot =>
    cases slot with
    | pm => exact ⟨canonicalWrites_pm (dbl_canonical _), codeOk_le⟩
    | pp => exact ⟨canonicalWrites_pp (dbl_canonical _), codeOk_le⟩
  | dadd => exact ⟨canonicalWrites_pp (diffadd_canonical _ _ _), codeOk_le⟩
  | lstep b =>
    obtain ⟨hm, hp⟩ := ladderStep_canonical l.pm l.pp l.xb b
    exact ⟨(canonicalWrites_pm hm).append (canonicalWrites_pp hp), codeOk_le⟩
  | linit =>
    exact ⟨(canonicalWrites_pm (trivialPoint_canonical _)).append (canonicalWrites_pp (dbl_canonical _)), codeOk_le⟩
  | affine => exact ⟨canonicalWrites_resx (toAffine_bounds _).1, (toAffine_bounds _).2⟩
  | fauCopy | fauSetui | fauAdd | fauSub | fauMul | fauSqr | fauMului | fauInv | fauIszero | fauEq =>
    exact ⟨fun _ h => absurd h List.not_mem_nil, codeOk_le⟩

/-- A rule writes the registers of R101's table. -/
theorem ruleWrites_regs (i : Instr) (l : Latch) : (ruleWrites i l).1.map Prod.fst = writtenRegs i := by
  cases i with
  | pdbl slot => cases slot <;> rfl
  | smul | dadd | lstep | linit | affine => rfl
  | fauCopy | fauSetui | fauAdd | fauSub | fauMul | fauSqr | fauMului | fauInv | fauIszero | fauEq => rfl

/-- No command writes K or XB (R101). -/
theorem ne_k_and_ne_xb_of_mem_writtenRegs {i : Instr} {g : WideReg} (h : g ∈ writtenRegs i) : g ≠ .k ∧ g ≠ .xb := by
  have hkx : .k ∉ writtenRegs i ∧ .xb ∉ writtenRegs i := by
    cases i with
    | pdbl slot => cases slot <;> simp [writtenRegs]
    | smul | dadd | lstep | linit | affine => simp [writtenRegs]
    | fauCopy | fauSetui | fauAdd | fauSub | fauMul | fauSqr | fauMului | fauInv | fauIszero | fauEq =>
      simp [writtenRegs]
  exact ⟨fun e => hkx.1 (e ▸ h), fun e => hkx.2 (e ▸ h)⟩

/-- A register among the writes is left with a word that was written to it. -/
theorem Regs.mem_of_get_setAll (r : Regs) (l : List (WideReg × Word256)) {g : WideReg} (h : g ∈ l.map Prod.fst) :
    (g, (r.setAll l).get g) ∈ l := by
  induction l generalizing r with
  | nil => cases h
  | cons q rest ih =>
    by_cases hr : g ∈ rest.map Prod.fst
    · exact List.mem_cons_of_mem _ (ih _ hr)
    · obtain rfl : g = q.1 := by simpa [hr] using h
      have hother : ∀ p ∈ rest, p.1 ≠ q.1 := fun p hp e => hr (by rw [← e]; exact List.mem_map_of_mem hp)
      rw [Regs.setAll, Regs.get_setAll_other _ _ hother, Regs.get_set_same]
      exact List.mem_cons_self

/-- A register a rule does not write keeps its word. -/
theorem Regs.get_setAll_ruleWrites_other (r : Regs) {i : Instr} (l : Latch) {g : WideReg} (h : g ∉ writtenRegs i) :
    (r.setAll (ruleWrites i l).1).get g = r.get g :=
  r.get_setAll_other _ fun q hq e => h (by rw [← ruleWrites_regs i l, ← e]; exact List.mem_map_of_mem hq)

/-- A register a rule writes is canonical afterwards. -/
theorem Regs.get_setAll_ruleWrites_lt (r : Regs) {i : Instr} (l : Latch) {g : WideReg} (h : g ∈ writtenRegs i) :
    ((r.setAll (ruleWrites i l).1).get g).toNat < Config.fieldPrime :=
  (ruleWrites_bounds i l).1 _ (r.mem_of_get_setAll _ (by rwa [ruleWrites_regs]))

/-- Settles O21: a command completes with its rule's writes, and these are canonical. -/
theorem commandResultsAreCanonical : Obligations.CommandResultsAreCanonical := by
  intro i s t hi ht g hg
  rw [exec_command hi] at ht
  cases ht
  have hlt := s.regs.get_setAll_ruleWrites_lt s.engine.latch hg
  exact ⟨hlt, Nat.testBit_lt_two_pow (hlt.trans fieldPrime_lt)⟩

/-! ## Reads (R25) -/

/-- Settles O33: K reads 0, and no other read looks at K or at the engine. -/
theorem scalarCannotBeReadBack : Obligations.ScalarCannotBeReadBack := by
  intro s k e off
  unfold busRead
  cases target off with
  | misaligned | reserved | id | ctrl | status | cmd => rfl
  | wide g j => cases g <;> rfl

/-! ## Reset and `irq` (R37, R42) -/

theorem step_of_rstLow {s : State} {d : Option Transfer} {rest : List Input} (h : s.env.inputs = .rstLow d :: rest) :
    step s = .next (s.resetEdge d rest) := by
  rw [step, clockEdge, h]

theorem irq_eq {s : State} (h : s.powerLost = false) : s.irq = (s.status.ie && s.status.done) := by
  rw [State.irq, State.observed_eq h]

/-- Settles O39: a reset edge leaves `State.reset` but for what is not the block's. -/
theorem resetRestoresEveryValue : Obligations.ResetRestoresEveryValue := by
  intro s d rest h
  refine ⟨_, step_of_rstLow h, fun g => by cases g <;> rfl, rfl, rfl, rfl, rfl, rfl, rfl, rfl, fun _ => rfl, rfl, rfl,
    rfl, rfl, ?_, ?_⟩
  · rintro off rfl
    rfl
  · rintro off v rfl
    rfl

/-- Settles O40: DONE is 0 at a start and 1 at an illegal word and at a completion. -/
theorem irqFollowsEnableAndDone : Obligations.IrqFollowsEnableAndDone := by
  intro s hp
  refine ⟨irq_eq hp, fun i w => ?_, fun w hb hw => ?_, fun i t hi ht => ?_⟩
  · exact (irq_eq (s := s.startCommand i w) hp).trans (Bool.and_false _)
  · rw [writeCmd_of_illegal hb hw]
    exact (irq_eq (s := s.rejectIllegal codeIllegalCmd) hp).trans (Bool.and_true _)
  · rw [exec_command hi] at ht
    cases ht
    exact (irq_eq (s := s.complete _ _) hp).trans (Bool.and_true _)

/-! ## What an edge does to registers and flags -/

/-- The FAU and the engine change registers and flags at a completion only, by the command's rule (R98, R99). -/
theorem engineEdge_regs_status {s u : State} (h : engineEdge s = .next u) :
    (s.commitDue = true ∧ ∃ i, decodeCmd s.engine.latch.word = .ok i ∧
      u.regs = s.regs.setAll (ruleWrites i s.engine.latch).1 ∧
      u.status = { s.status with busy := false, done := true, result := (ruleWrites i s.engine.latch).2 }) ∨
    (s.commitDue = false ∧ u.regs = s.regs ∧ u.status = s.status) := by
  have hopen : s.fau.txn ≠ .idle → s.commitDue = false := fun hne =>
    Bool.eq_false_iff.2 fun hc => hne ((commitDue_iff s).1 hc).2.1
  rcases engineEdge_cases h with ⟨r, n, hr, rfl⟩ | ⟨r, n, hr, rfl⟩ | ⟨r, n, hr, rfl⟩ |
    ⟨r, i, v, e, hr, -, -, rfl⟩ | ⟨hc, i, hi, rfl⟩ | ⟨-, hc, -, rfl⟩ | ⟨-, hb, rfl⟩
  · exact .inr ⟨hopen (by simp [hr]), rfl, rfl⟩
  · exact .inr ⟨hopen (by simp [hr]), rfl, rfl⟩
  · exact .inr ⟨hopen (by simp [hr]), rfl, rfl⟩
  · obtain ⟨hregs, hstatus, -⟩ := absorb_keeps (s.clearRsp.respond v e)
    exact .inr ⟨hopen (by simp [hr]), hregs, hstatus⟩
  · exact .inl ⟨hc, i, hi, rfl, rfl⟩
  · obtain ⟨hregs, hstatus, -⟩ := engineTurn_keeps s.clearRsp
    exact .inr ⟨hc, hregs, hstatus⟩
  · exact .inr ⟨by simp [State.commitDue, hb], rfl, rfl⟩

/-- The host changes a 256-bit register by a write to one of its words only (R67). -/
theorem hostAct_get_ne {s : State} {g : WideReg} (h : s.hostAct.regs.get g ≠ s.regs.get g) :
    g ≠ .resx ∧ ∃ j v, s.nextInput = .wr (wordOffset g j) v := by
  rcases hostAct_cases s with ⟨e, he⟩ | ⟨-, off, v, e, hin, he⟩
  · exact absurd (by rw [he]) h
  · replace h : (busWrite s off v).1.regs.get g ≠ s.regs.get g := by rwa [he] at h
    rcases busWrite_cases s off v with hw | ⟨-, hw⟩ | ⟨-, hw⟩ | ⟨-, -, hw⟩ | ⟨-, -, hw⟩ | ⟨-, -, i, -, hw⟩ |
      ⟨-, g', j, hg', htgt, hw⟩ <;> rw [hw] at h
    · exact absurd rfl h
    · exact absurd rfl h
    · exact absurd rfl h
    · exact absurd rfl h
    · exact absurd rfl h
    · exact absurd rfl h
    · obtain rfl : g = g' := by_contra fun hne => h (s.regs.get_set_other _ hne)
      exact ⟨hg', j, v, by rw [hin, (eq_offset_of_target off).1 g j htgt]⟩

theorem Status.writeStatus_overrun (t : Status) (v : Word32) :
    (t.writeStatus v).overrun = (t.overrun && !v.getLsbD 8) := rfl

theorem Status.writeStatus_done (t : Status) (v : Word32) : (t.writeStatus v).done = (t.done && !v.getLsbD 1) := rfl

/-- What the host does to OVERRUN: nothing, a clear by bit 8 of a STATUS write, or a set by a dropped write (R34,
R69). -/
theorem hostAct_overrun (s : State) :
    s.hostAct.status.overrun = s.status.overrun ∨
    (s.hostAct.status.overrun = false ∧ ∃ v, s.nextInput = .wr statusOffset v ∧ v.getLsbD 8 = true) ∨
    (s.hostAct.status.overrun = true ∧ s.status.busy = true ∧ ((∃ v, s.nextInput = .wr cmdOffset v) ∨
      ∃ g j v, g ≠ .resx ∧ s.nextInput = .wr (wordOffset g j) v)) := by
  rcases hostAct_cases s with ⟨e, he⟩ | ⟨-, off, v, e, hin, he⟩
  · exact .inl (by rw [he])
  · obtain ⟨hwide, hstatus, hcmd⟩ := eq_offset_of_target off
    have hover : s.hostAct.status.overrun = (busWrite s off v).1.status.overrun := by rw [he]
    rw [hover, hin]
    rcases busWrite_cases s off v with hw | ⟨-, hw⟩ | ⟨htgt, hw⟩ | ⟨hb, htgt, hw⟩ | ⟨-, -, hw⟩ | ⟨-, -, i, -, hw⟩ |
      ⟨-, g, j, -, -, hw⟩
    · exact .inl (by rw [hw])
    · exact .inl (by rw [hw]; rfl)
    · rw [hw, hstatus htgt]
      cases hbit : v.getLsbD 8 with
      | true =>
        exact .inr (.inl ⟨by rw [Status.writeStatus_overrun, hbit, Bool.not_true, Bool.and_false], v, rfl, hbit⟩)
      | false => exact .inl (by rw [Status.writeStatus_overrun, hbit, Bool.not_false, Bool.and_true])
    · refine .inr (.inr ⟨by rw [hw]; rfl, hb, ?_⟩)
      rcases htgt with htgt | ⟨g, j, hg, htgt⟩
      · exact .inl ⟨v, by rw [hcmd htgt]⟩
      · exact .inr ⟨g, j, v, hg, by rw [hwide g j htgt]⟩
    · exact .inl (by rw [hw]; rfl)
    · exact .inl (by rw [hw]; rfl)
    · exact .inl (by rw [hw])

/-- After a clock stop the host touches none of the block's state (R219). -/
theorem hostAct_of_powerLost {s : State} (h : s.powerLost = true) : ∃ e, s.hostAct = { s with env := e } := by
  rcases hostAct_cases s with he | ⟨hp, -⟩
  · exact he
  · rw [h] at hp
    cases hp

/-- The FAU and the engine do not touch the inputs. -/
theorem engineEdge_nextInput {s u : State} (h : engineEdge s = .next u) : u.nextInput = s.nextInput := by
  rw [State.nextInput, (engineEdge_keeps h).1, State.nextInput]

theorem nextInput_of_cons {s : State} {a : Input} {rest : List Input} (h : s.env.inputs = a :: rest) :
    s.nextInput = a := by
  rw [State.nextInput, h, List.headD_cons]

/-- Settles O42: at an edge the engine writes at a completion, then the host writes a word. -/
theorem registersChangeOnlyByTheirWriters : Obligations.RegistersChangeOnlyByTheirWriters := by
  intro s t g hstep hne
  rcases step_cases hstep with ⟨d, rest, hin, rfl⟩ | ⟨rest, -, rfl⟩ | ⟨hp, -, rfl⟩ | ⟨-, -, u, hu, rfl⟩
  · exact .inl ⟨d, nextInput_of_cons hin⟩
  · exact absurd rfl hne
  · obtain ⟨e, he⟩ := hostAct_of_powerLost hp
    exact absurd (by rw [State.tick_regs, he]) hne
  · by_cases hhost : u.hostAct.regs.get g = u.regs.get g
    · replace hne : u.regs.get g ≠ s.regs.get g := fun h => hne (hhost.trans h)
      rcases engineEdge_regs_status hu with ⟨hc, i, hi, hregs, -⟩ | ⟨-, hregs, -⟩
      · have hg : g ∈ writtenRegs i := by_contra fun hg =>
          hne (by rw [hregs, Regs.get_setAll_ruleWrites_other _ _ hg])
        exact .inr (.inr ⟨hc, i, hi, hg, ne_k_and_ne_xb_of_mem_writtenRegs hg⟩)
      · exact absurd (by rw [hregs]) hne
    · rw [← engineEdge_nextInput hu]
      exact .inr (.inl (hostAct_get_ne hhost))

/-- What an edge does to OVERRUN: the engine keeps it, and where it leaves BUSY = 1 for the host's write it was running
and is not at its completion edge (R34, R74). -/
theorem step_overrun {s t : State} (h : step s = .next t) :
    t.status.overrun = s.status.overrun ∨
    (t.status.overrun = false ∧
      ((∃ d, s.nextInput = .rstLow d) ∨ ∃ v, s.nextInput = .wr statusOffset v ∧ v.getLsbD 8 = true)) ∨
    (t.status.overrun = true ∧ s.status.busy = true ∧ s.commitDue = false ∧
      ((∃ v, s.nextInput = .wr cmdOffset v) ∨ ∃ g j v, g ≠ .resx ∧ s.nextInput = .wr (wordOffset g j) v)) := by
  rcases step_cases h with ⟨d, rest, hin, rfl⟩ | ⟨rest, -, rfl⟩ | ⟨hp, -, rfl⟩ | ⟨-, -, u, hu, rfl⟩
  · exact .inr (.inl ⟨rfl, .inl ⟨d, nextInput_of_cons hin⟩⟩)
  · exact .inl rfl
  · obtain ⟨e, he⟩ := hostAct_of_powerLost hp
    exact .inl (by rw [State.tick_status, he])
  · rw [State.tick_status, ← engineEdge_nextInput hu]
    rcases engineEdge_regs_status hu with ⟨-, i, -, -, hstatus⟩ | ⟨hc, -, hstatus⟩
    · rcases hostAct_overrun u with hkept | ⟨hclear, hwrite⟩ | ⟨-, hb, -⟩
      · exact .inl (by rw [hkept, hstatus])
      · exact .inr (.inl ⟨hclear, .inr hwrite⟩)
      · rw [hstatus] at hb
        cases hb
    · rw [← hstatus]
      rcases hostAct_overrun u with hkept | ⟨hclear, hwrite⟩ | ⟨hset, hb, hwrite⟩
      · exact .inl hkept
      · exact .inr (.inl ⟨hclear, .inr hwrite⟩)
      · exact .inr (.inr ⟨hset, hb, hc, hwrite⟩)

/-- Settles O43: by what an edge can do to OVERRUN. -/
theorem overrunIsSticky : Obligations.OverrunIsSticky := by
  intro s t hstep
  rcases step_overrun hstep with hkept | ⟨hclear, hwhy⟩ | ⟨hset, hwhy⟩
  · rw [hkept]
    exact ⟨fun h1 h0 => absurd (h0.symm.trans h1) Bool.false_ne_true,
      fun h0 h1 => absurd (h0.symm.trans h1) Bool.false_ne_true⟩
  · exact ⟨fun _ _ => hwhy, fun _ h1 => absurd (hclear.symm.trans h1) Bool.false_ne_true⟩
  · exact ⟨fun _ h0 => absurd (h0.symm.trans hset) Bool.false_ne_true, fun _ _ => hwhy⟩

/-! ## Coherence -/

/-- An idle block is coherent when RESULT and RESX are in range and no request is open. -/
theorem coherent_of_idle {s : State} (hb : s.status.busy = false) (hresult : s.status.result.toNat ≤ 3)
    (hresx : s.regs.resx.toNat < Config.fieldPrime) (htxn : s.fau.txn = .idle) : Coherent s where
  result_defined := hresult
  resx_canonical := hresx
  latched_legal h := absurd (hb.symm.trans h) Bool.false_ne_true
  busy_not_done h := absurd (hb.symm.trans h) Bool.false_ne_true
  operands_held h := absurd (hb.symm.trans h) Bool.false_ne_true
  idle_no_request _ := htxn
  request_presentable := by rw [htxn]; rfl

/-- Registers, flags and latch kept, and any presentable transaction while busy, or none. -/
theorem Coherent.of_frame {s t : State} (h : Coherent s) (hregs : t.regs = s.regs) (hstatus : t.status = s.status)
    (hlatch : t.engine.latch = s.engine.latch) (hidle : s.status.busy = false → t.fau.txn = .idle)
    (hreq : t.fau.txn.presentable = true) : Coherent t where
  result_defined := by rw [hstatus]; exact h.result_defined
  resx_canonical := by rw [hregs]; exact h.resx_canonical
  latched_legal := by rw [hstatus, hlatch]; exact h.latched_legal
  busy_not_done := by rw [hstatus]; exact h.busy_not_done
  operands_held := by rw [hstatus, hlatch, hregs]; exact h.operands_held
  idle_no_request := by rw [hstatus]; exact hidle
  request_presentable := hreq

/-- An open request goes on, waiting or transferred, as the same request. -/
theorem Coherent.setTxn {s : State} (h : Coherent s) (hne : s.fau.txn ≠ .idle) {x : FauTxn}
    (hx : x.presentable = s.fau.txn.presentable) : Coherent (s.clearRsp.setTxn x) :=
  h.of_frame rfl rfl rfl (fun hb => absurd (h.idle_no_request hb) hne) (hx.trans h.request_presentable)

theorem coherent_reset : Coherent State.reset :=
  coherent_of_idle rfl (by decide) (by decide) rfl

/-- Settles O45: the block is idle after reset. -/
theorem resetStateIsCoherent : Obligations.ResetStateIsCoherent :=
  ⟨coherent_reset, fun h => absurd h Bool.false_ne_true⟩

/-- The engine's own step presents only operations R137 allows, and only while it runs. -/
theorem coherent_engineTurn {s : State} (h : Coherent s) (hb : s.status.busy = true) : Coherent s.engineTurn := by
  obtain ⟨hregs, hstatus, -, -, -, hlatch⟩ := engineTurn_keeps s
  refine h.of_frame hregs hstatus hlatch (fun hf => absurd (hf.symm.trans hb) Bool.false_ne_true) ?_
  rcases engineTurn_cases s with ⟨n, -, ht⟩ | ⟨u, rest, -, -, ht⟩ | ⟨-, -, ht⟩ <;> rw [ht]
  · exact h.request_presentable
  · exact presentable_request _ _
  · exact h.request_presentable

/-- A completion leaves RESULT and RESX in range (R24, R200). -/
theorem coherent_complete {s : State} (h : Coherent s) (htxn : s.fau.txn = .idle) (i : Instr) (l : Latch) :
    Coherent (s.complete (ruleWrites i l).1 (ruleWrites i l).2) := by
  refine coherent_of_idle rfl ((ruleWrites_bounds i l).2.trans (by decide)) ?_ htxn
  by_cases hg : .resx ∈ writtenRegs i
  · exact s.regs.get_setAll_ruleWrites_lt l hg
  · have hkept := s.regs.get_setAll_ruleWrites_other l hg
    exact (congrArg BitVec.toNat hkept).trans_lt h.resx_canonical

theorem coherent_engineEdge {s u : State} (h : Coherent s) (hu : engineEdge s = .next u) : Coherent u := by
  have hclear : Coherent s.clearRsp := h.of_frame rfl rfl rfl h.idle_no_request h.request_presentable
  rcases engineEdge_cases hu with ⟨r, n, hr, rfl⟩ | ⟨r, n, hr, rfl⟩ | ⟨r, n, hr, rfl⟩ |
    ⟨r, i, v, e, hr, -, -, rfl⟩ | ⟨hc, i, -, rfl⟩ | ⟨-, -, hb, rfl⟩ | ⟨-, -, rfl⟩
  · exact h.setTxn (by simp [hr]) (by rw [hr]; rfl)
  · exact h.setTxn (by simp [hr]) (by rw [hr]; rfl)
  · exact h.setTxn (by simp [hr]) (by rw [hr]; rfl)
  · obtain ⟨hregs, hstatus, -, -, -, hfau, hlatch⟩ := absorb_keeps (s.clearRsp.respond v e)
    exact h.of_frame hregs hstatus hlatch (fun _ => by rw [hfau]; rfl) (by rw [hfau]; rfl)
  · obtain ⟨-, htxn, -⟩ := (commitDue_iff s).1 hc
    have hsettled : Coherent s.settled :=
      h.of_frame rfl rfl (Engine.settle_latch _) h.idle_no_request h.request_presentable
    exact coherent_complete hsettled htxn i _
  · exact coherent_engineTurn hclear hb
  · exact hclear

/-- A legal word captures the operands as it starts the command (R97). -/
theorem coherent_startCommand {s : State} (h : Coherent s) {i : Instr} {w : Word32} (hw : decodeCmd w = .ok i) :
    Coherent (s.startCommand i w) where
  result_defined := h.result_defined
  resx_canonical := h.resx_canonical
  latched_legal _ := legal_of_decodeCmd hw
  busy_not_done _ := rfl
  operands_held _ := rfl
  idle_no_request hb := absurd hb.symm Bool.false_ne_true
  request_presentable := h.request_presentable

theorem coherent_busWrite {s : State} (h : Coherent s) (off : Offset) (v : Word32) :
    Coherent (busWrite s off v).1 := by
  rcases busWrite_cases s off v with hw | ⟨-, hw⟩ | ⟨-, hw⟩ | ⟨-, -, hw⟩ | ⟨hb, -, hw⟩ | ⟨-, -, i, hi, hw⟩ |
    ⟨hb, g, j, hg, -, hw⟩ <;> rw [hw]
  · exact h
  · exact { h with }
  · exact { h with busy_not_done := fun hb => by rw [Status.writeStatus_done, h.busy_not_done hb, Bool.false_and] }
  · exact { h with }
  · exact coherent_of_idle hb (show codeIllegalCmd.toNat ≤ 3 by decide) h.resx_canonical (h.idle_no_request hb)
  · exact coherent_startCommand h hi
  · refine coherent_of_idle hb h.result_defined ?_ (h.idle_no_request hb)
    have hkept := s.regs.get_set_other (setWordOf (s.regs.get g) j v) hg.symm
    exact (congrArg BitVec.toNat hkept).trans_lt h.resx_canonical

theorem coherent_hostAct {s : State} (h : Coherent s) : Coherent s.hostAct := by
  rcases hostAct_cases s with ⟨e, he⟩ | ⟨-, off, v, e, -, he⟩ <;> rw [he]
  · exact { h with }
  · exact { coherent_busWrite h off v with }

/-- Settles O46: reset is coherent, a clock stop keeps the words, and the FAU, the engine and the host keep coherence;
`Coherent` does not look at the surroundings, the edge count or the mark of a clock stop. -/
theorem everyStepKeepsCoherence : Obligations.EveryStepKeepsCoherence := by
  intro s t h hstep
  rcases step_cases hstep with ⟨d, rest, -, rfl⟩ | ⟨rest, -, rfl⟩ | ⟨-, -, rfl⟩ | ⟨-, -, u, hu, rfl⟩
  · exact { coherent_reset with }
  · exact { h with }
  · exact { coherent_hostAct h with }
  · exact { coherent_hostAct (coherent_engineEdge h hu) with }

end Sys2Proof.Machine
end

section
/-! PROOFS. The host port: what an offset selects, what a read answers, what a write does to an idle and to a busy
block, and the host's statements at a completion edge. -/

namespace Sys2Proof.Machine

/-! ## The address map (R73) -/

theorem wideAt_eq_none_iff : ∀ n, wideAt n = none ↔ n = 0 ∨ 8 ≤ n
  | 0 => by simp [wideAt]
  | 1 | 2 | 3 | 4 | 5 | 6 | 7 => by simp [wideAt]
  | n + 8 => by simp [wideAt]

/-- The reserved offsets are those of R73's table: between the control words and K, and above RESX. -/
theorem target_eq_reserved_iff (off : Offset) :
    target off = .reserved ↔
      off.toNat % 4 = 0 ∧ ((0x010 ≤ off.toNat ∧ off.toNat ≤ 0x01C) ∨ 0x100 ≤ off.toNat) := by
  have hwide := wideAt_eq_none_iff (off.toNat / 4 / 8)
  unfold target
  split
  next hmis => exact iff_of_false nofun fun h => hmis h.1
  next halign =>
    split
    case h_5 h0 h1 h2 h3 =>
      rw [imp_false] at h0 h1 h2 h3
      split
      next g hg =>
        have hmapped := mt hwide.2 (by simp [hg])
        exact iff_of_false nofun (by omega)
      next hg =>
        have hunmapped := hwide.1 hg
        exact iff_of_true rfl (by omega)
    all_goals exact iff_of_false nofun (by omega)

theorem target_eq_misaligned {off : Offset} (h : off.toNat % 4 ≠ 0) : target off = .misaligned := if_pos h

/-- Settles O23: a word of a register is at its `wordOffset`, and the reserved offsets are R73's. -/
theorem addressMapPlacesTheRegisters : Obligations.AddressMapPlacesTheRegisters := by
  refine ⟨fun j => ⟨target_wordOffset .k j, target_wordOffset .xb j, target_wordOffset .pmx j,
    target_wordOffset .pmz j, target_wordOffset .ppx j, target_wordOffset .ppz j, target_wordOffset .resx j⟩,
    rfl, target_ctrlOffset, target_statusOffset, target_cmdOffset, fun off halign => ?_⟩
  rw [target_eq_reserved_iff, and_iff_right halign]

/-! ## Bus errors (R70, R71) -/

/-- Where nothing is mapped, a transfer is answered with an error, and a read with 0. -/
theorem transfer_of_unmapped {off : Offset} (h : target off = .misaligned ∨ target off = .reserved) (s : State)
    (v : Word32) : busRead s off = (0, true) ∧ busWrite s off v = (s, true) := by
  unfold busRead busWrite
  rcases h with h | h <;> rw [h] <;> exact ⟨rfl, rfl⟩

/-- Settles O24: a misaligned or reserved offset selects nothing. -/
theorem busErrorsChangeNothing : Obligations.BusErrorsChangeNothing := by
  intro s off v h
  refine transfer_of_unmapped ?_ s v
  by_cases halign : off.toNat % 4 = 0
  · exact .inr ((target_eq_reserved_iff off).2 ⟨halign, h.resolve_left (not_not.2 halign)⟩)
  · exact .inl (target_eq_misaligned halign)

/-! ## Reads (R66, R68) -/

theorem busRead_id (s : State) : busRead s 0x000 = (Config.idWord, false) := rfl
theorem busRead_ctrl (s : State) : busRead s 0x004 = (s.status.ctrlWord, false) := rfl
theorem busRead_status (s : State) : busRead s 0x008 = (s.status.statusWord, false) := rfl
theorem busRead_cmd (s : State) : busRead s 0x00C = (0, false) := rfl

@[simp] theorem busRead_wordOffset (s : State) (g : WideReg) (j : Fin 8) :
    busRead s (wordOffset g j) = (s.readWide g j, false) := by
  rw [busRead, target_wordOffset]

theorem State.readWide_k (s : State) (j : Fin 8) : s.readWide .k j = 0 := if_pos rfl

theorem State.readWide_xb (s : State) (j : Fin 8) : s.readWide .xb j = wordOf s.regs.xb j := by
  simp [State.readWide, WideReg.unspecifiedWhileBusy]

theorem State.readWide_of_idle {s : State} (hb : s.status.busy = false) {g : WideReg} (hg : g ≠ .k) (j : Fin 8) :
    s.readWide g j = wordOf (s.regs.get g) j := by
  simp [State.readWide, hg, hb]

/-- A busy block answers a read of a slot or of RESX with the free value of the edge (R68). -/
theorem State.readWide_of_busy {s : State} (hb : s.status.busy = true) {g : WideReg} (hk : g ≠ .k) (hx : g ≠ .xb)
    (j : Fin 8) : s.readWide g j = Config.busyRead s.edge := by
  have hg : g.unspecifiedWhileBusy = true := by
    cases g with
    | k => exact absurd rfl hk
    | xb => exact absurd rfl hx
    | pmx | pmz | ppx | ppz | resx => rfl
  simp [State.readWide, hk, hb, hg]

theorem Status.toNat_ctrlWord (t : Status) : t.ctrlWord.toNat = t.ie.toNat := by
  rw [Status.ctrlWord, BitVec.toNat_setWidth, BitVec.toNat_ofBool, Nat.mod_eq_of_lt]
  exact (Bool.toNat_lt _).trans (by decide)

theorem toNat_append_eq_add {m n : Nat} (x : BitVec m) (y : BitVec n) :
    (x ++ y).toNat = x.toNat * 2 ^ n + y.toNat := by
  rw [BitVec.toNat_append, ← Nat.shiftLeft_add_eq_or_of_lt y.isLt, Nat.shiftLeft_eq]

/-- Where the fields of STATUS stand in its word (R34). -/
theorem Status.toNat_statusWord (t : Status) :
    t.statusWord.toNat = t.busy.toNat + 2 * t.done.toNat + 16 * t.result.toNat + 256 * t.overrun.toNat := by
  simp only [Status.statusWord, toNat_append_eq_add, BitVec.toNat_ofBool, BitVec.ofNat_eq_ofNat, BitVec.toNat_zero]
  omega

theorem Status.statusWord_busy (t : Status) : t.statusWord.getLsbD 0 = t.busy := by
  rw [Status.statusWord, BitVec.getLsbD_append]
  simp

theorem Status.statusWord_done (t : Status) : t.statusWord.getLsbD 1 = t.done := by
  rw [Status.statusWord, BitVec.getLsbD_append, BitVec.getLsbD_append]
  simp

/-- Settles O25: each mapped offset by what it selects. -/
theorem readsReturnTheMappedWord : Obligations.ReadsReturnTheMappedWord := by
  intro s j
  refine ⟨busRead_id s, rfl, ?_, rfl, ?_, busRead_cmd s, ?_, ?_, fun g hg => ?_⟩
  · rw [busRead_ctrl, Status.toNat_ctrlWord]
  · rw [busRead_status, Status.toNat_statusWord]
  · rw [busRead_wordOffset, State.readWide_k]
  · rw [busRead_wordOffset, State.readWide_xb]
  · rw [busRead_wordOffset]
    exact ⟨rfl, fun hb => State.readWide_of_idle hb hg j⟩

/-- Settles O34: the answer is the free value of the edge. -/
theorem busyReadTellsNothing : Obligations.BusyReadTellsNothing := by
  intro s r e g j hb hk hx
  rw [busRead_wordOffset, busRead_wordOffset, State.readWide_of_busy hb hk hx]
  exact ⟨congrArg (·, false) (State.readWide_of_busy (s := { s with regs := r, engine := e }) hb hk hx j), rfl⟩

/-! ## Writes (R67, R69) -/

theorem busWrite_id (s : State) (v : Word32) : busWrite s 0x000 v = (s, false) := rfl
theorem busWrite_ctrl (s : State) (v : Word32) :
    busWrite s 0x004 v = ({ s with status := s.status.writeCtrl v }, false) := rfl
theorem busWrite_status (s : State) (v : Word32) :
    busWrite s 0x008 v = ({ s with status := s.status.writeStatus v }, false) := rfl
theorem busWrite_cmd (s : State) (v : Word32) : busWrite s 0x00C v = (s.writeCmd v, false) := rfl

@[simp] theorem busWrite_wordOffset (s : State) (g : WideReg) (j : Fin 8) (v : Word32) :
    busWrite s (wordOffset g j) v = (s.writeWide g j v, false) := by
  rw [busWrite, target_wordOffset]

theorem State.writeWide_resx (s : State) (j : Fin 8) (v : Word32) : s.writeWide .resx j v = s := if_pos rfl

theorem State.writeWide_of_idle {s : State} (hb : s.status.busy = false) {g : WideReg} (hg : g ≠ .resx) (j : Fin 8)
    (v : Word32) : s.writeWide g j v = { s with regs := s.regs.set g (setWordOf (s.regs.get g) j v) } := by
  simp [State.writeWide, hg, hb]

theorem State.writeWide_of_busy {s : State} (hb : s.status.busy = true) {g : WideReg} (hg : g ≠ .resx) (j : Fin 8)
    (v : Word32) : s.writeWide g j v = s.dropWrite := by
  simp [State.writeWide, hg, hb]

theorem State.writeCmd_of_busy {s : State} (hb : s.status.busy = true) (w : Word32) : s.writeCmd w = s.dropWrite :=
  if_pos hb

/-- A legal word written to the idle block starts its command (R97). -/
theorem writeCmd_of_legal {s : State} {w : Word32} (hb : s.status.busy = false) (hw : legalCommandWord w = true) :
    ∃ i, s.writeCmd w = s.startCommand i w := by
  rw [State.writeCmd, hb, if_neg Bool.false_ne_true, State.issue]
  cases hd : decodeCmd w with
  | ok i => exact ⟨i, rfl⟩
  | error e =>
    rw [← isOk_decodeCmd, hd] at hw
    cases hw

theorem Regs.wordOf_get_set_setWordOf_same (r : Regs) (g : WideReg) (j : Fin 8) (v : Word32) :
    wordOf ((r.set g (setWordOf (r.get g) j v)).get g) j = v := by
  rw [Regs.get_set_same, wordOf_setWordOf_same]

theorem Regs.wordOf_get_set_setWordOf_other (r : Regs) (g : WideReg) {m j : Fin 8} (v : Word32) (h : m ≠ j) :
    wordOf ((r.set g (setWordOf (r.get g) j v)).get g) m = wordOf (r.get g) m := by
  rw [Regs.get_set_same, wordOf_setWordOf_other _ _ h]

/-- Settles O26: an idle block sets the one word. -/
theorem writesReplaceOneWord : Obligations.WritesReplaceOneWord := by
  intro s g j v hg hb
  rw [busWrite_wordOffset, State.writeWide_of_idle hb hg]
  exact ⟨rfl, s.regs.wordOf_get_set_setWordOf_same g j v, fun _ hm => s.regs.wordOf_get_set_setWordOf_other g v hm,
    fun _ hne => s.regs.get_set_other _ hne, rfl⟩

/-- Settles O27: a busy block drops the write. -/
theorem busyWritesAreDropped : Obligations.BusyWritesAreDropped := by
  intro s v hb
  refine ⟨?_, fun g j hg => ?_⟩
  · rw [busWrite_cmd, State.writeCmd_of_busy hb]
    rfl
  · rw [busWrite_wordOffset, State.writeWide_of_busy hb hg]
    rfl

theorem Status.writeStatus_eq (t : Status) (v : Word32) :
    t.writeStatus v =
      { t with
        done := if v.toNat.testBit 1 then false else t.done
        overrun := if v.toNat.testBit 8 then false else t.overrun } := by
  have clear (b f : Bool) : (f && !b) = if b then false else f := by cases b <;> simp
  exact congrArg₂ (fun d o => { t with done := d, overrun := o }) (clear _ _) (clear _ _)

/-- Settles O28: the two control words by their write rules, ID and RESX read-only. -/
theorem controlWritesTouchTheirBitsOnly : Obligations.ControlWritesTouchTheirBitsOnly := by
  intro s j v
  refine ⟨busWrite_id s v, ?_, busWrite_ctrl s v, ?_⟩
  · rw [busWrite_wordOffset, State.writeWide_resx]
  · rw [busWrite_status, Status.writeStatus_eq]

/-! ## The host's statements (R104) -/

theorem inputs_of_nextInput {s : State} {a : Input} (h : s.nextInput = a) (ha : a ≠ .quiet) :
    ∃ rest, s.env.inputs = a :: rest := by
  unfold State.nextInput at h
  cases hin : s.env.inputs with
  | nil => exact absurd (by rw [← h, hin]; rfl) ha
  | cons b rest =>
    rw [hin] at h
    exact ⟨rest, by rw [← h]; rfl⟩

theorem hostAct_of_rd {s : State} {off : Offset} {rest : List Input} (h : s.env.inputs = .rd off :: rest) :
    s.hostAct = s.hostRd off rest := by
  rw [State.hostAct, h]

theorem hostAct_of_rdEq {s : State} {off : Offset} {v : Word32} {rest : List Input}
    (h : s.env.inputs = .rdEq off v :: rest) :
    s.hostAct = (s.hostRd off rest).countMismatch (decide ((busRead s.observed off).1 ≠ v)) := by
  rw [State.hostAct, h]

/-- What a read statement leaves with the host: the answer, and the word as the statement's value. -/
theorem hostRd_env {s : State} (hp : s.powerLost = false) (off : Offset) (rest : List Input) :
    (s.hostRd off rest).env =
      { inputs := rest
        resp := some (.read (busRead s off).1 (busRead s off).2)
        mismatches := s.env.mismatches
        values := (busRead s off).1 :: s.env.values } := by
  rw [State.hostRd, State.hostRead, State.observed_eq hp]
  rfl

/-- Settles O32: the statements touch the host's side only. -/
theorem hostReadsHaveNoSideEffect : Obligations.HostReadsHaveNoSideEffect := by
  intro s off v inp rest hinp hin
  rcases hinp with rfl | rfl
  · rw [hostAct_of_rd hin]
    refine ⟨rfl, rfl, rfl, rfl, rfl, rfl, rfl, fun hp => ?_⟩
    rw [hostRd_env hp]
    exact ⟨rfl, rfl, by simp⟩
  · rw [hostAct_of_rdEq hin]
    refine ⟨rfl, rfl, rfl, rfl, rfl, rfl, rfl, fun hp => ?_⟩
    rw [State.countMismatch_env, hostRd_env hp, State.observed_eq hp]
    exact ⟨rfl, rfl, by simp [Bool.toNat, Bool.cond_decide]⟩

/-- `rd`, `rd ==` and `poll` are answered with the word at their offset (R66, R104). -/
theorem hostAct_resp_of_read {s : State} (hp : s.powerLost = false) {off : Offset}
    (h : s.nextInput = .rd off ∨ (s.nextInput = .poll ∧ off = statusOffset) ∨ ∃ v, s.nextInput = .rdEq off v) :
    s.hostAct.env.resp = some (.read (busRead s off).1 (busRead s off).2) := by
  rcases h with h | ⟨h, rfl⟩ | ⟨v, h⟩ <;> obtain ⟨rest, hin⟩ := inputs_of_nextInput h nofun
  · rw [hostAct_of_rd hin, hostRd_env hp]
  · rw [State.hostAct, hin]
    simp only [State.hostRead, State.observed_eq hp]
    split <;> rfl
  · rw [hostAct_of_rdEq hin, State.countMismatch_env, hostRd_env hp]

/-- The statement `wr` is the bus write, and its answer recorded. -/
theorem hostAct_of_wr {s : State} (hp : s.powerLost = false) {off : Offset} {v : Word32}
    (h : s.nextInput = .wr off v) : ∃ e, s.hostAct = { (busWrite s off v).1 with env := e } := by
  obtain ⟨rest, hin⟩ := inputs_of_nextInput h nofun
  rw [State.hostAct, hin]
  simp only [State.hostWrite, hp, Bool.false_eq_true, if_false]
  exact ⟨_, rfl⟩

/-! ## The host at a completion edge (R74) -/

theorem engineEdge_of_commitDue {s : State} {i : Instr} (hc : s.commitDue = true)
    (hd : decodeCmd s.engine.latch.word = .ok i) : engineEdge s = exec i s.settled := by
  obtain ⟨-, htxn, -⟩ := (commitDue_iff s).1 hc
  rw [engineEdge, htxn, hc, if_pos rfl, hd]

/-- At a completion edge the host acts on the state its command has completed in. -/
theorem step_of_commitDue {s t u : State} {i : Instr} (hp : s.powerLost = false) (hc : s.commitDue = true)
    (hd : decodeCmd s.engine.latch.word = .ok i) (hu : exec i s.settled = .next u) (ht : step s = .next t)
    (hb : benign s.nextInput = true) : t = u.hostAct.tick := by
  rw [step_of_benign hp hb, engineEdge_of_commitDue hc hd, hu, andThen_next] at ht
  cases ht
  rfl

/-- A completed command leaves BUSY = 0, DONE = 1, OVERRUN as it was and the host's side alone (R99). -/
theorem exec_settled_flags {s u : State} {i : Instr} (hd : decodeCmd s.engine.latch.word = .ok i)
    (hu : exec i s.settled = .next u) :
    u.env = s.env ∧ u.powerLost = s.powerLost ∧ u.status.busy = false ∧ u.status.done = true ∧
      u.status.overrun = s.status.overrun := by
  rw [exec_command (isCommand_of_decodeCmd hd)] at hu
  cases hu
  exact ⟨rfl, rfl, rfl, rfl, rfl⟩

/-- A STATUS read of the idle block shows BUSY = 0 and DONE. -/
theorem hostAct_resp_of_status_read {s : State} (hp : s.powerLost = false) (hb : s.status.busy = false)
    (h : s.nextInput = .rd 0x008 ∨ s.nextInput = .poll ∨ ∃ v, s.nextInput = .rdEq 0x008 v) :
    ∃ d, s.hostAct.env.resp = some (.read d false) ∧ d.getLsbD 0 = false ∧ d.getLsbD 1 = s.status.done := by
  refine ⟨s.status.statusWord, ?_, by rw [Status.statusWord_busy, hb], s.status.statusWord_done⟩
  exact hostAct_resp_of_read hp (off := 0x008) (h.imp_right (Or.imp_left fun hpoll => ⟨hpoll, rfl⟩))

/-- A word written to the idle block is not dropped. -/
theorem hostAct_wr_word_of_idle {s : State} (hp : s.powerLost = false) (hb : s.status.busy = false) {g : WideReg}
    (hg : g ≠ .resx) {j : Fin 8} {v : Word32} (h : s.nextInput = .wr (wordOffset g j) v) :
    s.hostAct.regs = s.regs.set g (setWordOf (s.regs.get g) j v) ∧ s.hostAct.status = s.status := by
  obtain ⟨e, he⟩ := hostAct_of_wr hp h
  rw [he, busWrite_wordOffset, State.writeWide_of_idle hb hg]
  exact ⟨rfl, rfl⟩

/-- A word written to CMD of the idle block is issued: a legal one starts (R97), any other is rejected (R96). -/
theorem hostAct_wr_cmd_of_idle {s : State} (hp : s.powerLost = false) (hb : s.status.busy = false) {w : Word32}
    (h : s.nextInput = .wr 0x00C w) :
    (legalCommandWord w = true ∧ ∃ i e, s.hostAct = { s.startCommand i w with env := e }) ∨
      (legalCommandWord w = false ∧ ∃ e, s.hostAct = { s.rejectIllegal codeIllegalCmd with env := e }) := by
  obtain ⟨e, he⟩ := hostAct_of_wr hp h
  rw [he, busWrite_cmd]
  cases hw : legalCommandWord w with
  | true =>
    obtain ⟨i, hi⟩ := writeCmd_of_legal hb hw
    exact .inl ⟨rfl, i, e, by rw [hi]⟩
  | false => exact .inr ⟨rfl, e, by rw [writeCmd_of_illegal hb hw]⟩

/-- Settles O38: the host's statement acts on `u`, an idle block with DONE = 1. -/
theorem completionPrecedesTheHostTransfer : Obligations.CompletionPrecedesTheHostTransfer := by
  intro s t u i hp hc hd hu ht
  obtain ⟨henv, hpu, hb, hdone, hover⟩ := exec_settled_flags hd hu
  rw [hp] at hpu
  have hin : s.nextInput = u.nextInput := by rw [State.nextInput, State.nextInput, henv]
  have hact := step_of_commitDue hp hc hd hu ht
  rw [hin] at hact ⊢
  refine ⟨fun h => ?_, fun g j hg h => ?_, fun g j v hg h => ?_, fun w h => ?_⟩
  · obtain rfl := hact (by rcases h with h | h | ⟨v, h⟩ <;> rw [h] <;> rfl)
    rw [← hdone]
    exact hostAct_resp_of_status_read hpu hb h
  · obtain rfl := hact (by rw [h]; rfl)
    rw [State.tick_env, hostAct_resp_of_read hpu (.inl h), busRead_wordOffset, State.readWide_of_idle hb hg]
  · obtain rfl := hact (by rw [h]; rfl)
    obtain ⟨hregs, hstatus⟩ := hostAct_wr_word_of_idle hpu hb hg h
    rw [State.tick_regs, State.tick_status, hregs, hstatus]
    exact ⟨u.regs.wordOf_get_set_setWordOf_same g j v, fun _ hm => u.regs.wordOf_get_set_setWordOf_other g v hm,
      fun _ hne => u.regs.get_set_other _ hne, rfl⟩
  · obtain rfl := hact (by rw [h]; rfl)
    rw [← hover]
    rcases hostAct_wr_cmd_of_idle hpu hb h with ⟨hw, i', e, he⟩ | ⟨hw, e, he⟩ <;> rw [hw, State.tick, he]
    · exact ⟨rfl, rfl, fun _ => ⟨rfl, rfl, rfl⟩, nofun⟩
    · exact ⟨rfl, rfl, nofun, fun _ => ⟨hb, rfl, rfl⟩⟩

end Sys2Proof.Machine
end

section
/-! PROOFS. The encoding: a word and its fields, a request and its number, and that decoder and encoder agree both
ways. -/

namespace Sys2Proof

/-! ## Decoding an encoding (R90, R94, R121 to R129) -/

theorem decode_encode (i : Instr) : decode (encode i) = .ok i := by
  cases i with
  | smul | dadd | linit | affine => decide
  | pdbl slot => cases slot <;> decide
  | lstep bit => cases bit <;> decide
  | fauCopy | fauSetui | fauAdd | fauSub | fauMul | fauSqr | fauMului | fauInv | fauIszero | fauEq => rfl

theorem wf_encode (i : Instr) : (encode i).wf = true := by
  cases i with
  | smul | dadd | linit | affine => decide
  | pdbl slot => cases slot <;> decide
  | lstep bit => cases bit <;> decide
  | fauCopy | fauSetui | fauAdd | fauSub | fauMul | fauSqr | fauMului | fauInv | fauIszero | fauEq => rfl

theorem ofNat_toNat_append {m n : Nat} (x : BitVec m) (y : BitVec n) : BitVec.ofNat n (x ++ y).toNat = y := by
  apply BitVec.eq_of_toNat_eq
  rw [BitVec.toNat_ofNat, Machine.toNat_append_eq_add, Nat.mul_add_mod_self_right, Nat.mod_eq_of_lt y.isLt]

theorem toNat_append_shiftRight {m n : Nat} (x : BitVec m) (y : BitVec n) : (x ++ y).toNat >>> n = x.toNat := by
  rw [Machine.toNat_append_eq_add, Nat.shiftRight_eq_div_pow, Nat.add_comm,
    Nat.add_mul_div_right _ _ (Nat.two_pow_pos n), Nat.div_eq_of_lt y.isLt, Nat.zero_add]

/-- A request's number gives its signals back (log 9). -/
theorem FauReq.ofBits_toBits (r : FauReq) : FauReq.ofBits r.toBits = r := by
  have ha : r.toBits >>> 4 = (r.imm ++ r.b ++ r.a).toNat := toNat_append_shiftRight _ _
  have hb : r.toBits >>> 260 = (r.imm ++ r.b).toNat := by
    rw [Nat.shiftRight_add _ 4 256, ha, toNat_append_shiftRight]
  have himm : r.toBits >>> 516 = r.imm.toNat := by
    rw [Nat.shiftRight_add _ 260 256, hb, toNat_append_shiftRight]
  rw [FauReq.ofBits, ha, hb, himm, FauReq.toBits, ofNat_toNat_append, ofNat_toNat_append, ofNat_toNat_append,
    BitVec.ofNat_toNat, BitVec.setWidth_eq]

/-- A request has 548 bits. -/
theorem FauReq.toBits_lt (r : FauReq) : r.toBits < 2 ^ 548 := by
  generalize h : 548 = n
  exact BitVec.toNat_lt_twoPow_of_le (x := r.imm ++ r.b ++ r.a ++ r.op) h.le

/-- The decoder reads an encoding's number as it reads its carrier (log 9). -/
theorem decodeTableWord_bits (e : Encoding) : decodeTableWord e.bits.1 e.bits.2 = (decode e).toOption := by
  cases e with
  | cmdw w =>
    rw [Encoding.bits, decodeTableWord, if_pos rfl, if_pos w.isLt, BitVec.ofNat_toNat, BitVec.setWidth_eq, decode]
  | fauReq r =>
    rw [Encoding.bits, decodeTableWord, if_neg (by decide : ¬ 548 = 32), if_pos r.toBits_lt, r.ofBits_toBits, decode]

/-- Settles O1: the decoder inverts the encoder, and reads the bits as it reads the carrier. -/
theorem decodeOfEncodeIsIdentity : Obligations.DecodeOfEncodeIsIdentity := by
  intro i
  refine ⟨decode_encode i, wf_encode i, ?_⟩
  rw [decodeTableWord_bits, decode_encode]
  rfl

/-! ## Encoding what was decoded (R94, R102) -/

/-- An opcode and an operand bit that decode encode back to themselves. -/
theorem encode_of_decodeOpcode {op : BitVec 4} {b : Bool} {i : Instr} (h : decodeOpcode op b = .ok i) :
    encode i = .cmdw (cmdWord op b) := by
  have key : ∀ (op : BitVec 4) (b : Bool), (decodeOpcode op b).isOk = true →
      (decodeOpcode op b).map encode = .ok (.cmdw (cmdWord op b)) := by decide
  have hmap := key op b (by rw [h]; rfl)
  rw [h] at hmap
  exact Except.ok.inj hmap

/-- A word is its fields put together (R90). -/
theorem CmdFields.toWord_ofWord (w : Word32) : (CmdFields.ofWord w).toWord = w := by
  apply BitVec.eq_of_toNat_eq
  simp only [CmdFields.toWord, CmdFields.ofWord, Machine.toNat_append_eq_add, BitVec.extractLsb'_toNat,
    Nat.shiftRight_eq_div_pow]
  have := w.isLt
  omega

/-- A word with its reserved fields 0 is the command word of its opcode and operand bit. -/
theorem cmdWord_ofWord {w : Word32} (h1 : (CmdFields.ofWord w).rsv1 = 0) (h0 : (CmdFields.ofWord w).rsv0 = 0) :
    cmdWord (CmdFields.ofWord w).op ((CmdFields.ofWord w).b == 1) = w := by
  have hb : ∀ b : BitVec 1, BitVec.ofBool (b == 1) = b := by decide
  rw [cmdWord, hb, ← h1, ← h0]
  exact CmdFields.toWord_ofWord w

theorem encode_of_decodeCmd {w : Word32} {i : Instr} (h : decodeCmd w = .ok i) : encode i = .cmdw w := by
  rw [decodeCmd] at h
  split at h
  next => cases h
  next h1 =>
    split at h
    next => cases h
    next h0 => rw [encode_of_decodeOpcode h, cmdWord_ofWord (not_not.1 h1) (not_not.1 h0)]

/-- Settles O3: by the fields of a word. -/
theorem decodedCommandEncodesBack : Obligations.DecodedCommandEncodesBack :=
  fun _ _ h => ⟨encode_of_decodeCmd h, Machine.isCommand_of_decodeCmd h⟩

/-- R94's table: the words the commands encode to. -/
def commandWords : List Word32 := [0x001, 0x002, 0x102, 0x003, 0x004, 0x104, 0x005, 0x006]

theorem mem_commandWords_of_encode {i : Instr} {w : Word32} (h : encode i = .cmdw w) : w ∈ commandWords := by
  cases i with
  | smul | dadd | linit | affine => cases h; decide
  | pdbl slot => cases slot <;> cases h <;> decide
  | lstep bit => cases bit <;> cases h <;> decide
  | fauCopy | fauSetui | fauAdd | fauSub | fauMul | fauSqr | fauMului | fauInv | fauIszero | fauEq => cases h

theorem legalCommandWord_iff_decodeCmd (w : Word32) : legalCommandWord w = true ↔ ∃ i, decodeCmd w = .ok i := by
  constructor
  · intro h
    rw [← Machine.isOk_decodeCmd] at h
    cases hd : decodeCmd w with
    | ok i => exact ⟨i, rfl⟩
    | error e => rw [hd] at h; cases h
  · rintro ⟨i, hi⟩
    exact Machine.legal_of_decodeCmd hi

theorem legalCommandWord_iff_mem (w : Word32) : legalCommandWord w = true ↔ w ∈ commandWords := by
  constructor
  · intro h
    obtain ⟨i, hi⟩ := (legalCommandWord_iff_decodeCmd w).1 h
    exact mem_commandWords_of_encode (encode_of_decodeCmd hi)
  · have hlegal : commandWords.all legalCommandWord = true := by decide
    exact List.all_eq_true.1 hlegal w

/-- Settles O2: a legal word is what its command encodes to, one of the eight. -/
theorem exactlyEightCommandWordsAreLegal : Obligations.ExactlyEightCommandWordsAreLegal :=
  fun w => ⟨legalCommandWord_iff_mem w, legalCommandWord_iff_decodeCmd w⟩

/-- Settles O4: each word evaluated. -/
theorem sampleEncodingsDecode : Obligations.SampleEncodingsDecode := by
  refine ⟨?_, ?_, ?_, ?_, ?_, ?_⟩ <;> decide +kernel

end Sys2Proof
end

section
/-! PROOFS. The engine on its rule: what a command starts with leads to its rule's values, every move of the engine
keeps that, and so does every step. -/

namespace Sys2Proof.Machine

/-! ## The general path's scalar (R172, R173) -/

theorem bitLen_le (k : Word256) : bitLen k ≤ 256 := (bitLenBelow_spec k 256).1

/-- A scalar of two bits or more has a bit L−2. -/
theorem two_le_bitLen {k : Word256} (h0 : k ≠ 0) (h1 : k ≠ 1) : 2 ≤ bitLen k := by
  by_contra hlen
  have hlt : k.toNat < 2 ^ 1 := (lt_two_pow_bitLen k).trans_le (Nat.pow_le_pow_right Nat.two_pos (by omega))
  have h0' : k.toNat ≠ 0 := fun h => h0 (BitVec.eq_of_toNat_eq h)
  have h1' : k.toNat ≠ 1 := fun h => h1 (BitVec.eq_of_toNat_eq h)
  omega

theorem smulClass_of_kind {l : Latch} {c : SmulClass} (h : l.kind = .smul c) : smulClass l.k = c := by
  rw [Latch.kind] at h
  split at h
  next i hi =>
    cases i with
    | smul => exact CommandKind.smul.inj h
    | pdbl | dadd | lstep | linit | affine => cases h
    | fauCopy | fauSetui | fauAdd | fauSub | fauMul | fauSqr | fauMului | fauInv | fauIszero | fauEq => cases h
  next => cases h

theorem kind_of_decodeCmd {l : Latch} {i : Instr} (h : decodeCmd l.word = .ok i) : l.kind = kindOf i l := by
  rw [Latch.kind, h]

theorem ladderLength_of_kind {l : Latch} {n : Nat} (h : l.kind = .smul (.bits n)) : l.ladderLength = n := by
  rw [Latch.ladderLength, h]

theorem ne_of_smulClass_bits {k : Word256} {n : Nat} (h : smulClass k = .bits n) : k ≠ 0 ∧ k ≠ 1 ∧ k ≠ 2 := by
  rcases smulClass_cases k with ⟨-, hc⟩ | ⟨-, hc⟩ | ⟨-, hc⟩ | ⟨h0, h1, h2, -⟩
  · rw [h] at hc; cases hc
  · rw [h] at hc; cases hc
  · rw [h] at hc; cases hc
  · exact ⟨h0, h1, h2⟩

/-! ## The stretches of a general SMUL (R179) -/

section
variable {e : Engine} (hk : e.latch.kind = .smul (.bits (bitLen e.latch.k))) (hz : e.invZero = false)
include hk hz

/-- An iteration loaded for bit `n` leads on, where bits `n` down to 0 of the ladder are still to do. -/
theorem sequenceLeadsTo_loadIteration {x : Word256} {n : BitVec 9} (hx : x = fieldCopy e.latch.xb)
    (hloop : ladderLoop e.latch.k x (n.toNat + 1) (e.w0, e.w1) = ladder e.latch.k e.latch.xb) :
    SequenceLeadsTo .smul (e.loadIteration x n) := by
  obtain ⟨hinv, hplace, hpair⟩ := runSeq_step e.w0 e.w1 x (e.latch.k.getLsbD n.toNat) e.invZero
  subst hx
  exact ⟨rfl, hk, hinv.trans hz, hplace, (congrArg (ladderLoop _ _ n.toNat) hpair).trans hloop⟩

/-- The conversion of the even point leads to SMUL's result (R178, R179). -/
theorem sequenceLeadsTo_enterAffine (hw : e.w0 = (ladder e.latch.k e.latch.xb).1) :
    SequenceLeadsTo .smul e.enterAffine := by
  have hclass := smulClass_of_kind hk
  obtain ⟨h0, h1, h2⟩ := ne_of_smulClass_bits hclass
  have haffine := runSeq_affine [e.w0.x, e.w0.z] (x := 0) (z := 1) Nat.two_pos
  show sequenceWrites .smul e.latch (runSeq [e.w0.x, e.w0.z] e.invZero (affineSeq 0 1 2)).1
    (runSeq [e.w0.x, e.w0.z] e.invZero (affineSeq 0 1 2)).2 = ruleWrites .smul e.latch
  simp only [sequenceWrites, ruleWrites, hclass]
  rw [hz, smulResult_general h0 h1 h2, ← hw]
  exact haffine

end

/-- The first pair computed is the pair the ladder starts from, with all bits from L−2 down still to do. -/
theorem SequenceLeadsTo.enterLadder {i : Instr} {e : Engine} (h : SequenceLeadsTo i e) (ht : e.todo = [])
    (hs : e.stage = .init) : SequenceLeadsTo i e.enterLadder := by
  simp only [SequenceLeadsTo, hs, ht, runSeq] at h
  obtain ⟨rfl, hk, hz, hx, hone, hdbl⟩ := h
  obtain ⟨h0, h1, -⟩ := ne_of_smulClass_bits (smulClass_of_kind hk)
  have hlen := two_le_bitLen h0 h1
  have hle := bitLen_le e.latch.k
  have hbit : (BitVec.ofNat 9 (e.latch.ladderLength - 2)).toNat + 1 = bitLen e.latch.k - 1 := by
    rw [ladderLength_of_kind hk, BitVec.toNat_ofNat]
    omega
  have hloop : ladderLoop e.latch.k (place e.scratch 2) ((BitVec.ofNat 9 (e.latch.ladderLength - 2)).toNat + 1)
      (⟨place e.scratch 2, place e.scratch 1⟩, ⟨place e.scratch 7, place e.scratch 11⟩) =
        ladder e.latch.k e.latch.xb := by
    rw [hbit, ladder, hx, hone, hdbl, trivialPoint]
  let w0 : Point := ⟨place e.scratch 2, place e.scratch 1⟩
  let w1 : Point := ⟨place e.scratch 7, place e.scratch 11⟩
  exact sequenceLeadsTo_loadIteration (e := { e with w0 := w0, w1 := w1 }) hk hz hx hloop

/-- The pair an iteration computed goes into the next one, or after bit 0 into the conversion. -/
theorem SequenceLeadsTo.closeIteration {i : Instr} {e : Engine} (h : SequenceLeadsTo i e) (ht : e.todo = [])
    (hs : e.stage = .ladder) : SequenceLeadsTo i e.closeIteration := by
  simp only [SequenceLeadsTo, hs, ht, runSeq] at h
  obtain ⟨rfl, hk, hz, hx, hloop⟩ := h
  rw [Engine.closeIteration]
  split
  next hbit =>
    rw [hbit] at hloop
    exact sequenceLeadsTo_enterAffine (e := e.takePair) hk hz (congrArg Prod.fst hloop)
  next hbit =>
    refine sequenceLeadsTo_loadIteration (e := e.takePair) hk hz hx ?_
    have hsub : (e.bitIndex - 1).toNat + 1 = e.bitIndex.toNat := by
      have hne : e.bitIndex.toNat ≠ 0 := fun h => hbit (BitVec.eq_of_toNat_eq h)
      bv_omega
    rw [hsub, hx]
    exact hloop

/-! ## The engine's moves -/

/-- An operation answered is one the sequence no longer has to run. -/
theorem runSeq_take {e : Engine} {u : Uop} {rest : List Uop} (h : e.todo = u :: rest) :
    runSeq (e.take ⟨(uopValue u e.scratch).1, (uopValue u e.scratch).2⟩).scratch
        (e.take ⟨(uopValue u e.scratch).1, (uopValue u e.scratch).2⟩).invZero
        (e.take ⟨(uopValue u e.scratch).1, (uopValue u e.scratch).2⟩).todo =
      runSeq e.scratch e.invZero e.todo := by
  simp only [Engine.take_scratch, Engine.take_invZero, Engine.take_todo, uopValue_kept, h, List.tail_cons, runSeq]

theorem SequenceLeadsTo.take {i : Instr} {e : Engine} {u : Uop} {rest : List Uop} (h : SequenceLeadsTo i e)
    (hu : e.todo = u :: rest) :
    SequenceLeadsTo i (e.take ⟨(uopValue u e.scratch).1, (uopValue u e.scratch).2⟩) := by
  rw [SequenceLeadsTo, runSeq_take hu]
  exact h

/-- Waiting does not change what the sequence leads to. -/
theorem SequenceLeadsTo.rest {i : Instr} {e : Engine} (h : SequenceLeadsTo i e) : SequenceLeadsTo i e.rest := h

/-- A move without an edge is an operation done or the passage to the next stretch. -/
theorem SequenceLeadsTo.freeMove {i : Instr} {e f : Engine} (h : SequenceLeadsTo i e) (hf : e.freeMove = some f) :
    SequenceLeadsTo i f := by
  obtain ⟨-, ⟨u, rest, hu, rfl⟩ | ⟨ht, hs, rfl⟩ | ⟨ht, hs, rfl⟩⟩ := Engine.freeMove_cases hf
  · exact (h.take hu).rest
  · exact (h.enterLadder ht hs).rest
  · exact (h.closeIteration ht hs).rest

theorem SequenceLeadsTo.settle {i : Instr} {e : Engine} (h : SequenceLeadsTo i e) : SequenceLeadsTo i e.settle :=
  Engine.settle_induct (fun _ _ => SequenceLeadsTo.freeMove) h

/-! ## A command's start (R97, R138) -/

theorem length_runSeq (sc : List Word256) (z : Bool) (l : List Uop) :
    (runSeq sc z l).1.length = sc.length + l.length := by
  induction l generalizing sc z with
  | nil => rfl
  | cons u l ih =>
    rw [runSeq, ih, List.length_append, List.length_singleton, List.length_cons]
    omega

/-- Where a command's plan has one stretch, what that computes decides. -/
theorem sequenceLeadsTo_load_of_plan {i : Instr} {l : Latch} {sc : List Word256} {todo : List Uop}
    (hplan : planOf i l = (sc, todo, .commit))
    (h : sequenceWrites i l (runSeq sc false todo).1 (runSeq sc false todo).2 = ruleWrites i l) (e : Engine) :
    SequenceLeadsTo i (e.load i l) := by
  simp only [SequenceLeadsTo, Engine.load_scratch, Engine.load_todo, Engine.load_stage, Engine.load_invZero, hplan]
  exact h

/-- The first pair and its conversion, which SMUL does for k = 2 (R177, R178). -/
theorem runSeq_init_affine (xb : Word256) :
    (if (runSeq [xb, oneWord] false (initSeq ++ affineSeq 7 11 12)).2 then
        ([(WideReg.resx, (0 : Word256))], codeInvZero)
      else ([(.resx, place (runSeq [xb, oneWord] false (initSeq ++ affineSeq 7 11 12)).1 13)], codeOk)) =
      ([(.resx, (toAffine (dbl (trivialPoint xb))).1)], (toAffine (dbl (trivialPoint xb))).2) := by
  obtain ⟨-, -, -, hdbl⟩ := runSeq_init xb
  have hlen : (runSeq [xb, oneWord] false initSeq).1.length = 12 := length_runSeq _ _ _
  have haffine := runSeq_affine (runSeq [xb, oneWord] false initSeq).1 (x := 7) (z := 11) (by rw [hlen]; decide)
  rw [hlen, hdbl] at haffine
  rw [(runSeq_append _ false initSeq _ (by decide)).1]
  exact haffine

theorem smulResult_zero (xb : Word256) : smulResult 0 xb = (0, codeInfinity) := if_pos rfl

theorem smulResult_one (xb : Word256) : smulResult 1 xb = (fieldCopy xb, codeOk) := by
  rw [smulResult, if_neg (by decide), if_pos rfl]

theorem smulResult_two (xb : Word256) : smulResult 2 xb = toAffine (dbl (trivialPoint xb)) := by
  rw [smulResult, if_neg (by decide), if_neg (by decide), if_pos rfl]

/-- SMUL starts with the plan of its scalar's class (R174). -/
theorem sequenceLeadsTo_load_smul {l : Latch} (hd : decodeCmd l.word = .ok .smul) (e : Engine) :
    SequenceLeadsTo .smul (e.load .smul l) := by
  rcases smulClass_cases l.k with ⟨hk, hc⟩ | ⟨hk, hc⟩ | ⟨hk, hc⟩ | ⟨-, -, -, hc⟩
  · refine sequenceLeadsTo_load_of_plan (sc := []) (todo := []) (by simp only [planOf, hc]) ?_ e
    simp only [sequenceWrites, ruleWrites, hc]
    rw [hk, smulResult_zero]
  · refine sequenceLeadsTo_load_of_plan (sc := [l.xb]) (todo := [⟨.copy, 0, 0⟩]) (by simp only [planOf, hc]) ?_ e
    simp only [sequenceWrites, ruleWrites, hc]
    rw [hk, smulResult_one]
    rfl
  · refine sequenceLeadsTo_load_of_plan (sc := [l.xb, oneWord]) (todo := initSeq ++ affineSeq 7 11 12)
      (by simp only [planOf, hc]) ?_ e
    simp only [sequenceWrites, ruleWrites, hc]
    rw [hk, smulResult_two]
    exact runSeq_init_affine l.xb
  · have hkind : l.kind = .smul (.bits (bitLen l.k)) := by rw [kind_of_decodeCmd hd, kindOf, hc]
    have hplan : planOf .smul l = ([l.xb, oneWord], initSeq, .init) := by simp only [planOf, hc]
    simp only [SequenceLeadsTo, Engine.load_scratch, Engine.load_todo, Engine.load_stage, Engine.load_invZero, hplan]
    exact ⟨trivial, hkind, runSeq_init l.xb⟩

/-- What a command starts with leads to its rule's values. -/
theorem sequenceLeadsTo_load {i : Instr} {l : Latch} (hd : decodeCmd l.word = .ok i) (e : Engine) :
    SequenceLeadsTo i (e.load i l) := by
  cases i with
  | smul => exact sequenceLeadsTo_load_smul hd e
  | pdbl slot =>
    cases slot with
    | pm => exact congrArg (fun q => (writesPm q, codeOk)) (runSeq_doubling l.pm).2
    | pp => exact congrArg (fun q => (writesPp q, codeOk)) (runSeq_doubling l.pp).2
  | dadd => exact congrArg (fun q => (writesPp q, codeOk)) (runSeq_diffadd l.pm l.pp l.xb).2
  | lstep b =>
    exact congrArg (fun r : Point × Point => (writesPm r.1 ++ writesPp r.2, codeOk))
      (runSeq_step l.pm l.pp l.xb b false).2.2
  | linit =>
    obtain ⟨-, hx, hone, hdbl⟩ := runSeq_init l.xb
    exact congrArg₂ (fun q r => (writesPm q ++ writesPp r, codeOk)) (congrArg₂ Point.mk hx hone) hdbl
  | affine => exact runSeq_affine [l.pmx, l.pmz] (x := 0) (z := 1) Nat.two_pos
  | fauCopy | fauSetui | fauAdd | fauSub | fauMul | fauSqr | fauMului | fauInv | fauIszero | fauEq => exact rfl

/-! ## Every step (R97, R98, R131) -/

theorem txnMatches_of_idle {s : State} (h : s.fau.txn = .idle) : TxnMatches s := by
  rw [TxnMatches, h]
  trivial

/-- An idle block has no sequence to agree on. -/
theorem engineAgrees_of_idle {s : State} (h : s.status.busy = false) : EngineAgrees s :=
  fun hb => absurd (h.symm.trans hb) Bool.false_ne_true

/-- Engine and port kept, and no command started. -/
theorem EngineAgrees.of_frame {s t : State} (h : EngineAgrees s) (hb : t.status.busy = s.status.busy)
    (he : t.engine = s.engine) (hf : t.fau = s.fau) : EngineAgrees t := by
  rw [EngineAgrees, TxnMatches, hb, he, hf]
  exact h

theorem absorb_of_busy {s : State} {r : FauRsp} (hb : s.status.busy = true) (hr : s.fau.rsp = some r) :
    s.absorb = s.setEngine (s.engine.take r).rest := by
  rw [State.absorb, hb, hr]

/-- The answer to an engine's request is the value of the operation it was made for. -/
theorem respond_of_request {u : Uop} {sc : List Word256} {i : Instr} {s : State} {v : Word256} {e : Bool}
    (hi : decodeFau (u.request sc) = .ok i) (hx : exec i s = .next (s.respond v e)) : uopValue u sc = (v, e) := by
  obtain ⟨j, hj, -, hexec⟩ := exec_request u sc
  obtain rfl : j = i := Except.ok.inj (hj.symm.trans hi)
  have hresp := (hexec s).symm.trans hx
  simpa [State.respond, Prod.ext_iff] using hresp

/-- An operation answered over the port is done: the running engine takes its value (R130). -/
theorem engineAgrees_absorb {s : State} (h : EngineAgrees s) {r : FauReq} {j : Instr} {v : Word256} {err : Bool}
    (hr : s.fau.txn = .outstanding r 0) (hj : decodeFau r = .ok j)
    (hx : exec j s.clearRsp = .next (s.clearRsp.respond v err)) : EngineAgrees (s.clearRsp.respond v err).absorb := by
  intro hb
  replace hb : s.status.busy = true := by rwa [(absorb_keeps _).2.1] at hb
  obtain ⟨i, hd, hm, hl⟩ := h hb
  rw [TxnMatches, hr] at hm
  obtain ⟨u, rest, hu, rfl⟩ := hm
  have hval := respond_of_request hj hx
  rw [absorb_of_busy (s := s.clearRsp.respond v err) hb rfl]
  refine ⟨i, hd, txnMatches_of_idle rfl, ?_⟩
  have htake := (hl.take hu).rest
  rwa [hval] at htake

/-- The engine's own step makes moves, and presents the next operation's request (R131). -/
theorem engineAgrees_engineTurn {s : State} (h : EngineAgrees s) (hr : s.fau.txn = .idle) :
    EngineAgrees s.engineTurn := by
  intro hb
  obtain ⟨-, hstatus, -⟩ := engineTurn_keeps s
  rw [hstatus] at hb
  obtain ⟨i, hd, -, hl⟩ := h hb
  rw [← Engine.settle_latch] at hd
  rcases engineTurn_cases s with ⟨n, -, ht⟩ | ⟨u, rest, -, hu, ht⟩ | ⟨-, -, ht⟩ <;> rw [ht]
  · exact ⟨i, hd, txnMatches_of_idle hr, hl.settle⟩
  · exact ⟨i, hd, ⟨u, rest, hu, rfl⟩, hl.settle⟩
  · exact ⟨i, hd, txnMatches_of_idle hr, hl.settle⟩

theorem engineAgrees_engineEdge {s t : State} (h : EngineAgrees s) (ht : engineEdge s = .next t) : EngineAgrees t := by
  have goesOn {x : FauTxn} (hx : TxnMatches s → TxnMatches (s.clearRsp.setTxn x)) :
      EngineAgrees (s.clearRsp.setTxn x) := fun hb =>
    let ⟨i, hd, hm, hl⟩ := h hb
    ⟨i, hd, hx hm, hl⟩
  rcases engineEdge_cases ht with ⟨r, n, hr, rfl⟩ | ⟨r, n, hr, rfl⟩ | ⟨r, n, hr, rfl⟩ |
    ⟨r, j, v, err, hr, hj, hx, rfl⟩ | ⟨-, i, -, rfl⟩ | ⟨hr, -, -, rfl⟩ | ⟨-, hb, rfl⟩
  · exact goesOn fun hm => by rwa [TxnMatches, hr] at hm
  · exact goesOn fun hm => by rwa [TxnMatches, hr] at hm
  · exact goesOn fun hm => by rwa [TxnMatches, hr] at hm
  · exact engineAgrees_absorb h hr hj hx
  · exact engineAgrees_of_idle rfl
  · exact engineAgrees_engineTurn (s := s.clearRsp) h hr
  · exact engineAgrees_of_idle hb

theorem engineAgrees_startCommand {s : State} {i : Instr} {w : Word32} (hr : s.fau.txn = .idle)
    (hi : decodeCmd w = .ok i) : EngineAgrees (s.startCommand i w) := fun _ =>
  ⟨i, hi, txnMatches_of_idle hr, sequenceLeadsTo_load (l := Latch.capture w s.regs) hi s.engine⟩

theorem engineAgrees_busWrite {s : State} (hc : Coherent s) (h : EngineAgrees s) (off : Offset) (v : Word32) :
    EngineAgrees (busWrite s off v).1 := by
  rcases busWrite_cases s off v with hw | ⟨-, hw⟩ | ⟨-, hw⟩ | ⟨-, -, hw⟩ | ⟨hb, -, hw⟩ | ⟨hb, -, i, hi, hw⟩ |
    ⟨hb, g, j, -, -, hw⟩ <;> rw [hw]
  · exact h
  · exact h.of_frame rfl rfl rfl
  · exact h.of_frame rfl rfl rfl
  · exact h.of_frame rfl rfl rfl
  · exact engineAgrees_of_idle hb
  · exact engineAgrees_startCommand (hc.idle_no_request hb) hi
  · exact engineAgrees_of_idle hb

theorem engineAgrees_hostAct {s : State} (hc : Coherent s) (h : EngineAgrees s) : EngineAgrees s.hostAct := by
  rcases hostAct_cases s with ⟨e, he⟩ | ⟨-, off, v, e, -, he⟩ <;> rw [he]
  · exact h.of_frame rfl rfl rfl
  · exact (engineAgrees_busWrite hc h off v).of_frame rfl rfl rfl

/-- Settles O47: reset leaves the block idle, a clock stop keeps the words, and the FAU, the engine and the host keep
the engine on its rule. -/
theorem everyStepKeepsTheEngineOnItsRule : Obligations.EveryStepKeepsTheEngineOnItsRule := by
  intro s t hc h hstep
  rcases step_cases hstep with ⟨d, rest, -, rfl⟩ | ⟨rest, -, rfl⟩ | ⟨-, -, rfl⟩ | ⟨-, -, u, hu, rfl⟩
  · exact engineAgrees_of_idle rfl
  · exact h.of_frame rfl rfl rfl
  · exact (engineAgrees_hostAct hc h).of_frame rfl rfl rfl
  · exact (engineAgrees_hostAct (coherent_engineEdge hc hu) (engineAgrees_engineEdge h hu)).of_frame rfl rfl rfl

/-- At the completion edge the scratch holds what the command's rule writes (R98). -/
theorem sequenceWrites_of_commitDue {s : State} {i : Instr} (h : EngineAgrees s) (hc : s.commitDue = true)
    (hd : decodeCmd s.engine.latch.word = .ok i) :
    sequenceWrites i s.engine.latch s.engine.settle.scratch s.engine.settle.invZero = ruleWrites i s.engine.latch := by
  obtain ⟨hb, -, ht, hs, -⟩ := (commitDue_iff s).1 hc
  obtain ⟨j, hj, -, hl⟩ := h hb
  obtain rfl : j = i := Except.ok.inj (hj.symm.trans hd)
  have hsettled := hl.settle
  simp only [SequenceLeadsTo, ht, hs, runSeq, Engine.settle_latch] at hsettled
  exact hsettled

/-- Settles O48: the meaning completes with the rule's writes, and the scratch holds these. -/
theorem fieldOperationsComputeTheCommand : Obligations.FieldOperationsComputeTheCommand := by
  intro s i h hc hd
  rw [exec_command (isCommand_of_decodeCmd hd), State.settled_engine, Engine.settle_latch,
    sequenceWrites_of_commitDue h hc hd]

end Sys2Proof.Machine
end

section
/-! PROOFS. A running command comes to its completion edge: what is left of its work falls at every edge. -/

namespace Sys2Proof.Machine

/-! ## Runs -/

theorem reaches_zero (s : State) : Reaches 0 s s := rfl

theorem reaches_succ {n : Nat} {s t u : State} (h : step s = .next t) (hr : Reaches n t u) : Reaches (n + 1) s u := by
  have hstep : core.step s = .next t := h
  simp only [Reaches, Host.Core.run, hstep]
  exact hr

/-! ## What is left of a command's work -/

/-- The stage of the open transaction and the edges it, or with none open the engine, still waits. -/
def State.waitLeft (s : State) : Nat ×ₗ Nat :=
  match s.fau.txn with
  | .idle => toLex (2, s.engine.pause)
  | .presented _ n => toLex (1, n)
  | .outstanding _ n => toLex (0, n)

/-- What is left of a command's work: the engine's moves first, then the waits before the next one. -/
def State.workLeft (s : State) : Nat ×ₗ Nat ×ₗ Nat := toLex (s.engine.movesLeft, s.waitLeft)

theorem workLeft_lt_of_moves {s t : State} (h : t.engine.movesLeft < s.engine.movesLeft) : t.workLeft < s.workLeft :=
  Prod.Lex.toLex_lt_toLex.2 (.inl h)

theorem workLeft_lt_of_wait {s t : State} (h : t.engine.movesLeft ≤ s.engine.movesLeft) (hw : t.waitLeft < s.waitLeft) :
    t.workLeft < s.workLeft :=
  Prod.Lex.toLex_lt_toLex'.2 ⟨h, fun _ => hw⟩

theorem waitLeft_of_idle {s : State} (h : s.fau.txn = .idle) : s.waitLeft = toLex (2, s.engine.pause) := by
  rw [State.waitLeft, h]

theorem waitLeft_of_presented {s : State} {r : FauReq} {n : Nat} (h : s.fau.txn = .presented r n) :
    s.waitLeft = toLex (1, n) := by
  rw [State.waitLeft, h]

theorem waitLeft_of_outstanding {s : State} {r : FauReq} {n : Nat} (h : s.fau.txn = .outstanding r n) :
    s.waitLeft = toLex (0, n) := by
  rw [State.waitLeft, h]

/-- An edge waited. -/
theorem wait_lt_succ (k n : Nat) : toLex (k, n) < toLex (k, n + 1) :=
  Prod.Lex.toLex_lt_toLex.2 (.inr ⟨rfl, n.lt_succ_self⟩)

/-- The next stage of a transaction, whatever it has to wait there. -/
theorem wait_lt_of_stage {k k' : Nat} (h : k < k') (n n' : Nat) : toLex (k, n) < toLex (k', n') :=
  Prod.Lex.toLex_lt_toLex.2 (.inl h)

theorem Engine.take_movesLeft {e : Engine} {u : Uop} {rest : List Uop} (h : e.todo = u :: rest) (r : FauRsp) :
    (e.take r).rest.movesLeft < e.movesLeft := by
  have hcount : (e.take r).rest.movesLeft + 1 = e.movesLeft := by
    simp only [Engine.movesLeft, Engine.rest_todo, Engine.rest_stage, Engine.rest_bitIndex, Engine.take_todo,
      Engine.take_stage, Engine.take_bitIndex, h, List.tail_cons, List.length_cons]
    omega
  omega

/-- The engine has no move, or settling uses some up. -/
theorem Engine.settle_eq_or_movesLeft_lt (e : Engine) : e.settle = e ∨ e.settle.movesLeft < e.movesLeft :=
  Engine.settle_induct (P := fun f => f = e ∨ f.movesLeft < e.movesLeft)
    (fun _ _ hf hg => .inr <| hf.elim (fun h => h ▸ Engine.freeMove_movesLeft hg)
      fun h => (Engine.freeMove_movesLeft hg).trans h) (.inl rfl)

/-- With no operation and no wait left a settled engine is at the end of its work. -/
theorem Engine.settle_stage {e : Engine} (ht : e.settle.todo = []) (hp : e.settle.pause = 0) :
    e.settle.stage = .commit := by
  have hmove := e.settle_freeMove
  cases hs : e.settle.stage with
  | commit => rfl
  | init | ladder => simp [Engine.freeMove, hp, ht, hs] at hmove

/-! ## Progress at an edge (R98, R100, R131) -/

/-- An engine on its rule never stops the machine. -/
theorem engineEdge_answers {s : State} (h : EngineAgrees s) (hb : s.status.busy = true) :
    ∃ u, engineEdge s = .next u := by
  obtain ⟨i, hd, hm, -⟩ := h hb
  rw [engineEdge]
  split
  next => exact ⟨_, rfl⟩
  next => exact ⟨_, rfl⟩
  next => exact ⟨_, rfl⟩
  next r hr =>
    rw [TxnMatches, hr] at hm
    obtain ⟨u, rest, -, rfl⟩ := hm
    obtain ⟨j, hj, -, hx⟩ := exec_request u s.engine.scratch
    exact ⟨_, by rw [hj]; exact congrArg (andThen · _) (hx _)⟩
  next =>
    split
    next => exact ⟨_, by rw [hd]; exact exec_command (isCommand_of_decodeCmd hd) _⟩
    next => exact ⟨_, rfl⟩

/-- The engine's own step, where no completion is due: moves made, a wait shorter, or a request presented. -/
theorem workLeft_engineTurn {s : State} (hb : s.status.busy = true) (hr : s.fau.txn = .idle)
    (hc : s.commitDue = false) : s.clearRsp.engineTurn.workLeft < s.workLeft := by
  have hwait := waitLeft_of_idle hr
  rcases engineTurn_cases s.clearRsp with ⟨n, hp, ht⟩ | ⟨u, rest, -, -, ht⟩ | ⟨hp, htodo, -⟩
  · rw [ht]
    rcases s.engine.settle_eq_or_movesLeft_lt with he | hlt
    · rw [State.clearRsp_engine, he] at hp
      refine workLeft_lt_of_wait s.engine.settle_movesLeft ?_
      rw [hwait, hp]
      exact (waitLeft_of_idle (s := s.clearRsp.setEngine _) hr).trans_lt (wait_lt_succ 2 n)
    · exact workLeft_lt_of_moves hlt
  · rw [ht]
    refine workLeft_lt_of_wait s.engine.settle_movesLeft ?_
    rw [hwait, waitLeft_of_presented rfl]
    exact wait_lt_of_stage (by decide) _ _
  · have hdue := (commitDue_iff s).2 ⟨hb, hr, htodo, Engine.settle_stage htodo hp, hp⟩
    exact absurd (hc.symm.trans hdue) Bool.false_ne_true

/-- An edge before the completion edge leaves less of the running command's work. -/
theorem workLeft_engineEdge {s u : State} (h : EngineAgrees s) (hb : s.status.busy = true) (hc : s.commitDue = false)
    (hu : engineEdge s = .next u) : u.workLeft < s.workLeft := by
  rcases engineEdge_cases hu with ⟨r, n, hr, rfl⟩ | ⟨r, n, hr, rfl⟩ | ⟨r, n, hr, rfl⟩ |
    ⟨r, j, v, err, hr, -, -, rfl⟩ | ⟨hdue, -⟩ | ⟨hr, -, -, rfl⟩ | ⟨-, hidle, -⟩
  · refine workLeft_lt_of_wait le_rfl ?_
    rw [waitLeft_of_presented hr, waitLeft_of_presented rfl]
    exact wait_lt_succ 1 n
  · refine workLeft_lt_of_wait le_rfl ?_
    rw [waitLeft_of_presented hr, waitLeft_of_outstanding rfl]
    exact wait_lt_of_stage Nat.zero_lt_one _ _
  · refine workLeft_lt_of_wait le_rfl ?_
    rw [waitLeft_of_outstanding hr, waitLeft_of_outstanding rfl]
    exact wait_lt_succ 0 n
  · obtain ⟨i, -, hm, -⟩ := h hb
    rw [TxnMatches, hr] at hm
    obtain ⟨o, rest, ho, -⟩ := hm
    rw [absorb_of_busy (s := s.clearRsp.respond v err) hb rfl]
    exact workLeft_lt_of_moves (Engine.take_movesLeft ho _)
  · exact absurd (hc.symm.trans hdue) Bool.false_ne_true
  · exact workLeft_engineTurn hb hr hc
  · exact absurd (hidle.symm.trans hb) Bool.false_ne_true

/-! ## The host meanwhile (R69) -/

/-- A write to a running block touches flags only, and not BUSY. -/
theorem busWrite_of_busy {s : State} (hb : s.status.busy = true) (off : Offset) (v : Word32) :
    ∃ f : Status, f.busy = true ∧ (busWrite s off v).1 = { s with status := f } := by
  rcases busWrite_cases s off v with hw | ⟨-, hw⟩ | ⟨-, hw⟩ | ⟨-, -, hw⟩ | ⟨hidle, -⟩ | ⟨hidle, -⟩ | ⟨hidle, -⟩
  · exact ⟨s.status, hb, hw⟩
  · exact ⟨s.status.writeCtrl v, hb, hw⟩
  · exact ⟨s.status.writeStatus v, hb, hw⟩
  · exact ⟨s.status.setOverrun, hb, hw⟩
  all_goals exact absurd (hidle.symm.trans hb) Bool.false_ne_true

/-- The host does not touch the engine, the port or BUSY of a running block. -/
theorem hostAct_of_busy {s : State} (hb : s.status.busy = true) :
    s.hostAct.engine = s.engine ∧ s.hostAct.fau = s.fau ∧ s.hostAct.status.busy = true ∧
      s.hostAct.powerLost = s.powerLost := by
  rcases hostAct_cases s with ⟨e, he⟩ | ⟨-, off, v, e, -, he⟩ <;> rw [he]
  · exact ⟨rfl, rfl, hb, rfl⟩
  · obtain ⟨f, hf, hw⟩ := busWrite_of_busy hb off v
    rw [hw]
    exact ⟨rfl, rfl, hf, rfl⟩

/-- What the host has still to do is part of what it had to do. -/
theorem hostAct_inputs_subset (s : State) : s.hostAct.env.inputs ⊆ s.env.inputs := by
  rw [State.hostAct]
  cases hin : s.env.inputs with
  | nil => exact List.Subset.refl _
  | cons inp rest =>
    cases inp with
    | quiet | wr | rd | rdEq | rstLow | clockStop | strayFauResponse => exact List.subset_cons_self _ _
    | poll =>
      simp only
      split
      · exact List.Subset.refl _
      · exact List.subset_cons_self _ _

theorem benign_nextInput {s : State} (h : ∀ inp ∈ s.env.inputs, benign inp = true) : benign s.nextInput = true := by
  rw [State.nextInput]
  cases hin : s.env.inputs with
  | nil => rfl
  | cons inp rest => exact h inp (by rw [hin]; exact List.mem_cons_self)

/-! ## The way to the completion edge -/

/-- A command runs, its engine on its rule, and nothing but transfers is to come from outside. -/
structure Underway (s : State) : Prop where
  coherent : Coherent s
  agrees : EngineAgrees s
  busy : s.status.busy = true
  powered : s.powerLost = false
  benign : ∀ inp ∈ s.env.inputs, benign inp = true

theorem Underway.step {s : State} (h : Underway s) (hc : s.commitDue = false) :
    ∃ t, step s = .next t ∧ Underway t ∧ t.engine.latch = s.engine.latch ∧ t.workLeft < s.workLeft := by
  obtain ⟨u, hu⟩ := engineEdge_answers h.agrees h.busy
  obtain ⟨henv, -, hpower, hlatch⟩ := engineEdge_keeps hu
  have hbusy : u.status.busy = true := by
    rcases engineEdge_regs_status hu with ⟨hdue, -⟩ | ⟨-, -, hstatus⟩
    · exact absurd (hc.symm.trans hdue) Bool.false_ne_true
    · rw [hstatus, h.busy]
  obtain ⟨hengine, hfau, hbusy', hpower'⟩ := hostAct_of_busy hbusy
  have hstep : Machine.step s = .next u.hostAct.tick := by
    rw [step_of_benign h.powered (benign_nextInput h.benign), hu, andThen_next]
  have hwork : u.hostAct.tick.workLeft = u.workLeft := by
    rw [State.workLeft, State.waitLeft, State.tick_engine, State.tick_fau, hengine, hfau]
    rfl
  refine ⟨_, hstep, ⟨everyStepKeepsCoherence _ _ h.coherent hstep,
    everyStepKeepsTheEngineOnItsRule _ _ h.coherent h.agrees hstep, hbusy', hpower'.trans (hpower.trans h.powered),
    fun inp hinp => h.benign inp ?_⟩, ?_, ?_⟩
  · rw [← henv]
    exact hostAct_inputs_subset u hinp
  · rw [State.tick_engine, hengine, hlatch]
  · rw [hwork]
    exact workLeft_engineEdge h.agrees h.busy hc hu

theorem Underway.reaches_completion {s : State} (h : Underway s) :
    ∃ n t, Reaches n s t ∧ t.commitDue = true ∧ t.engine.latch = s.engine.latch := by
  induction hw : s.workLeft using WellFoundedLT.induction generalizing s with
  | ind w ih =>
    cases hc : s.commitDue with
    | true => exact ⟨0, s, reaches_zero s, hc, rfl⟩
    | false =>
      obtain ⟨t, hstep, ht, hlatch, hlt⟩ := h.step hc
      obtain ⟨n, u, hn, hdue, hlatch'⟩ := ih _ (hw ▸ hlt) ht rfl
      exact ⟨n + 1, u, reaches_succ hstep hn, hdue, hlatch'.trans hlatch⟩

/-- Settles O49: what is left of the work falls until the completion is due. -/
theorem startedCommandReachesCompletion : Obligations.StartedCommandReachesCompletion :=
  fun _ hc ha hb hp hin => Underway.reaches_completion ⟨hc, ha, hb, hp, hin⟩

end Sys2Proof.Machine
end

section
/-! PROOFS. The host's side of a command: the issue of a word, the frame of a completion, whole registers moved over the
bus, `poll`, and the completion edge. -/

namespace Sys2Proof.Machine

/-! ## Issue (R96, R97) -/

/-- Settles O29: a word that is none of the eight is rejected. -/
theorem illegalWordCompletesAtOnce : Obligations.IllegalWordCompletesAtOnce := by
  intro s w hb hw
  have hillegal : legalCommandWord w = false := Bool.eq_false_iff.2 fun h => hw ((legalCommandWord_iff_mem w).1 h)
  rw [busWrite_cmd, writeCmd_of_illegal hb hillegal]
  rfl

/-- Settles O30: one of the eight words starts its command. -/
theorem legalWordStartsTheCommand : Obligations.LegalWordStartsTheCommand := by
  intro s w hb hw
  obtain ⟨i, hi⟩ := writeCmd_of_legal hb ((legalCommandWord_iff_mem w).2 hw)
  rw [busWrite_cmd, hi]
  exact ⟨rfl, rfl, rfl, rfl, rfl, rfl, rfl, rfl⟩

/-! ## The frame of a command (R101) -/

/-- Settles O19: a completion writes the registers of the command's rule, RESULT, BUSY and DONE. -/
theorem commandLeavesTheRestUnchanged : Obligations.CommandLeavesTheRestUnchanged := by
  intro i s t hi ht
  rw [exec_command hi] at ht
  cases ht
  have kept {g : WideReg} (hg : g ∉ writtenRegs i) :
      (s.regs.setAll (ruleWrites i s.engine.latch).1).get g = s.regs.get g :=
    s.regs.get_setAll_ruleWrites_other s.engine.latch hg
  exact ⟨fun _ => kept, kept fun h => (ne_k_and_ne_xb_of_mem_writtenRegs h).1 rfl,
    kept fun h => (ne_k_and_ne_xb_of_mem_writtenRegs h).2 rfl, rfl, rfl, rfl, rfl, rfl, rfl, rfl⟩

/-! ## `poll` (R104) -/

/-- Settles O35: `poll` is a STATUS read whose bit 0 is BUSY. -/
theorem pollWaitsForIdle : Obligations.PollWaitsForIdle := by
  intro s rest hp hin
  have hread : busRead s.observed statusOffset = (s.status.statusWord, false) := by
    rw [State.observed_eq hp]
    rfl
  rw [State.hostAct, hin]
  simp only [State.hostRead, hread, Status.statusWord_busy]
  split
  · exact ⟨rfl, rfl, rfl, rfl⟩
  · exact ⟨rfl, rfl, rfl, rfl⟩

/-! ## The completion edge (R98, R99) -/

theorem decodeCmd_of_decodeTableWord {w : Nat} {i : Instr} (h : decodeTableWord 32 w = some i) :
    decodeCmd (BitVec.ofNat 32 w) = .ok i := by
  rw [decodeTableWord, if_pos rfl] at h
  split at h
  next =>
    cases hd : decodeCmd (BitVec.ofNat 32 w) with
    | ok j => rw [hd] at h; exact congrArg _ (Option.some.inj h)
    | error e => rw [hd] at h; cases h
  next => cases h

theorem settle_stageCommand (s : State) (w : Word32) : (s.stageCommand w).engine.settle = (s.stageCommand w).engine :=
  Engine.settle_of_atEnd rfl rfl

theorem commitDue_stageCommand (s : State) (w : Word32) : (s.stageCommand w).commitDue = true := by
  rw [commitDue_iff, settle_stageCommand]
  exact ⟨rfl, rfl, rfl, rfl, rfl⟩

theorem settled_stageCommand (s : State) (w : Word32) : (s.stageCommand w).settled = s.stageCommand w := by
  rw [State.settled, settle_stageCommand]
  rfl

/-- At a completion edge a step is the command's meaning and then the host. -/
theorem step_of_commitDue_exec {s : State} {i : Instr} (hp : s.powerLost = false) (hb : benign s.nextInput = true)
    (hc : s.commitDue = true) (hd : decodeCmd s.engine.latch.word = .ok i) :
    step s = andThen (exec i s.settled) fun t => .next t.hostAct.tick := by
  rw [step_of_benign hp hb, engineEdge_of_commitDue hc hd]

/-- Settles O36: the staged state is at its completion edge, and settled. -/
theorem stepRunsTheLatchedCommand : Obligations.StepRunsTheLatchedCommand := by
  refine ⟨fun s i => step_of_commitDue_exec, fun s w i hw => ?_⟩
  have hstep := step_of_commitDue_exec (s := s.stageCommand (BitVec.ofNat 32 w)) rfl rfl (commitDue_stageCommand s _)
    (decodeCmd_of_decodeTableWord hw)
  rwa [settled_stageCommand] at hstep

/-! ## A block at rest (R74) -/

/-- No command runs, no request is open, and the clock has not stopped. -/
structure AtRest (s : State) : Prop where
  idle : s.status.busy = false
  closed : s.fau.txn = .idle
  powered : s.powerLost = false

/-- At an edge of a block at rest only the host acts. -/
theorem AtRest.step {s : State} (h : AtRest s) (hb : benign s.nextInput = true) :
    step s = .next s.clearRsp.hostAct.tick := by
  have hedge : engineEdge s = .next s.clearRsp := by
    have hdue : s.commitDue = false := by rw [State.commitDue, h.idle, Bool.false_and, Bool.false_and]
    rw [engineEdge, h.closed, hdue, h.idle]
    rfl
  rw [step_of_benign h.powered hb, hedge, andThen_next]

/-- The statement `wr` to a word of a register moves it there (R67, R104). -/
theorem AtRest.step_wr {s : State} (h : AtRest s) {g : WideReg} (hg : g ≠ .resx) {j : Fin 8} {v : Word32}
    {rest : List Input} (hin : s.env.inputs = .wr (wordOffset g j) v :: rest) :
    ∃ t, Machine.step s = .next t ∧ AtRest t ∧ t.env.inputs = rest ∧ t.status = s.status ∧
      t.regs = s.regs.set g (setWordOf (s.regs.get g) j v) := by
  refine ⟨_, h.step (by rw [nextInput_of_cons hin]; rfl), ?_⟩
  rw [State.hostAct, State.clearRsp_env, hin]
  simp only [State.hostWrite, busWrite_wordOffset, State.clearRsp_powerLost, h.powered,
    State.writeWide_of_idle (s := s.clearRsp) h.idle hg, Bool.false_eq_true, if_false]
  exact ⟨⟨h.idle, h.closed, rfl⟩, rfl, rfl, rfl⟩

theorem wordOf_zero (j : Fin 8) : wordOf 0 j = 0 := by simp [wordOf]

/-- What the host can read of a register: K reads 0 (R25). -/
def Regs.visible (r : Regs) (g : WideReg) : Word256 := if g = .k then 0 else r.get g

theorem State.readWide_eq_visible {s : State} (h : s.status.busy = false) (g : WideReg) (j : Fin 8) :
    s.readWide g j = wordOf (s.regs.visible g) j := by
  rw [Regs.visible]
  split
  next hk =>
    rw [hk, State.readWide_k]
    exact (wordOf_zero j).symm
  next hk => exact State.readWide_of_idle h hk j

/-- The statement `rd` of a word of a register keeps the word as its value (R66, R104). -/
theorem AtRest.step_rd {s : State} (h : AtRest s) {g : WideReg} {j : Fin 8} {rest : List Input}
    (hin : s.env.inputs = .rd (wordOffset g j) :: rest) :
    ∃ t, Machine.step s = .next t ∧ AtRest t ∧ t.env.inputs = rest ∧ t.status = s.status ∧ t.regs = s.regs ∧
      t.env.values = wordOf (s.regs.visible g) j :: s.env.values := by
  refine ⟨_, h.step (by rw [nextInput_of_cons hin]; rfl), ?_⟩
  rw [hostAct_of_rd (s := s.clearRsp) hin]
  refine ⟨⟨h.idle, h.closed, h.powered⟩, rfl, rfl, rfl, ?_⟩
  rw [State.tick_env, hostRd_env (s := s.clearRsp) h.powered, busRead_wordOffset,
    State.readWide_eq_visible (s := s.clearRsp) h.idle]
  rfl

/-! ## Whole registers (R63, R105) -/

/-- Writes of words of `v` leave these words in the register and its others as they were. -/
theorem AtRest.reaches_writes {s : State} (h : AtRest s) {g : WideReg} (hg : g ≠ .resx) (v : Word256)
    (js : List (Fin 8)) {rest : List Input}
    (hin : s.env.inputs = js.map (fun j => .wr (wordOffset g j) (wordOf v j)) ++ rest) :
    ∃ t, Reaches js.length s t ∧ t.env.inputs = rest ∧ t.status = s.status ∧
      (∀ f, f ≠ g → t.regs.get f = s.regs.get f) ∧
      ∀ m, wordOf (t.regs.get g) m = if m ∈ js then wordOf v m else wordOf (s.regs.get g) m := by
  induction js generalizing s with
  | nil => exact ⟨s, reaches_zero s, hin, rfl, fun _ _ => rfl, fun m => (if_neg List.not_mem_nil).symm⟩
  | cons j js ih =>
    obtain ⟨t, hstep, ht, htin, htstatus, htregs⟩ := h.step_wr hg hin
    obtain ⟨u, hreach, huin, hustatus, hother, hwords⟩ := ih ht htin
    refine ⟨u, reaches_succ hstep hreach, huin, hustatus.trans htstatus, fun f hf => ?_, fun m => ?_⟩
    · rw [hother f hf, htregs, Regs.get_set_other _ _ hf]
    · rw [hwords m, htregs]
      by_cases hm : m = j
      · rw [hm, Regs.wordOf_get_set_setWordOf_same, ite_self, if_pos List.mem_cons_self]
      · rw [Regs.wordOf_get_set_setWordOf_other _ _ _ hm]
        simp only [List.mem_cons, hm, false_or]

/-- Reads of words of a register keep them as values, the newest first. -/
theorem AtRest.reaches_reads {s : State} (h : AtRest s) {g : WideReg} (js : List (Fin 8)) {rest : List Input}
    (hin : s.env.inputs = js.map (fun j => .rd (wordOffset g j)) ++ rest) :
    ∃ t, Reaches js.length s t ∧ t.env.inputs = rest ∧ t.status = s.status ∧ t.regs = s.regs ∧
      t.env.values = (js.map (wordOf (s.regs.visible g))).reverse ++ s.env.values := by
  induction js generalizing s with
  | nil => exact ⟨s, reaches_zero s, hin, rfl, rfl, rfl⟩
  | cons j js ih =>
    obtain ⟨t, hstep, ht, htin, htstatus, htregs, htvalues⟩ := h.step_rd hin
    obtain ⟨u, hreach, huin, hustatus, huregs, huvalues⟩ := ih ht htin
    refine ⟨u, reaches_succ hstep hreach, huin, hustatus.trans htstatus, huregs.trans htregs, ?_⟩
    rw [huvalues, htvalues, htregs, List.map_cons, List.reverse_cons, List.append_assoc, List.singleton_append]

/-- Eight reads of a register's words, word 0 first, give `rdfe` its value (R105). -/
theorem rdfeValue_of_words {s : State} {v : Word256} {l : List Word32}
    (h : s.env.values = ((List.finRange 8).map (wordOf v)).reverse ++ l) : s.rdfeValue = v := by
  have hlen : (((List.finRange 8).map (wordOf v)).reverse).length = 8 := by simp
  rw [State.rdfeValue, h, List.take_left' hlen, List.reverse_reverse, joinWords_words, BitVec.ofNat_toNat,
    BitVec.setWidth_eq]

/-- Settles O31: `wrfe` writes every word of the register, `rdfe` reads every one. -/
theorem wrfeAndRdfeMoveWholeRegisters : Obligations.WrfeAndRdfeMoveWholeRegisters := by
  intro s g rest hb htxn hp
  have hrest : AtRest s := ⟨hb, htxn, hp⟩
  refine ⟨fun v hg hin => ?_, fun hin => ?_⟩
  · obtain ⟨t, hreach, htin, hstatus, hother, hwords⟩ := hrest.reaches_writes hg v (List.finRange 8) hin
    refine ⟨t, hreach, eq_of_wordOf_eq fun m => ?_, hother, htin, hstatus⟩
    rw [hwords m, if_pos (List.mem_finRange m)]
  · obtain ⟨t, hreach, htin, hstatus, hregs, hvalues⟩ := hrest.reaches_reads (List.finRange 8) hin
    exact ⟨t, hreach, rdfeValue_of_words hvalues, hregs, htin, hstatus⟩

end Sys2Proof.Machine
end

section
/-! PROOFS. The engine's issue of field operations: what it goes by, and that every move, answer and start keeps two
engines alike. -/

namespace Sys2Proof.Machine

/-! ## What the issue of operations goes by (R139, R158, R183) -/

/-- The two engines are at the same point of their work, with the same operations left. The bit's index counts in the
ladder only. -/
structure Engine.SamePoint (e f : Engine) : Prop where
  kind : e.latch.kind = f.latch.kind
  stage : e.stage = f.stage
  bitIndex : e.stage = .ladder → e.bitIndex = f.bitIndex
  todo : e.todo = f.todo

/-- The issue of operations cannot tell the two engines apart: the same point of the work, and the same wait left. -/
structure Engine.Alike (e f : Engine) : Prop extends Engine.SamePoint e f where
  pause : e.pause = f.pause

section
variable {e f : Engine}

theorem Engine.SamePoint.point_eq (h : e.SamePoint f) : e.point = f.point := by
  simp only [Engine.point, h.kind, ← h.stage, h.todo, IssuePoint.mk.injEq, true_and, and_true]
  cases hs : e.stage with
  | ladder => exact congrArg BitVec.toNat (h.bitIndex hs)
  | init | commit => rfl

theorem Engine.samePoint_of_point_eq (h : e.point = f.point) (ht : e.todo = f.todo) : e.SamePoint f := by
  obtain ⟨hkind, hstage, hbit, -⟩ := IssuePoint.mk.inj h
  refine ⟨hkind, hstage, fun hs => BitVec.eq_of_toNat_eq ?_, ht⟩
  simpa only [hs, ← hstage] using hbit

/-- The pace of two states is the same when their engines are alike and their open transactions have the same shape. -/
theorem State.pace_eq_iff {s t : State} :
    s.pace = t.pace ↔ s.engine.Alike t.engine ∧ s.fau.txn.shape = t.fau.txn.shape := by
  simp only [State.pace, Prod.mk.injEq]
  constructor
  · rintro ⟨hpoint, htodo, hpause, hshape⟩
    exact ⟨⟨Engine.samePoint_of_point_eq hpoint htodo, hpause⟩, hshape⟩
  · rintro ⟨halike, hshape⟩
    exact ⟨halike.point_eq, halike.todo, halike.pause, hshape⟩

/-! ## Moves -/

/-- How long an engine comes to rest goes by the point. -/
theorem Engine.SamePoint.rest (h : e.SamePoint f) : e.rest.Alike f.rest where
  kind := h.kind
  stage := h.stage
  bitIndex := h.bitIndex
  todo := h.todo
  pause := by simp only [Engine.rest, h.kind, h.stage, h.todo, h.point_eq]

theorem Engine.SamePoint.take (h : e.SamePoint f) (r q : FauRsp) : (e.take r).SamePoint (f.take q) where
  kind := h.kind
  stage := h.stage
  bitIndex := h.bitIndex
  todo := congrArg List.tail h.todo

theorem ladderLength_congr {l m : Latch} (h : l.kind = m.kind) : l.ladderLength = m.ladderLength := by
  rw [Latch.ladderLength, h]
  rfl

theorem Engine.enterLadder_stage (e : Engine) : e.enterLadder.stage = .ladder := rfl

theorem Engine.enterLadder_todo (e : Engine) : e.enterLadder.todo = stepSeq := rfl

theorem Engine.enterLadder_bitIndex (e : Engine) :
    e.enterLadder.bitIndex = BitVec.ofNat 9 (e.latch.ladderLength - 2) := rfl

/-- The ladder's first bit goes by the command's kind. -/
theorem Engine.SamePoint.enterLadder (h : e.SamePoint f) : e.enterLadder.SamePoint f.enterLadder where
  kind := h.kind
  stage := by rw [Engine.enterLadder_stage, Engine.enterLadder_stage]
  bitIndex _ := by
    rw [Engine.enterLadder_bitIndex, Engine.enterLadder_bitIndex, ladderLength_congr h.kind]
  todo := by rw [Engine.enterLadder_todo, Engine.enterLadder_todo]

/-- The next bit, or the loop's end, goes by the bit's index. -/
theorem Engine.SamePoint.closeIteration (h : e.SamePoint f) (hs : e.stage = .ladder) :
    e.closeIteration.SamePoint f.closeIteration := by
  rw [Engine.closeIteration, Engine.closeIteration, ← h.bitIndex hs]
  split
  · exact ⟨h.kind, rfl, nofun, rfl⟩
  · exact ⟨h.kind, rfl, fun _ => rfl, rfl⟩

/-- Alike engines make alike moves, or none. -/
theorem Engine.Alike.freeMove (h : e.Alike f) : Option.Rel Engine.Alike e.freeMove f.freeMove := by
  rw [Engine.freeMove, Engine.freeMove, ← h.pause, ← h.todo, ← h.stage, ← h.point_eq]
  split
  · exact .none
  · split
    · split
      · exact .none
      · exact .some (h.take _ _).rest
    · split
      · exact .some h.enterLadder.rest
      next hs => exact .some (h.closeIteration hs).rest
      · exact .none

theorem Engine.Alike.settleFor (h : e.Alike f) (n : Nat) : (Engine.settleFor n e).Alike (Engine.settleFor n f) := by
  induction n generalizing e f with
  | zero => exact h
  | succ n ih =>
    rw [Engine.settleFor, Engine.settleFor]
    have hmoves := h.freeMove
    generalize e.freeMove = x, f.freeMove = y at hmoves ⊢
    cases hmoves with
    | none => exact h
    | some hmove => exact ih hmove

theorem Engine.Alike.movesLeft_eq (h : e.Alike f) : e.movesLeft = f.movesLeft := by
  rw [Engine.movesLeft, Engine.movesLeft, h.todo, ← h.stage]
  cases hs : e.stage with
  | ladder => rw [h.bitIndex hs]
  | init | commit => rfl

theorem Engine.Alike.settle (h : e.Alike f) : e.settle.Alike f.settle := by
  rw [Engine.settle, Engine.settle, h.movesLeft_eq]
  exact h.settleFor _

theorem Engine.Alike.atEnd_eq (h : e.Alike f) : e.atEnd = f.atEnd := by
  rw [Engine.atEnd, Engine.atEnd, h.todo, h.stage, h.pause]

end

/-- The engine's own step at the same edge: alike moves, then the same wait or a request for the same operation. -/
theorem pace_engineTurn {s t : State} (h : s.pace = t.pace) (hedge : s.edge = t.edge) :
    s.engineTurn.pace = t.engineTurn.pace := by
  obtain ⟨halike, hshape⟩ := State.pace_eq_iff.1 h
  have hsettle := halike.settle
  rw [State.pace_eq_iff]
  simp only [State.engineTurn, ← hsettle.pause, ← hsettle.todo]
  split
  · exact ⟨⟨⟨hsettle.kind, hsettle.stage, hsettle.bitIndex, rfl⟩, rfl⟩, hshape⟩
  · exact ⟨hsettle, by rw [hedge]; rfl⟩
  · exact ⟨hsettle, hshape⟩

/-! ## Starts -/

/-- A command's start goes by its kind and its plan's operations and stage. -/
theorem Engine.alike_load {e f : Engine} {i j : Instr} {l m : Latch} (hkind : l.kind = m.kind)
    (hplan : (planOf i l).2 = (planOf j m).2) (hstage : (planOf i l).2.2 ≠ .ladder) :
    (e.load i l).Alike (f.load j m) :=
  Engine.SamePoint.rest ⟨hkind, congrArg Prod.snd hplan, fun h => absurd h hstage, congrArg Prod.fst hplan⟩

theorem decodeCmd_lstep : ∀ b : Bool, decodeCmd (cmdWord 4 b) = .ok (.lstep b) := by decide

theorem decodeCmd_smul : decodeCmd (cmdWord 1 false) = .ok .smul := by decide

theorem planOf_smul_congr {l m : Latch} (h : smulClass l.k = smulClass m.k) :
    (planOf .smul l).2 = (planOf .smul m).2 := by
  rw [planOf, planOf, h]
  split <;> rfl

theorem planOf_smul_stage (l : Latch) : (planOf .smul l).2.2 ≠ .ladder := by
  rw [planOf]
  split <;> exact nofun

theorem kind_capture {w : Word32} {i : Instr} (h : decodeCmd w = .ok i) (r : Regs) :
    (Latch.capture w r).kind = kindOf i (Latch.capture w r) :=
  kind_of_decodeCmd (l := Latch.capture w r) h

theorem pace_startCommand_lstep {s t : State} (hshape : s.fau.txn.shape = t.fau.txn.shape) (b c : Bool) :
    (s.startCommand (.lstep b) (cmdWord 4 b)).pace = (t.startCommand (.lstep c) (cmdWord 4 c)).pace := by
  refine State.pace_eq_iff.2 ⟨?_, hshape⟩
  rw [State.startCommand_engine, State.startCommand_engine]
  refine Engine.alike_load ?_ rfl nofun
  rw [kind_capture (decodeCmd_lstep b), kind_capture (decodeCmd_lstep c)]
  rfl

theorem pace_startCommand_smul {s t : State} (hshape : s.fau.txn.shape = t.fau.txn.shape)
    (hclass : smulClass s.regs.k = smulClass t.regs.k) :
    (s.startCommand .smul (cmdWord 1 false)).pace = (t.startCommand .smul (cmdWord 1 false)).pace := by
  refine State.pace_eq_iff.2 ⟨?_, hshape⟩
  rw [State.startCommand_engine, State.startCommand_engine]
  refine Engine.alike_load ?_ (planOf_smul_congr hclass) (planOf_smul_stage _)
  rw [kind_capture decodeCmd_smul, kind_capture decodeCmd_smul]
  exact congrArg CommandKind.smul hclass

/-- Settles O50: alike engines stay alike, whatever their operands. -/
theorem engineIssueIgnoresTheLadderBit : Obligations.EngineIssueIgnoresTheLadderBit := by
  intro s t h
  obtain ⟨halike, hshape⟩ := State.pace_eq_iff.1 h
  exact ⟨halike.settle.atEnd_eq, pace_engineTurn h, pace_startCommand_lstep hshape, pace_startCommand_smul hshape,
    fun r q => State.pace_eq_iff.2 ⟨(halike.take r q).rest, hshape⟩⟩

end Sys2Proof.Machine
end

section
/-! PROOFS. The field interface: the FAU's handshake at an edge, and what it answers to each operation. -/

namespace Sys2Proof.Machine

/-! ## The handshake at an edge (R130, R131) -/

theorem hostAct_fau (s : State) : s.hostAct.fau = s.fau := by
  rcases hostAct_cases s with ⟨e, he⟩ | ⟨-, off, v, e, -, he⟩ <;> rw [he]
  exact (busWrite_keeps s off v).1

/-- The engine's own step leaves the response as it was, and the transaction too or a request presented. -/
theorem engineTurn_fau (s : State) :
    s.engineTurn.fau.rsp = s.fau.rsp ∧
      (s.engineTurn.fau.txn = s.fau.txn ∨ ∃ r n, s.engineTurn.fau.txn = .presented r n) := by
  rcases engineTurn_cases s with ⟨n, -, ht⟩ | ⟨u, rest, -, -, ht⟩ | ⟨-, -, ht⟩ <;> rw [ht]
  · exact ⟨rfl, .inl rfl⟩
  · exact ⟨rfl, .inr ⟨_, _, rfl⟩⟩
  · exact ⟨rfl, .inl rfl⟩

/-- Settles O41: by what the FAU and the engine can do at an edge; the host leaves the port alone. -/
theorem oneFieldRequestAtATime : Obligations.OneFieldRequestAtATime := by
  intro s t hp hb hstep
  rw [step_of_benign hp hb] at hstep
  obtain ⟨u, hu, ht⟩ := andThen_eq_next hstep
  cases ht
  rw [State.tick_fau, hostAct_fau]
  rcases engineEdge_cases hu with ⟨r, n, hr, rfl⟩ | ⟨r, n, hr, rfl⟩ | ⟨r, n, hr, rfl⟩ |
    ⟨r, i, v, e, hr, -, -, rfl⟩ | ⟨hc, i, -, rfl⟩ | ⟨hr, -, -, rfl⟩ | ⟨hr, -, rfl⟩
  · rw [hr]
    exact rfl
  · rw [hr]
    exact ⟨n, rfl⟩
  · rw [hr]
    exact rfl
  · obtain ⟨-, -, -, -, -, hfau, -⟩ := absorb_keeps (s.clearRsp.respond v e)
    rw [hr, hfau]
    exact ⟨rfl, rfl⟩
  · obtain ⟨-, hr, -⟩ := (commitDue_iff s).1 hc
    rw [hr]
    exact ⟨rfl, .inl hr⟩
  · obtain ⟨hrsp, htxn⟩ := engineTurn_fau s.clearRsp
    rw [hr]
    exact ⟨hrsp, htxn.imp_left fun h => h.trans hr⟩
  · rw [hr]
    exact ⟨rfl, .inl hr⟩

theorem andThen_andThen (o : Host.Outcome State Fault Refusal) (f g : State → Host.Outcome State Fault Refusal) :
    andThen (andThen o f) g = andThen o fun s => andThen (f s) g := by
  cases o with
  | next s => rfl
  | fault r => rfl
  | refused r => rfl

/-- The FAU answers what the request decodes to, and the engine takes the answer (R130). -/
theorem engineEdge_of_answerDue {s : State} {r : FauReq} {i : Instr} (hr : s.fau.txn = .outstanding r 0)
    (hd : decodeFau r = .ok i) : engineEdge s = andThen (exec i s.clearRsp) fun t => .next t.absorb := by
  rw [engineEdge, hr]
  simp only [hd]

theorem step_of_answerDue {s : State} {r : FauReq} {i : Instr} (hp : s.powerLost = false)
    (hb : benign s.nextInput = true) (hr : s.fau.txn = .outstanding r 0) (hd : decodeFau r = .ok i) :
    step s = andThen (exec i s.clearRsp) fun t => .next t.absorb.hostAct.tick := by
  rw [step_of_benign hp hb, engineEdge_of_answerDue hr hd, andThen_andThen]
  rfl

theorem ok_of_toOption_eq_some {o : Except DecodeError Instr} {i : Instr} (h : o.toOption = some i) : o = .ok i := by
  cases o with
  | ok j => exact congrArg _ (Option.some.inj h)
  | error e => cases h

theorem decodeFau_of_decodeTableWord {w : Nat} {i : Instr} (h : decodeTableWord 8 w = some i) :
    decodeFau (FauReq.ofBits w) = .ok i := by
  rw [decodeTableWord, if_neg (by decide)] at h
  split at h
  next => exact ok_of_toOption_eq_some h
  next => cases h

/-- Settles O37: the staged request's answer is due, with no response before it. -/
theorem stepAnswersTheFieldRequest : Obligations.StepAnswersTheFieldRequest :=
  ⟨fun _ _ _ => step_of_answerDue, fun s w _ hw =>
    step_of_answerDue (s := s.stageFauRequest (FauReq.ofBits w)) rfl rfl rfl (decodeFau_of_decodeTableWord hw)⟩

/-! ## Requests (R120, R130, R137) -/

/-- Settles O5: the decoder has a case for each of the codes 0 to 9, and one for all others. -/
theorem reservedFieldOperationsRejected : Obligations.ReservedFieldOperationsRejected := by
  intro r
  rw [decodeFau]
  split
  case h_11 h0 h1 h2 h3 h4 h5 h6 h7 h8 h9 =>
    rw [imp_false] at h0 h1 h2 h3 h4 h5 h6 h7 h8 h9
    exact iff_of_true rfl (by omega)
  all_goals exact iff_of_false nofun (by omega)

/-- Settles O20: a response stands on the port, and all else is as it was. -/
theorem fieldRequestChangesOnlyThePort : Obligations.FieldRequestChangesOnlyThePort := by
  intro i s t hi ht
  obtain ⟨v, e, hx⟩ := exec_fieldRequest hi s
  rw [hx] at ht
  cases ht
  exact ⟨rfl, rfl, rfl, rfl, rfl, rfl, rfl⟩

/-! ## What the FAU answers (R121 to R129) -/

theorem answersWith_of_exec {i : Instr} {s : State} {v : Word256} {e : Bool} (h : exec i s = .next (s.respond v e)) :
    AnswersWith i s (s.respond v e) v e :=
  ⟨h, rfl, rfl⟩

theorem toNat_fieldCopy (a : Word256) : (fieldCopy a).toNat = a.toNat % Config.fieldPrime := by
  rw [fieldCopy, toNat_canonical, fe, Nat.mod_mod]

/-- An immediate is below p. -/
theorem toNat_fieldSetui (imm : Word32) : (fieldSetui imm).toNat = imm.toNat := by
  have hlt : imm.toNat < Config.fieldPrime := imm.isLt.trans (by decide)
  rw [fieldSetui, toNat_canonical, Nat.mod_eq_of_lt hlt]

theorem toNat_fieldAdd (a b : Word256) : (fieldAdd a b).toNat = (a.toNat + b.toNat) % Config.fieldPrime := by
  rw [fieldAdd, toNat_canonical, fe, fe, ← Nat.add_mod]

/-- SUB adds p before it reduces, so that its difference is no negative number. -/
theorem toNat_fieldSub (a b : Word256) :
    ((fieldSub a b).toNat : Int) = ((a.toNat : Int) - (b.toNat : Int)) % (Config.fieldPrime : Int) := by
  have hshift : (fe a : Int) + ((Config.fieldPrime : Int) - fe b) = fe a - fe b + Config.fieldPrime := by ring
  rw [fieldSub, toNat_canonical, Int.natCast_mod, Nat.cast_add, Nat.cast_sub (fe_lt b).le, hshift,
    Int.add_emod_right, fe, fe, Int.natCast_mod, Int.natCast_mod, ← Int.sub_emod]

theorem toNat_fieldMul (a b : Word256) : (fieldMul a b).toNat = a.toNat * b.toNat % Config.fieldPrime := by
  rw [fieldMul, toNat_canonical, fe, fe, ← Nat.mul_mod]

theorem toNat_fieldSqr (a : Word256) : (fieldSqr a).toNat = a.toNat ^ 2 % Config.fieldPrime := by
  rw [fieldSqr, toNat_canonical, fe, ← Nat.mul_mod, Nat.pow_two]

theorem toNat_fieldMului (a : Word256) (imm : Word32) :
    (fieldMului a imm).toNat = a.toNat * imm.toNat % Config.fieldPrime := by
  rw [fieldMului, toNat_canonical, fe, Nat.mod_mul_mod]

/-- Settles O15: each result is a canonical word. -/
theorem fieldSumsAreExact : Obligations.FieldSumsAreExact := fun _ a b imm =>
  ⟨⟨_, _, answersWith_of_exec rfl, toNat_fieldCopy a⟩, ⟨_, _, answersWith_of_exec rfl, toNat_fieldSetui imm⟩,
    ⟨_, _, answersWith_of_exec rfl, toNat_fieldAdd a b⟩, ⟨_, _, answersWith_of_exec rfl, toNat_fieldSub a b⟩⟩

/-- Settles O16: each result is a canonical word. -/
theorem fieldProductsAreExact : Obligations.FieldProductsAreExact := fun _ a b imm =>
  ⟨⟨_, _, answersWith_of_exec rfl, toNat_fieldMul a b⟩, ⟨_, _, answersWith_of_exec rfl, toNat_fieldSqr a⟩,
    ⟨_, _, answersWith_of_exec rfl, toNat_fieldMului a imm⟩⟩

/-- Settles O18: the tests compare modulo p. -/
theorem fieldTestsAnswerOneOrZero : Obligations.FieldTestsAnswerOneOrZero := fun _ _ _ =>
  ⟨⟨_, answersWith_of_exec rfl⟩, ⟨_, answersWith_of_exec rfl⟩⟩

/-! ### The inverse (R128) -/

theorem fieldInv_of_dvd {a : Word256} (h : Config.fieldPrime ∣ a.toNat) : fieldInv a = (0, true) :=
  if_pos (Nat.mod_eq_zero_of_dvd h)

theorem fieldInv_of_not_dvd {a : Word256} (h : ¬ Config.fieldPrime ∣ a.toNat) : fieldInv a = (finv a, false) :=
  if_neg fun h0 => h (Nat.dvd_of_mod_eq_zero h0)

/-- A number is an inverse modulo p when it is one in the field. -/
theorem mul_mod_eq_one_iff (a : Word256) (n : Nat) :
    a.toNat * n % Config.fieldPrime = 1 ↔ residue a * (n : Fp) = 1 := by
  have hone : 1 % Config.fieldPrime = 1 := Nat.mod_eq_of_lt prime_fieldPrime.one_lt
  rw [residue, ← Nat.cast_mul, ← Nat.cast_one (R := Fp), ZMod.natCast_eq_natCast_iff', hone]

/-- Inverses below p are the same number. -/
theorem eq_of_mul_mod_eq_one {a : Word256} {m n : Nat} (hm : m < Config.fieldPrime) (hn : n < Config.fieldPrime)
    (hma : a.toNat * m % Config.fieldPrime = 1) (hna : a.toNat * n % Config.fieldPrime = 1) : m = n := by
  rw [mul_mod_eq_one_iff] at hma hna
  have hcast : (m : Fp) = (n : Fp) := left_inv_eq_right_inv ((mul_comm _ _).trans hma) hna
  rwa [ZMod.natCast_eq_natCast_iff', Nat.mod_eq_of_lt hm, Nat.mod_eq_of_lt hn] at hcast

theorem toNat_mul_finv_mod {a : Word256} (h : ¬ Config.fieldPrime ∣ a.toNat) :
    a.toNat * (finv a).toNat % Config.fieldPrime = 1 := by
  refine (mul_mod_eq_one_iff a _).2 (residue_mul_finv a fun h0 => h ?_)
  exact (ZMod.natCast_eq_zero_iff _ _).1 h0

/-- Settles O17: the power p−2 is an inverse, and any other inverse below p is the same. -/
theorem invGivesTheUniqueInverse : Obligations.InvGivesTheUniqueInverse := by
  intro s a
  have hexec : exec (.fauInv a) s = .next (s.respond (fieldInv a).1 (fieldInv a).2) := rfl
  refine ⟨fun h => ?_, fun h => ?_⟩
  · rw [fieldInv_of_not_dvd h] at hexec
    have hinv := toNat_mul_finv_mod h
    have hpos : 0 < (finv a).toNat := Nat.pos_of_ne_zero fun h0 => by
      rw [h0, Nat.mul_zero, Nat.zero_mod] at hinv
      exact absurd hinv Nat.zero_ne_one
    exact ⟨_, _, answersWith_of_exec hexec, hpos, finv_lt a, hinv,
      fun b _ hb hab => eq_of_mul_mod_eq_one hb (finv_lt a) hab hinv⟩
  · rw [fieldInv_of_dvd h] at hexec
    exact ⟨_, answersWith_of_exec hexec⟩

end Sys2Proof.Machine
end

section
/-! PROOFS. Commands by their rules, completed or performed on the present registers; the PDBL command, and the algebra
of DBL. -/

namespace Sys2Proof.Machine

/-! ## Commands by their rules (R97, R99, R101) -/

/-- A command completes with the code of its rule. -/
theorem completesWith_command {i : Instr} (h : isCommand i = true) (s : State) :
    CompletesWith i s (s.complete (ruleWrites i s.engine.latch).1 (ruleWrites i s.engine.latch).2)
      (ruleWrites i s.engine.latch).2.toNat :=
  ⟨exec_command h s, rfl, rfl, rfl, rfl, rfl⟩

/-- A command performed writes what its rule gives for the present registers. -/
theorem perform_regs {i : Instr} (h : isCommand i = true) (s : State) :
    (perform i s).regs = s.regs.setAll (ruleWrites i (Latch.capture s.engine.latch.word s.regs)).1 := by
  rw [perform, exec_command h]
  rfl

theorem perform_result {i : Instr} (h : isCommand i = true) (s : State) :
    (perform i s).status.result = (ruleWrites i (Latch.capture s.engine.latch.word s.regs)).2 := by
  rw [perform, exec_command h]
  rfl

theorem perform_pdbl_pm (s : State) : (perform (.pdbl .pm) s).regs.pm = dbl s.regs.pm := by
  rw [perform_regs rfl]
  rfl

/-- AFFINE performed leaves TOAFFINE of PM in RESX and RESULT (R171). -/
theorem perform_affine (s : State) :
    ((perform .affine s).regs.resx, (perform .affine s).status.result) = toAffine s.regs.pm := by
  rw [perform_regs rfl, perform_result rfl]
  rfl

/-- SMUL performed leaves its result for K and XB in RESX and RESULT (R174). -/
theorem perform_smul (s : State) :
    ((perform .smul s).regs.resx, (perform .smul s).status.result) = smulResult s.regs.k s.regs.xb := by
  rw [perform_regs rfl, perform_result rfl]
  rfl

/-! ## PDBL (R140, R141) -/

/-- DBL computes R140's formula. -/
theorem isDoubleOf_dbl (q : Point) : IsDoubleOf (dbl q) q :=
  ⟨dbl_canonical q, residue_dbl_x q, residue_dbl_z q⟩

/-- Settles O6: PDBL's rule writes DBL of the captured slot to that slot, with OK. -/
theorem pdblDoublesTheSelectedSlot : Obligations.PdblDoublesTheSelectedSlot := fun s =>
  ⟨⟨_, completesWith_command rfl s, isDoubleOf_dbl s.engine.latch.pm, rfl⟩,
    ⟨_, completesWith_command rfl s, isDoubleOf_dbl s.engine.latch.pp, rfl⟩⟩

/-! ## Scaling (R143) -/

/-- Settles O51: both coordinates are homogeneous of degree 4 over Fp, and canonical words are equal when their residues
are. -/
theorem doublingScalesByTheFourthPower : Obligations.DoublingScalesByTheFourthPower := by
  intro q l
  refine point_eq_of_residue (dbl_canonical _) ⟨fieldMul_lt _ _, fieldMul_lt _ _⟩ ?_ ?_
  · simp only [residue_dbl_x, residue_fieldMul, residue_fieldSqr]
    ring
  · simp only [residue_dbl_z, residue_fieldMul, residue_fieldSqr]
    ring

/-! ## Doubling twice (R145) -/

/-- A ladder step with bit 0 doubles the even point. -/
theorem ladderStep_false_fst (pm pp : Point) (x1 : Word256) : (ladderStep pm pp x1 false).1 = dbl pm := rfl

/-- The bit length of a number from 2^n up to 2^(n+1) (R172). -/
theorem bitLen_eq {k : Word256} {n : Nat} (hle : 2 ^ n ≤ k.toNat) (hlt : k.toNat < 2 ^ (n + 1)) : bitLen k = n + 1 := by
  have hk : k ≠ 0 := by
    rintro rfl
    exact absurd hle (Nat.not_le.2 (Nat.two_pow_pos n))
  have hupper : n < bitLen k := (Nat.pow_lt_pow_iff_right Nat.one_lt_two).1 (hle.trans_lt (lt_two_pow_bitLen k))
  have hlower : bitLen k - 1 < n + 1 :=
    (Nat.pow_lt_pow_iff_right Nat.one_lt_two).1 ((two_pow_le_of_ne_zero hk).2.trans_lt hlt)
  omega

/-- The bits of 4 below its leading one are 0, so its ladder doubles twice. -/
theorem ladder_four (xb : Word256) : (ladder 4 xb).1 = dbl (dbl (trivialPoint xb)) := by
  have hlen : bitLen 4 = 3 := bitLen_eq (by decide) (by decide)
  have hbits : (4 : Word256).getLsbD 1 = false ∧ (4 : Word256).getLsbD 0 = false := by decide
  simp only [ladder, hlen, ladderLoop, hbits, ladderStep_false_fst]

/-- DBL of the raw pair (xb:1) is DBL of the trivial point, whose x is reduced. -/
theorem dbl_trivialPoint (xb : Word256) : dbl (trivialPoint xb) = dbl ⟨xb, 1⟩ :=
  dbl_congr (residue_fieldCopy xb) rfl

/-- Settles O54: both sides convert DBL(DBL(x, 1)). -/
theorem doublingTwiceIsMultiplyingByFour : Obligations.DoublingTwiceIsMultiplyingByFour := by
  intro s hk hx hz
  have hpair : (performAll [.pdbl .pm, .pdbl .pm] s).regs.pm = (ladder s.regs.k s.regs.xb).1 := by
    simp only [performAll, perform_pdbl_pm]
    rw [hk, ladder_four, dbl_trivialPoint, Regs.pm, hx, hz]
  have hconv : toAffine (performAll [.pdbl .pm, .pdbl .pm] s).regs.pm = smulResult s.regs.k s.regs.xb := by
    rw [hpair, hk, smulResult_general (by decide) (by decide) (by decide)]
  rw [← perform_affine, ← perform_smul] at hconv
  exact ⟨hpair, Prod.mk.inj hconv⟩

end Sys2Proof.Machine
end

section
/-! PROOFS. DBL on the curve: the double of a point by its coordinates, and what DBL leaves for a representative. -/

namespace Sys2Proof.Machine

/-! ## The double of a point (R6) -/

/-- The double of a point with y = 0 is O. -/
theorem add_self_of_y_eq_zero [Fact (Nat.Prime Config.fieldPrime)] {x : Fp} (h : curve.Nonsingular x 0) :
    (.some x 0 h + .some x 0 h : curve.Point) = 0 :=
  WeierstrassCurve.Affine.Point.add_self_of_Y_eq (by simp [WeierstrassCurve.Affine.negY])

/-- x(2Q)·(2·y(Q))² = (x(Q)² − 1)² for a point not of order 2, by the slope of the tangent. -/
theorem add_self_x_mul [Fact (Nat.Prime Config.fieldPrime)] {x y : Fp} (h : curve.Nonsingular x y) (hy : y ≠ 0) :
    ∃ x' y' h', (.some x y h + .some x y h : curve.Point) = .some x' y' h' ∧
      x' * (2 * y) ^ 2 = (x ^ 2 - 1) ^ 2 := by
  have h2y : 2 * y ≠ 0 := mul_ne_zero two_ne_zero_fp hy
  have hsub : y - curve.negY x y = 2 * y := by
    simp only [WeierstrassCurve.Affine.negY]
    ring
  have hne : y ≠ curve.negY x y := sub_ne_zero.1 (hsub ▸ h2y)
  refine ⟨_, _, _, WeierstrassCurve.Affine.Point.add_self_of_Y_ne hne, ?_⟩
  have hslope : curve.slope x x y y * (2 * y) = 3 * x ^ 2 + 2 * (Config.montgomeryA : Fp) * x + 1 := by
    rw [WeierstrassCurve.Affine.slope_of_Y_ne rfl hne, hsub, div_mul_cancel₀ _ h2y]
    ring
  simp only [WeierstrassCurve.Affine.addX]
  linear_combination (curve.slope x x y y * (2 * y) + (3 * x ^ 2 + 2 * (Config.montgomeryA : Fp) * x + 1)) * hslope -
    4 * (Config.montgomeryA + 2 * x) * curve_eq h

/-- A point with y = 0 has x² ≠ 1, because A² ≠ 4. -/
theorem sq_sub_one_ne_zero {x : Fp} (h : curve.Nonsingular x 0) : x ^ 2 - 1 ≠ 0 := by
  intro hsq
  have hlin : (Config.montgomeryA : Fp) + 2 * x = 0 := by
    linear_combination -curve_eq h - ((Config.montgomeryA : Fp) + x) * hsq
  refine montgomeryA_sq_ne ?_
  linear_combination ((Config.montgomeryA : Fp) - 2 * x) * hlin + 4 * hsq

/-! ## DBL of a representative (R140, R142) -/

/-- DBL's X for a representative of a point with x-coordinate x. -/
theorem residue_dbl_x_of_represents {q : Point} {x : Fp} (hx : residue q.x = x * residue q.z) :
    residue (dbl q).x = (x ^ 2 - 1) ^ 2 * residue q.z ^ 4 := by
  rw [residue_dbl_x, hx]
  ring

/-- DBL's Z for a representative of the point (x, y). -/
theorem residue_dbl_z_of_represents {q : Point} {x y : Fp} (h : curve.Nonsingular x y)
    (hx : residue q.x = x * residue q.z) : residue (dbl q).z = (2 * y) ^ 2 * residue q.z ^ 4 := by
  rw [residue_dbl_z_curve, hx]
  linear_combination (-4 * residue q.z ^ 4) * curve_eq h

theorem residue_zero : residue 0 = 0 := (residue_eq_zero_iff 0).2 rfl

theorem residue_dbl_x_of_z_eq_zero {q : Point} (hz : residue q.z = 0) : residue (dbl q).x = residue q.x ^ 4 := by
  rw [residue_dbl_x, hz]
  ring

theorem dbl_z_of_z_eq_zero {q : Point} (hz : residue q.z = 0) : (dbl q).z = 0 := by
  refine eq_of_residue_eq (dbl_canonical q).2 fieldPrime_pos ?_
  rw [residue_dbl_z_curve, hz, mul_zero, zero_mul, residue_zero]

/-- DBL of a representative of Q represents 2Q, by the cases Q = O, Q of order 2, and the tangent at Q. -/
theorem represents_dbl [Fact (Nat.Prime Config.fieldPrime)] {q : Point} {Q : curve.Point} (hq : Represents q Q) :
    Represents (dbl q) (Q + Q) := by
  cases Q with
  | zero =>
    obtain ⟨hz, hx⟩ := hq
    have hdx : residue (dbl q).x ≠ 0 := by
      rw [residue_dbl_x_of_z_eq_zero hz]
      exact pow_ne_zero 4 hx
    have hdz : residue (dbl q).z = 0 := by rw [dbl_z_of_z_eq_zero hz, residue_zero]
    exact ⟨hdz, hdx⟩
  | some x y h =>
    obtain ⟨hz, hx⟩ := hq
    have hz4 : residue q.z ^ 4 ≠ 0 := pow_ne_zero 4 hz
    have hdx := residue_dbl_x_of_represents hx
    have hdz := residue_dbl_z_of_represents h hx
    by_cases hy : y = 0
    · subst hy
      rw [mul_zero, zero_pow two_ne_zero, zero_mul] at hdz
      rw [add_self_of_y_eq_zero h]
      exact ⟨hdz, hdx.trans_ne (mul_ne_zero (pow_ne_zero 2 (sq_sub_one_ne_zero h)) hz4)⟩
    · obtain ⟨x', y', h', hsum, hx'⟩ := add_self_x_mul h hy
      have hdz_ne : residue (dbl q).z ≠ 0 :=
        hdz.trans_ne (mul_ne_zero (pow_ne_zero 2 (mul_ne_zero two_ne_zero_fp hy)) hz4)
      rw [hsum]
      exact ⟨hdz_ne, by rw [hdx, hdz, ← hx', mul_assoc]⟩

/-- Settles O57: DBL represents the double of each point of the curve, and keeps Z = 0. -/
theorem doublingRepresentsTwiceThePoint : Obligations.DoublingRepresentsTwiceThePoint :=
  fun _ => ⟨fun _ => represents_dbl, fun hz => ⟨residue_dbl_x_of_z_eq_zero hz, dbl_z_of_z_eq_zero hz⟩⟩

end Sys2Proof.Machine
end

section
/-! PROOFS. DIFFADD's formula, the DADD and LSTEP commands, and the algebra of DIFFADD. -/

namespace Sys2Proof.Machine

/-! ## DADD and LSTEP (R150, R153 to R155) -/

/-- DIFFADD computes R150's formula. -/
theorem isDiffSumOf_diffadd (q r : Point) (x1 : Word256) : IsDiffSumOf (diffadd q r x1) q r x1 :=
  ⟨diffadd_canonical q r x1, (residue_diffadd_x q r x1).trans (by ring), (residue_diffadd_z q r x1).trans (by ring)⟩

/-- Settles O7: DADD's rule writes DIFFADD of the captured slots to PP, with OK. -/
theorem daddAddsDifferentiallyIntoPp : Obligations.DaddAddsDifferentiallyIntoPp := fun s =>
  ⟨_, completesWith_command rfl s, isDiffSumOf_diffadd s.engine.latch.pm s.engine.latch.pp s.engine.latch.xb, rfl⟩

/-- A ladder step with bit 0 adds into the odd point. -/
theorem ladderStep_false_snd (pm pp : Point) (x1 : Word256) : (ladderStep pm pp x1 false).2 = diffadd pm pp x1 := rfl

/-- A ladder step with bit 1 adds into the even point, the operands swapped. -/
theorem ladderStep_true_fst (pm pp : Point) (x1 : Word256) : (ladderStep pm pp x1 true).1 = diffadd pp pm x1 := rfl

/-- A ladder step with bit 1 doubles the odd point. -/
theorem ladderStep_true_snd (pm pp : Point) (x1 : Word256) : (ladderStep pm pp x1 true).2 = dbl pp := rfl

/-- Settles O8: LSTEP's rule writes the ladder step of the captured slots, with OK. -/
theorem lstepStepsBothSlots : Obligations.LstepStepsBothSlots := fun s =>
  let l := s.engine.latch
  ⟨⟨_, completesWith_command rfl s, isDoubleOf_dbl l.pm, isDiffSumOf_diffadd l.pm l.pp l.xb⟩,
    ⟨_, completesWith_command rfl s, isDiffSumOf_diffadd l.pp l.pm l.xb, isDoubleOf_dbl l.pp⟩⟩

/-! ## Symmetry, scaling and x1 (R156) -/

/-- Swapping the operands negates a difference that is squared. -/
theorem diffadd_comm (q r : Point) (x1 : Word256) : diffadd q r x1 = diffadd r q x1 := by
  refine point_eq_of_residue (diffadd_canonical _ _ _) (diffadd_canonical _ _ _) ?_ ?_
  · rw [residue_diffadd_x, residue_diffadd_x]
    ring
  · rw [residue_diffadd_z, residue_diffadd_z]
    ring

/-- Both coordinates are homogeneous of degree 2 in each operand. -/
theorem diffadd_scale (q r : Point) (x1 l m : Word256) :
    diffadd ⟨fieldMul l q.x, fieldMul l q.z⟩ ⟨fieldMul m r.x, fieldMul m r.z⟩ x1 =
      ⟨fieldMul (fieldMul (fieldSqr l) (fieldSqr m)) (diffadd q r x1).x,
        fieldMul (fieldMul (fieldSqr l) (fieldSqr m)) (diffadd q r x1).z⟩ := by
  refine point_eq_of_residue (diffadd_canonical _ _ _) ⟨fieldMul_lt _ _, fieldMul_lt _ _⟩ ?_ ?_
  · simp only [residue_diffadd_x, residue_fieldMul, residue_fieldSqr]
    ring
  · simp only [residue_diffadd_z, residue_fieldMul, residue_fieldSqr]
    ring

/-- x1 is a factor of Z and of nothing else. -/
theorem diffadd_eq_of_one (q r : Point) (x1 : Word256) :
    diffadd q r x1 = ⟨(diffadd q r 1).x, fieldMul x1 (diffadd q r 1).z⟩ := by
  have hone : residue 1 = 1 := residue_oneWord
  refine point_eq_of_residue (diffadd_canonical _ _ _) ⟨(diffadd_canonical q r 1).1, fieldMul_lt _ _⟩ rfl ?_
  rw [residue_fieldMul, residue_diffadd_z, residue_diffadd_z, hone]
  ring

/-- Settles O52: the symmetry, the scaling and the factor x1. -/
theorem diffaddIsSymmetricAndScales : Obligations.DiffaddIsSymmetricAndScales := fun q r x1 l m =>
  ⟨diffadd_comm q r x1, diffadd_scale q r x1 l m, diffadd_eq_of_one q r x1⟩

end Sys2Proof.Machine
end

section
/-! PROOFS. DIFFADD on the curve: what it leaves for representatives of two points, and the ladder step's prefix. -/

namespace Sys2Proof.Machine

/-! ## DIFFADD of representatives (R150, R151) -/

/-- DIFFADD's X for representatives of points with x-coordinates u and v. -/
theorem residue_diffadd_x_of_represents {q r : Point} {u v : Fp} (x1 : Word256) (hq : residue q.x = u * residue q.z)
    (hr : residue r.x = v * residue r.z) :
    residue (diffadd q r x1).x = (u * v - 1) ^ 2 * (2 * residue q.z * residue r.z) ^ 2 := by
  rw [residue_diffadd_x, hq, hr]
  ring

/-- DIFFADD's Z for representatives of points with x-coordinates u and v. -/
theorem residue_diffadd_z_of_represents {q r : Point} {u v : Fp} (x1 : Word256) (hq : residue q.x = u * residue q.z)
    (hr : residue r.x = v * residue r.z) :
    residue (diffadd q r x1).z = residue x1 * (u - v) ^ 2 * (2 * residue q.z * residue r.z) ^ 2 := by
  rw [residue_diffadd_z, hq, hr]
  ring

theorem diffadd_z_of_residue_eq_zero (q r : Point) {x1 : Word256} (h : residue x1 = 0) : (diffadd q r x1).z = 0 := by
  refine eq_of_residue_eq (diffadd_canonical q r x1).2 fieldPrime_pos ?_
  rw [residue_diffadd_z, h, mul_zero, zero_mul, residue_zero]

/-- A point and its inverse have the same representatives. -/
theorem represents_neg_iff {q : Point} {Q : curve.Point} : Represents q (-Q) ↔ Represents q Q := by
  cases Q <;> exact Iff.rfl

section
variable [Fact (Nat.Prime Config.fieldPrime)] {q r : Point} {x1 : Word256}

theorem two_mul_mul_sq_ne_zero {a b : Fp} (ha : a ≠ 0) (hb : b ≠ 0) : (2 * a * b) ^ 2 ≠ 0 :=
  pow_ne_zero 2 (mul_ne_zero (mul_ne_zero two_ne_zero_fp ha) hb)

/-- DIFFADD with a representative of O represents the other point, P itself. -/
theorem represents_diffadd_zero_left {x y : Fp} {h : curve.Nonsingular x y} (hx1 : residue x1 = x) (hx : x ≠ 0)
    (hq : Represents q (0 : curve.Point)) (hr : Represents r (.some x y h)) :
    Represents (diffadd q r x1) (.some x y h) := by
  obtain ⟨hqz, hqx⟩ := hq
  obtain ⟨hrz, hrx⟩ := hr
  have hdz : residue (diffadd q r x1).z = x * (2 * residue q.x * residue r.z) ^ 2 := by
    rw [residue_diffadd_z, hqz, hx1]
    ring
  have hdx : residue (diffadd q r x1).x = x * (x * (2 * residue q.x * residue r.z) ^ 2) := by
    rw [residue_diffadd_x, hqz, hrx]
    ring
  have hscale := two_mul_mul_sq_ne_zero hqx hrz
  exact ⟨hdz.trans_ne (mul_ne_zero hx hscale), hdx.trans (congrArg (x * ·) hdz.symm)⟩

/-- A point whose double has a nonzero x-coordinate has itself x² ≠ 1. -/
theorem sq_sub_one_ne_zero_of_add_self {u v x y : Fp} {hu : curve.Nonsingular u v} {h : curve.Nonsingular x y}
    (hx : x ≠ 0) (hd : (.some u v hu + .some u v hu : curve.Point) = .some x y h) : u ^ 2 - 1 ≠ 0 := by
  have hv : v ≠ 0 := by
    rintro rfl
    rw [add_self_of_y_eq_zero hu] at hd
    exact WeierstrassCurve.Affine.Point.some_ne_zero h hd.symm
  obtain ⟨x', y', h', hsum, hx'⟩ := add_self_x_mul hu hv
  rw [hd] at hsum
  injection hsum with hxx' _
  have hsq : (u ^ 2 - 1) ^ 2 ≠ 0 :=
    hx' ▸ mul_ne_zero (hxx' ▸ hx) (pow_ne_zero 2 (mul_ne_zero two_ne_zero_fp hv))
  exact ne_zero_pow two_ne_zero hsq

/-- DIFFADD of representatives of −R and R, whose difference is 2R, represents O. -/
theorem represents_diffadd_neg_left {R : curve.Point} {x y : Fp} {h : curve.Nonsingular x y} (hx : x ≠ 0)
    (hq : Represents q (-R)) (hr : Represents r R) (hd : R + R = .some x y h) :
    Represents (diffadd q r x1) (0 : curve.Point) := by
  rw [represents_neg_iff] at hq
  cases R with
  | zero => exact absurd hd.symm (WeierstrassCurve.Affine.Point.some_ne_zero h)
  | some u v hu =>
    obtain ⟨hqz, hqx⟩ := hq
    obtain ⟨hrz, hrx⟩ := hr
    have hscale := two_mul_mul_sq_ne_zero hqz hrz
    have hdx := residue_diffadd_x_of_represents x1 hqx hrx
    have hdz := residue_diffadd_z_of_represents x1 hqx hrx
    rw [← pow_two] at hdx
    rw [sub_self, zero_pow two_ne_zero, mul_zero, zero_mul] at hdz
    exact ⟨hdz, hdx.trans_ne (mul_ne_zero (pow_ne_zero 2 (sq_sub_one_ne_zero_of_add_self hx hd)) hscale)⟩

/-- DIFFADD of representatives of points with different x-coordinates, whose difference has x-coordinate x1, represents
their sum. -/
theorem represents_diffadd_of_x_ne {u v u' v' x y : Fp} {hu : curve.Nonsingular u v} {hu' : curve.Nonsingular u' v'}
    {h : curve.Nonsingular x y} (hx1 : residue x1 = x) (hx : x ≠ 0) (hne : u ≠ u') (hq : Represents q (.some u v hu))
    (hr : Represents r (.some u' v' hu')) (hd : (.some u' v' hu' - .some u v hu : curve.Point) = .some x y h) :
    Represents (diffadd q r x1) (.some u v hu + .some u' v' hu') := by
  obtain ⟨hqz, hqx⟩ := hq
  obtain ⟨hrz, hrx⟩ := hr
  have hscale := two_mul_mul_sq_ne_zero hqz hrz
  have hdx := residue_diffadd_x_of_represents x1 hqx hrx
  have hdz := residue_diffadd_z_of_represents x1 hqx hrx
  obtain ⟨x3, y3, h3, hsum, hx3⟩ := add_x_mul_sub_x hu hu' h hne hd
  rw [hx1] at hdz
  rw [hsum]
  refine ⟨hdz.trans_ne (mul_ne_zero (mul_ne_zero hx (pow_ne_zero 2 (sub_ne_zero.2 hne))) hscale), ?_⟩
  rw [hdx, hdz, ← hx3]
  ring

/-- DIFFADD of representatives of Q and R with x(R − Q) = x1 ≠ 0 represents Q + R, by the cases Q = O, R = O, R = −Q, and
different x-coordinates; R = Q has no difference with an x-coordinate. -/
theorem represents_diffadd {Q R : curve.Point} {x y : Fp} {h : curve.Nonsingular x y} (hx1 : residue x1 = x)
    (hx : x ≠ 0) (hq : Represents q Q) (hr : Represents r R) (hd : R - Q = .some x y h) :
    Represents (diffadd q r x1) (Q + R) := by
  cases Q with
  | zero =>
    obtain rfl : R = .some x y h := (sub_zero R).symm.trans hd
    rw [← WeierstrassCurve.Affine.Point.zero_def, zero_add]
    exact represents_diffadd_zero_left hx1 hx hq hr
  | some u v hu =>
    cases R with
    | zero =>
      have hneg : -(.some u v hu : curve.Point) = .some x y h := (zero_sub _).symm.trans hd
      rw [← represents_neg_iff, hneg] at hq
      rw [← WeierstrassCurve.Affine.Point.zero_def, add_zero, diffadd_comm, ← represents_neg_iff, hneg]
      exact represents_diffadd_zero_left hx1 hx hr hq
    | some u' v' hu' =>
      by_cases hux : u = u'
      · rcases WeierstrassCurve.Affine.Point.X_eq_iff.1 hux with heq | heq
        · rw [heq, sub_self] at hd
          exact absurd hd.symm (WeierstrassCurve.Affine.Point.some_ne_zero h)
        · rw [heq, sub_neg_eq_add] at hd
          rw [heq] at hq
          rw [heq, neg_add_cancel]
          exact represents_diffadd_neg_left hx hq hr hd
      · exact represents_diffadd_of_x_ne hx1 hx hux hq hr hd

end

/-- Settles O58: −P has the x-coordinate of P, so both signs are one case. -/
theorem diffaddRepresentsTheSum : Obligations.DiffaddRepresentsTheSum := by
  intro _ q r x1
  refine ⟨fun Q R x y h hx1 hx hq hr hd => ?_, diffadd_z_of_residue_eq_zero q r⟩
  rcases hd with hd | hd
  · exact represents_diffadd hx1 hx hq hr hd
  · exact represents_diffadd hx1 hx hq hr (hd.trans (WeierstrassCurve.Affine.Point.neg_some h))

/-! ## The ladder step's prefix (R157) -/

/-- Settles O59: each bit doubles one multiple and adds the two, whose difference is P. -/
theorem ladderStepAdvancesThePrefix : Obligations.LadderStepAdvancesThePrefix := by
  intro _ pm pp x1 n b x y h hx1 hx hm hp
  have hdiff : ((n + 1) • .some x y h : curve.Point) - n • .some x y h = .some x y h := by
    rw [succ_nsmul, add_sub_cancel_left]
  have hsum := represents_diffadd hx1 hx hm hp hdiff
  have heven := represents_dbl hm
  have hodd := represents_dbl hp
  rw [← add_nsmul] at hsum heven hodd
  cases b with
  | false =>
    have hfst : 2 * n + Bool.toNat false = n + n := Nat.two_mul n
    rw [ladderStep_false_fst, ladderStep_false_snd, hfst, add_assoc]
    exact ⟨heven, hsum⟩
  | true =>
    have hfst : 2 * n + Bool.toNat true = n + (n + 1) := by rw [Bool.toNat_true]; omega
    rw [ladderStep_true_fst, ladderStep_true_snd, diffadd_comm, hfst, add_right_comm]
    exact ⟨hsum, hodd⟩

end Sys2Proof.Machine
end

section
/-! PROOFS. The ladder driver: TOAFFINE, LINIT and AFFINE, and SMUL's four paths against its rule and against the same
work done by hand. -/

namespace Sys2Proof.Machine

/-! ## LINIT (R170) -/

/-- Settles O9: LINIT's rule writes the trivial point and its double, with OK. -/
theorem linitLoadsTheStartingPair : Obligations.LinitLoadsTheStartingPair := fun s =>
  ⟨_, completesWith_command rfl s, toNat_fieldCopy s.engine.latch.xb, rfl,
    isDoubleOf_dbl (trivialPoint s.engine.latch.xb)⟩

/-! ## TOAFFINE (R171, R178) -/

theorem toAffine_of_z_eq_zero {q : Point} (hz : residue q.z = 0) : toAffine q = (0, codeInvZero) :=
  if_pos ((residue_eq_zero_iff q.z).1 hz)

theorem toAffine_of_z_ne_zero {q : Point} (hz : residue q.z ≠ 0) :
    toAffine q = (fieldMul q.x (finv q.z), codeOk) :=
  if_neg fun h => hz ((residue_eq_zero_iff q.z).2 h)

/-- The quotient X/Z of X = x·Z is x. -/
theorem residue_fieldMul_finv {v w : Word256} {x : Fp} (hw : residue w ≠ 0) (hv : residue v = x * residue w) :
    residue (fieldMul v (finv w)) = x := by
  rw [residue_fieldMul, hv, mul_assoc, residue_mul_finv w hw, mul_one]

/-- TOAFFINE answers R178's quotient or its zero. -/
theorem isAffineOf_toAffine (q : Point) :
    IsAffineOf (toAffine q).1 (toAffine q).2.toNat (residue q.x) (residue q.z) := by
  refine ⟨fun hz => ?_, fun hz => ?_⟩
  · rw [toAffine_of_z_eq_zero hz]
    exact ⟨rfl, rfl⟩
  · have hquot : residue (fieldMul q.x (finv q.z)) * residue q.z = residue q.x := by
      rw [residue_fieldMul, mul_assoc, mul_comm (residue (finv q.z)), residue_mul_finv q.z hz, mul_one]
    rw [toAffine_of_z_ne_zero hz]
    exact ⟨fieldMul_lt _ _, hquot, rfl⟩

/-- Settles O10: AFFINE's rule writes TOAFFINE of the captured PM to RESX alone, with TOAFFINE's code. -/
theorem affineDividesOrReportsZero : Obligations.AffineDividesOrReportsZero := fun s =>
  ⟨_, _, completesWith_command rfl s, isAffineOf_toAffine s.engine.latch.pm, rfl, rfl, rfl, rfl⟩

/-- The trivial point's x, over its Z = 1. -/
theorem residue_trivialPoint (xb : Word256) :
    residue (trivialPoint xb).z ≠ 0 ∧ residue (trivialPoint xb).x = residue xb * residue (trivialPoint xb).z := by
  have := fact_prime_fieldPrime
  rw [trivialPoint, residue_oneWord, residue_fieldCopy, mul_one]
  exact ⟨one_ne_zero, rfl⟩

/-- The trivial point's affine x is its x. -/
theorem toAffine_trivialPoint (xb : Word256) : toAffine (trivialPoint xb) = (fieldCopy xb, codeOk) := by
  obtain ⟨hz, hx⟩ := residue_trivialPoint xb
  have hquot := (residue_fieldMul_finv hz hx).trans (residue_fieldCopy xb).symm
  rw [toAffine_of_z_ne_zero hz, eq_of_residue_eq (fieldMul_lt _ _) (fieldCopy_lt xb) hquot]

/-! ## SMUL by its rule (R174 to R177) -/

/-- SMUL completes with the word and the code of its rule. -/
theorem exists_completesWith_smul (s : State) {v : Word256} {c : BitVec 4}
    (h : smulResult s.engine.latch.k s.engine.latch.xb = (v, c)) :
    ∃ t, CompletesWith .smul s t c.toNat ∧ t.regs.resx = v := by
  have hc := completesWith_command (i := .smul) rfl s
  rw [ruleWrites, h] at hc
  exact ⟨_, hc, rfl⟩

theorem planOf_smul_zero {l : Latch} (h : l.k = 0) : planOf .smul l = ([], [], .commit) := by
  rw [planOf, h]
  rfl

theorem planOf_smul_one {l : Latch} (h : l.k = 1) : planOf .smul l = ([l.xb], [⟨.copy, 0, 0⟩], .commit) := by
  rw [planOf, h]
  rfl

/-- Settles O11: the path for k = 0 answers at once. -/
theorem smulOfZeroIsInfinity : Obligations.SmulOfZeroIsInfinity := by
  refine fun s => ⟨fun hk => exists_completesWith_smul s (c := codeInfinity) (hk ▸ smulResult_zero _), fun hk w => ?_⟩
  rw [State.startCommand_engine, Engine.load_todo, Engine.load_stage, planOf_smul_zero hk]
  exact ⟨rfl, rfl⟩

/-- SMUL of one completes with OK and the reduced XB (R176). -/
theorem exists_completesWith_smul_one {s : State} (hk : s.engine.latch.k = 1) :
    ∃ t, CompletesWith .smul s t 0 ∧ t.regs.resx.toNat = s.engine.latch.xb.toNat % Config.fieldPrime := by
  obtain ⟨t, hc, hresx⟩ := exists_completesWith_smul s (hk ▸ smulResult_one _)
  exact ⟨t, hc, by rw [hresx, toNat_fieldCopy]⟩

/-- Settles O12: the path for k = 1 copies XB. -/
theorem smulOfOneCopies : Obligations.SmulOfOneCopies := by
  refine fun s => ⟨exists_completesWith_smul_one, fun hk w => ?_⟩
  simp only [State.startCommand_engine, Engine.load_todo, Engine.load_stage, Engine.load_scratch]
  rw [planOf_smul_one hk]
  exact ⟨rfl, rfl⟩

/-- Where SMUL's rule converts a point, SMUL completes with TOAFFINE of it (R178). -/
theorem exists_completesWith_smul_affine {s : State} {q : Point}
    (h : smulResult s.engine.latch.k s.engine.latch.xb = toAffine q) :
    ∃ t c, CompletesWith .smul s t c ∧ IsAffineOf t.regs.resx c (residue q.x) (residue q.z) := by
  obtain ⟨t, hc, hresx⟩ := exists_completesWith_smul s h
  exact ⟨t, _, hc, hresx ▸ isAffineOf_toAffine q⟩

/-- Settles O13: the path for k = 2 converts DBL of the trivial point. -/
theorem smulOfTwoDoublesOnce : Obligations.SmulOfTwoDoublesOnce := by
  intro s hk
  obtain ⟨t, c, hc, haffine⟩ := exists_completesWith_smul_affine (s := s) (hk ▸ smulResult_two _)
  rw [dbl_trivialPoint] at haffine
  exact ⟨t, c, _, hc, isDoubleOf_dbl _, haffine⟩

/-! ## The special scalars (R180) -/

theorem ladder_one (xb : Word256) : (ladder 1 xb).1 = trivialPoint xb := by
  have hlen : bitLen 1 = 1 := bitLen_eq (by decide) (by decide)
  rw [ladder, hlen]
  rfl

theorem ladder_two (xb : Word256) : (ladder 2 xb).1 = dbl (trivialPoint xb) := by
  have hlen : bitLen 2 = 2 := bitLen_eq (by decide) (by decide)
  have hbit : (2 : Word256).getLsbD 0 = false := by decide
  simp only [ladder, hlen, ladderLoop, hbit, ladderStep_false_fst]

/-- For every k but 0, SMUL's rule is the general path's conversion. -/
theorem smulResult_of_ne_zero {k : Word256} (h0 : k ≠ 0) (xb : Word256) :
    smulResult k xb = toAffine (ladder k xb).1 := by
  by_cases h1 : k = 1
  · rw [h1, smulResult_one, ladder_one, toAffine_trivialPoint]
  · by_cases h2 : k = 2
    · rw [h2, smulResult_two, ladder_two]
    · exact smulResult_general h0 h1 h2 xb

/-- Settles O53: for k = 1 the ladder takes no step, for k = 2 a doubling. -/
theorem specialScalarsAgreeWithTheLadder : Obligations.SpecialScalarsAgreeWithTheLadder := fun xb =>
  ⟨smulResult_of_ne_zero (by decide) xb, smulResult_of_ne_zero (by decide) xb⟩

/-! ## The general path (R172, R179) -/

/-- The working pair after `j` iterations of the ladder, the first of which takes bit L−2. -/
def workingPair (k xb : Word256) : Nat → Point × Point
  | 0 => (trivialPoint xb, dbl (trivialPoint xb))
  | j + 1 =>
    ladderStep (workingPair k xb j).1 (workingPair k xb j).2 (fieldCopy xb) (k.getLsbD (bitLen k - 2 - j))

/-- The loop over the lower `n` bits takes the working pair of its start to the last one. -/
theorem ladderLoop_workingPair (k xb : Word256) {n j : Nat} (h : j + n = bitLen k - 1) :
    ladderLoop k (fieldCopy xb) n (workingPair k xb j) = workingPair k xb (bitLen k - 1) := by
  induction n generalizing j with
  | zero => rw [← h]; rfl
  | succ n ih =>
    have hbit : n = bitLen k - 2 - j := by omega
    rw [← ih (j := j + 1) (by omega), ladderLoop, workingPair, ← hbit]

theorem ladder_eq_workingPair (k xb : Word256) : ladder k xb = workingPair k xb (bitLen k - 1) :=
  ladderLoop_workingPair k xb (Nat.zero_add _)

/-- DIFFADD reads x1 modulo p (R23, R150). -/
theorem isDiffSumOf_fieldCopy {d q r : Point} {x1 : Word256} (h : IsDiffSumOf d q r (fieldCopy x1)) :
    IsDiffSumOf d q r x1 := by
  rwa [IsDiffSumOf, residue_fieldCopy] at h

/-- A scalar is not a smaller one. -/
theorem ne_of_toNat_lt {j k : Word256} (h : j.toNat < k.toNat) : k ≠ j := by
  rintro rfl
  exact lt_irrefl _ h

/-- Settles O14: the working pairs are the loop's. -/
theorem smulGeneralPathRunsTheLadder : Obligations.SmulGeneralPathRunsTheLadder := by
  intro s hk
  have h1 : s.engine.latch.k ≠ 1 := ne_of_toNat_lt (Nat.lt_of_succ_lt hk)
  have h0 : s.engine.latch.k ≠ 0 := ne_of_toNat_lt (Nat.zero_lt_of_lt hk)
  have hresult := smulResult_of_ne_zero h0 s.engine.latch.xb
  rw [ladder_eq_workingPair] at hresult
  obtain ⟨t, c, hc, haffine⟩ := exists_completesWith_smul_affine hresult
  refine ⟨bitLen s.engine.latch.k, c, workingPair s.engine.latch.k s.engine.latch.xb, t, two_le_bitLen h0 h1,
    bitLen_le _, (two_pow_le_of_ne_zero h0).2, lt_two_pow_bitLen _, toNat_fieldCopy _, rfl, isDoubleOf_dbl _,
    fun j _ => ?_, hc, haffine⟩
  rw [BitVec.testBit_toNat, workingPair]
  cases s.engine.latch.k.getLsbD (bitLen s.engine.latch.k - 2 - j) with
  | false => exact ⟨isDoubleOf_dbl _, isDiffSumOf_fieldCopy (isDiffSumOf_diffadd _ _ _)⟩
  | true => exact ⟨isDiffSumOf_fieldCopy (isDiffSumOf_diffadd _ _ _), isDoubleOf_dbl _⟩

/-! ## XB modulo p (R187) -/

theorem fieldCopy_congr {v w : Word256} (h : fe v = fe w) : fieldCopy v = fieldCopy w := by
  rw [fieldCopy, fieldCopy, h]

/-- SMUL's rule reads XB through its copy alone. -/
theorem smulResult_congr (k : Word256) {xb xb' : Word256} (h : fe xb = fe xb') :
    smulResult k xb = smulResult k xb' := by
  simp only [smulResult, ladder, trivialPoint, fieldCopy_congr h]

/-- Settles O56: equal scalars and XB equal modulo p give one result. -/
theorem smulDependsOnXbModuloP : Obligations.SmulDependsOnXbModuloP := by
  intro s s' t t' hk hxb ht ht'
  have hresult : smulResult s.engine.latch.k s.engine.latch.xb = smulResult s'.engine.latch.k s'.engine.latch.xb := by
    rw [hk, smulResult_congr _ hxb]
  cases ht
  cases ht'
  exact ⟨congrArg Prod.fst hresult, congrArg Prod.snd hresult⟩

/-! ## The ladder by hand (R186) -/

/-- A ladder step reads x1 modulo p. -/
theorem ladderStep_congr (pm pp : Point) {x1 x1' : Word256} (b : Bool) (h : residue x1 = residue x1') :
    ladderStep pm pp x1 b = ladderStep pm pp x1' b := by
  simp only [ladderStep, diffadd_congr rfl rfl rfl rfl h]

/-- LINIT performed leaves the trivial point of XB and its double in the slots (R170). -/
theorem perform_linit (s : State) :
    ((perform .linit s).regs.pm, (perform .linit s).regs.pp) =
      (trivialPoint s.regs.xb, dbl (trivialPoint s.regs.xb)) := by
  rw [perform_regs rfl]
  rfl

/-- LSTEP performed takes one ladder step on the slots (R155). -/
theorem perform_lstep (b : Bool) (s : State) :
    ((perform (.lstep b) s).regs.pm, (perform (.lstep b) s).regs.pp) =
      ladderStep s.regs.pm s.regs.pp s.regs.xb b := by
  rw [perform_regs rfl]
  rfl

/-- No command writes XB (R101). -/
theorem perform_xb {i : Instr} (h : isCommand i = true) (s : State) : (perform i s).regs.xb = s.regs.xb := by
  rw [perform_regs h]
  exact Regs.get_setAll_ruleWrites_other s.regs _ fun hmem => (ne_k_and_ne_xb_of_mem_writtenRegs hmem).2 rfl

/-- LSTEPs by the lower `n` bits of `k` run the ladder's loop on the slots. -/
theorem performAll_lstepsBelow (k x : Word256) (n : Nat) {s : State} (hx : residue s.regs.xb = residue x) :
    ((performAll (lstepsBelow k n) s).regs.pm, (performAll (lstepsBelow k n) s).regs.pp) =
      ladderLoop k x n (s.regs.pm, s.regs.pp) := by
  induction n generalizing s with
  | zero => rfl
  | succ n ih =>
    rw [lstepsBelow, performAll, ih (by rw [perform_xb rfl, hx]), perform_lstep, ladderStep_congr _ _ _ hx]
    rfl

/-- LINIT and the LSTEPs of the bits below the leading one leave the ladder's final pair in the slots. -/
theorem performAll_linit_lsteps (k : Word256) (s : State) :
    ((performAll (.linit :: lstepsBelow k (bitLen k - 1)) s).regs.pm,
      (performAll (.linit :: lstepsBelow k (bitLen k - 1)) s).regs.pp) = ladder k s.regs.xb := by
  have hx : residue (perform .linit s).regs.xb = residue (trivialPoint s.regs.xb).x := by
    rw [perform_xb rfl, trivialPoint, residue_fieldCopy]
  rw [performAll, performAll_lstepsBelow k _ _ hx, perform_linit]
  rfl

/-- Settles O55: AFFINE and SMUL convert the same point. -/
theorem ladderByHandEqualsSmul : Obligations.LadderByHandEqualsSmul := by
  intro s hk
  have hpair := performAll_linit_lsteps s.regs.k s
  have h0 : s.regs.k ≠ 0 := ne_of_toNat_lt (Nat.zero_lt_of_lt hk)
  refine ⟨hpair, Prod.mk.inj ?_⟩
  rw [perform_affine, perform_smul, smulResult_of_ne_zero h0, ← hpair]

end Sys2Proof.Machine
end

section
/-! PROOFS. SMUL on the curve: what the ladder leaves for a point and for x = 0, and what TOAFFINE makes of it. -/

namespace Sys2Proof.Machine

/-! ## TOAFFINE of a representative (R11, R178) -/

theorem toAffine_of_represents_zero {q : Point} (hq : Represents q 0) : toAffine q = (0, codeInvZero) :=
  toAffine_of_z_eq_zero hq.1

/-- TOAFFINE of a representative of (x, y) is the canonical word of x, with OK. -/
theorem toAffine_of_represents_some {q : Point} {x y : Fp} {h : curve.Nonsingular x y}
    (hq : Represents q (.some x y h)) :
    ∃ v, toAffine q = (v, codeOk) ∧ residue v = x ∧ v.toNat < Config.fieldPrime := by
  obtain ⟨hz, hx⟩ := hq
  exact ⟨_, toAffine_of_z_ne_zero hz, residue_fieldMul_finv hz hx, fieldMul_lt _ _⟩

/-! ## The prefixes of a scalar (R172) -/

/-- A scalar's prefix ends in its last bit. -/
theorem toNat_div_two_pow (k : Word256) (n : Nat) :
    k.toNat / 2 ^ n = 2 * (k.toNat / 2 ^ (n + 1)) + (k.getLsbD n).toNat := by
  rw [← BitVec.testBit_toNat, Nat.toNat_testBit, pow_succ, ← Nat.div_div_eq_div_mul, Nat.div_add_mod]

/-- The prefix of a scalar that is its leading one. -/
theorem toNat_div_two_pow_bitLen {k : Word256} (hk : k ≠ 0) : k.toNat / 2 ^ (bitLen k - 1) = 1 := by
  obtain ⟨hpos, hle⟩ := two_pow_le_of_ne_zero hk
  refine Nat.div_eq_of_lt_le (by rwa [Nat.one_mul]) ?_
  rw [one_add_one_eq_two, mul_pow_sub_one hpos.ne']
  exact lt_two_pow_bitLen k

/-! ## The ladder on a point of nonzero x-coordinate (R157, R181) -/

/-- The trivial point of x(P) represents P. -/
theorem represents_trivialPoint {x y : Fp} {h : curve.Nonsingular x y} {xb : Word256} (hxb : residue xb = x) :
    Represents (trivialPoint xb) (.some x y h) :=
  hxb ▸ residue_trivialPoint xb

section
variable [Fact (Nat.Prime Config.fieldPrime)] {x y : Fp} {h : curve.Nonsingular x y}

/-- From representatives of m·P and (m+1)·P, m the prefix of k above its lower `n` bits, the loop over these leaves a
representative of k·P. -/
theorem represents_ladderLoop {k x1 : Word256} (hx1 : residue x1 = x) (hx : x ≠ 0) {n : Nat} {w : Point × Point}
    (hm : Represents w.1 ((k.toNat / 2 ^ n) • .some x y h))
    (hp : Represents w.2 ((k.toNat / 2 ^ n + 1) • .some x y h)) :
    Represents (ladderLoop k x1 n w).1 (k.toNat • .some x y h) := by
  induction n generalizing w with
  | zero => rwa [pow_zero, Nat.div_one] at hm
  | succ n ih =>
    obtain ⟨hm', hp'⟩ := ladderStepAdvancesThePrefix w.1 w.2 x1 _ (k.getLsbD n) x y h hx1 hx hm hp
    rw [← toNat_div_two_pow] at hm' hp'
    exact ih hm' hp'

/-- The ladder's first point represents k·P. -/
theorem represents_ladder {k xb : Word256} (hk : k ≠ 0) (hxb : residue xb = x) (hx : x ≠ 0) :
    Represents (ladder k xb).1 (k.toNat • .some x y h) := by
  have hq : Represents (trivialPoint xb) (.some x y h) := represents_trivialPoint hxb
  refine represents_ladderLoop ((residue_fieldCopy xb).trans hxb) hx ?_ ?_ <;> rw [toNat_div_two_pow_bitLen hk]
  · rwa [one_smul]
  · rw [add_smul, one_smul]
    exact represents_dbl hq

end

/-! ## The ladder on x = 0 (R181, 90_conflicts.md C5) -/

/-- A ladder step with x1 = 0 on an even point with X = 0 or Z = 0 leaves one with Z = 0. -/
theorem ladderStep_fst_z_eq_zero {pm pp : Point} {x1 : Word256} (b : Bool) (hx1 : residue x1 = 0)
    (hm : residue pm.x * residue pm.z = 0) : residue (ladderStep pm pp x1 b).1.z = 0 := by
  cases b with
  | false =>
    rw [ladderStep_false_fst, residue_dbl_z_curve]
    linear_combination
      (4 * (residue pm.x ^ 2 + Config.montgomeryA * residue pm.x * residue pm.z + residue pm.z ^ 2)) * hm
  | true => rw [ladderStep_true_fst, diffadd_z_of_residue_eq_zero _ _ hx1, residue_zero]

/-- So does the loop over one bit or more. -/
theorem ladderLoop_fst_z_eq_zero (k : Word256) {x1 : Word256} (hx1 : residue x1 = 0) (n : Nat) {w : Point × Point}
    (hw : residue w.1.x * residue w.1.z = 0) : residue (ladderLoop k x1 (n + 1) w).1.z = 0 := by
  induction n generalizing w with
  | zero => exact ladderStep_fst_z_eq_zero _ hx1 hw
  | succ n ih =>
    rw [ladderLoop]
    refine ih ?_
    rw [ladderStep_fst_z_eq_zero _ hx1 hw, mul_zero]

/-- The ladder of two bits or more on x = 0 ends with Z = 0. -/
theorem ladder_fst_z_eq_zero {k xb : Word256} (h0 : k ≠ 0) (h1 : k ≠ 1) (hxb : residue xb = 0) :
    residue (ladder k xb).1.z = 0 := by
  have hcopy : residue (trivialPoint xb).x = 0 := (residue_fieldCopy xb).trans hxb
  obtain ⟨n, hn⟩ : ∃ n, bitLen k - 1 = n + 1 := ⟨bitLen k - 2, by have := two_le_bitLen h0 h1; omega⟩
  rw [ladder, hn]
  refine ladderLoop_fst_z_eq_zero k hcopy n ?_
  rw [hcopy, zero_mul]

/-! ## SMUL (R181) -/

/-- Settles O60: the ladder represents k·P, and TOAFFINE reads its x-coordinate off. -/
theorem smulComputesTheMultiple : Obligations.SmulComputesTheMultiple := by
  intro _ s
  refine ⟨fun x y h hxb hx hk => ?_, fun hxb hk => ?_, exists_completesWith_smul_one⟩
  · have h0 : s.engine.latch.k ≠ 0 := ne_of_toNat_lt hk
    have hrep := represents_ladder (h := h) h0 hxb hx
    refine ⟨fun x' y' h' hmul => ?_, fun hmul => ?_⟩ <;> rw [hmul] at hrep
    · obtain ⟨v, hv, hresidue, hlt⟩ := toAffine_of_represents_some hrep
      obtain ⟨t, hc, rfl⟩ := exists_completesWith_smul s ((smulResult_of_ne_zero h0 _).trans hv)
      exact ⟨t, hc, hresidue, hlt⟩
    · exact exists_completesWith_smul s ((smulResult_of_ne_zero h0 _).trans (toAffine_of_represents_zero hrep))
  · have h1 : s.engine.latch.k ≠ 1 := ne_of_toNat_lt hk
    have h0 : s.engine.latch.k ≠ 0 := ne_of_toNat_lt (Nat.zero_lt_of_lt hk)
    have hz := ladder_fst_z_eq_zero h0 h1 hxb
    exact exists_completesWith_smul s ((smulResult_of_ne_zero h0 _).trans (toAffine_of_z_eq_zero hz))

end Sys2Proof.Machine
end

section
/-! PROOFS. How commands end, and the time between a clock stop and reset: each command's result code by its condition,
and the free values that reads and `irq` answer with until `rst_n` falls. -/

namespace Sys2Proof.Machine

/-! ## Result codes (R200, R202, R208) -/

/-- TOAFFINE ends with INV_ZERO and RESX = 0 at Z = 0, and else with OK (R178). -/
theorem toAffine_ends (q : Point) :
    (toAffine q).2 = codeOk ∨ (fe q.z = 0 ∧ toAffine q = (0, codeInvZero)) := by
  by_cases hz : fe q.z = 0
  · exact .inr ⟨hz, if_pos hz⟩
  · exact .inl (by rw [toAffine, if_neg hz])

/-- SMUL of a nonzero scalar ends with OK, or, for k of at least 2, with INV_ZERO and RESX = 0 (R174). -/
theorem smulResult_ends {k : Word256} (h0 : k ≠ 0) (xb : Word256) :
    (smulResult k xb).2 = codeOk ∨ (2 ≤ k.toNat ∧ smulResult k xb = (0, codeInvZero)) := by
  by_cases h1 : k = 1
  · exact .inl (by rw [h1, smulResult_one])
  · have hk : 2 ≤ k.toNat := by bv_omega
    rw [smulResult_of_ne_zero h0]
    exact (toAffine_ends _).imp_right fun h => ⟨hk, h.2⟩

/-- SMUL of zero ends with INFINITY; every other rule with OK, or with INV_ZERO and RESX = 0 where R200 allows it. -/
theorem ruleWrites_ends (i : Instr) (l : Latch) :
    ((i = .smul ∧ l.k = 0) ∧ (ruleWrites i l).2 = codeInfinity) ∨
    (¬(i = .smul ∧ l.k = 0) ∧ ((ruleWrites i l).2 = codeOk ∨
      (ruleWrites i l = ([(.resx, 0)], codeInvZero) ∧
        ((i = .smul ∧ 2 ≤ l.k.toNat) ∨ (i = .affine ∧ fe l.pmz = 0))))) := by
  cases i with
  | smul =>
    by_cases h0 : l.k = 0
    · exact .inl ⟨⟨rfl, h0⟩, by rw [ruleWrites, h0, smulResult_zero]⟩
    · refine .inr ⟨fun h => h0 h.2, (smulResult_ends h0 l.xb).imp_right fun ⟨hk, hend⟩ => ?_⟩
      exact ⟨by rw [ruleWrites, hend], .inl ⟨rfl, hk⟩⟩
  | affine =>
    refine .inr ⟨nofun, (toAffine_ends l.pm).imp_right fun ⟨hz, hend⟩ => ?_⟩
    exact ⟨by rw [ruleWrites, hend], .inr ⟨rfl, hz⟩⟩
  | pdbl slot => cases slot <;> exact .inr ⟨nofun, .inl rfl⟩
  | dadd | lstep | linit => exact .inr ⟨nofun, .inl rfl⟩
  | fauCopy | fauSetui | fauAdd | fauSub | fauMul | fauSqr | fauMului | fauInv | fauIszero | fauEq =>
    exact .inr ⟨nofun, .inl rfl⟩

/-- Settles O22: a command completes with the code its rule ends with. -/
theorem resultCodesTellWhatHappened : Obligations.ResultCodesTellWhatHappened := by
  intro i s t hi ht
  rw [exec_command hi] at ht
  cases ht
  refine ⟨(ruleWrites_bounds i s.engine.latch).2, ?_⟩
  rw [State.complete_status, State.complete_regs]
  rcases ruleWrites_ends i s.engine.latch with ⟨hzero, hcode⟩ | ⟨hzero, hcode | ⟨hend, hwhere⟩⟩
  · rw [hcode]
    exact ⟨iff_of_true rfl hzero, nofun⟩
  · rw [hcode]
    exact ⟨iff_of_false nofun hzero, nofun⟩
  · rw [hend]
    exact ⟨iff_of_false nofun hzero, fun _ => ⟨rfl, hwhere⟩⟩

/-! ## After a clock stop (R219, S16) -/

theorem step_of_clockStop {s : State} {rest : List Input} (h : s.env.inputs = .clockStop :: rest) :
    step s = .next (s.clockStopEdge rest) := by
  rw [step, clockEdge, h]

theorem State.observed_of_powerLost {s : State} (h : s.powerLost = true) : s.observed = s.scrambled := if_pos h

/-- A benign input is no reset. -/
theorem not_rstLow_of_benign {a : Input} (h : benign a = true) : ¬∃ d, a = .rstLow d := by
  rintro ⟨d, rfl⟩
  cases h

/-- After a clock stop a reset edge clears the mark; another clock stop and the host's own edges keep it. -/
theorem step_powerLost_iff {s t : State} (hp : s.powerLost = true) (h : step s = .next t) :
    t.powerLost = false ↔ ∃ d, s.nextInput = .rstLow d := by
  rcases step_cases h with ⟨d, rest, hin, rfl⟩ | ⟨rest, hin, rfl⟩ | ⟨-, hb, rfl⟩ | ⟨hp', -⟩
  · exact iff_of_true rfl ⟨d, nextInput_of_cons hin⟩
  · exact iff_of_false nofun (by rw [nextInput_of_cons hin]; nofun)
  · obtain ⟨e, he⟩ := hostAct_of_powerLost hp
    have hlost : s.hostAct.tick.powerLost = true := by rw [State.tick_powerLost, he, hp]
    exact iff_of_false (by rw [hlost]; decide) (not_rstLow_of_benign hb)
  · rw [hp] at hp'
    cases hp'

/-- After a clock stop `rd` is answered from the free values of the edge. -/
theorem step_resp_of_powerLost {s t : State} (hp : s.powerLost = true) (h : step s = .next t) {off : Offset}
    (hrd : s.nextInput = .rd off) :
    t.env.resp = some (.read (busRead s.scrambled off).1 (busRead s.scrambled off).2) := by
  obtain ⟨rest, hin⟩ := inputs_of_nextInput hrd nofun
  have hstep : step s = .next (s.hostRd off rest).tick := by
    rw [step, clockEdge, hin, ← hostAct_of_rd hin]
    exact if_pos hp
  cases hstep.symm.trans h
  rw [State.hostRd, State.hostRead, State.observed_of_powerLost hp]
  rfl

/-- What a read of a register but K answers: the free value of the edge for a busy slot or RESX, else its word (R66,
R68). -/
theorem State.readWide_of_ne_k (s : State) {g : WideReg} (hg : g ≠ .k) (j : Fin 8) :
    s.readWide g j =
      if g ≠ .xb ∧ s.status.busy = true then Config.busyRead s.edge else wordOf (s.regs.get g) j := by
  split
  next h => exact State.readWide_of_busy h.2 hg h.1 j
  next h =>
    by_cases hx : g = .xb
    · rw [hx]
      exact s.readWide_xb j
    · exact State.readWide_of_idle (Bool.eq_false_iff.2 fun hb => h ⟨hx, hb⟩) hg j

/-- Between a clock stop and reset each register may be read as the free word of its number. -/
theorem State.scrambled_get (s : State) (g : WideReg) :
    s.scrambled.regs.get g = Config.lostWord s.edge g.number := by
  cases g <;> rfl

/-- Settles O44: reads and `irq` see the scrambled state, and only a reset edge clears the mark. -/
theorem onlyResetEndsAClockStop : Obligations.OnlyResetEndsAClockStop := by
  refine ⟨fun s rest hin => ⟨_, step_of_clockStop hin, rfl⟩, fun s t => step_powerLost_iff, fun s hp => ?_,
    fun s t hp h => ⟨fun g j hg hrd => ?_, fun hrd => ?_, fun hrd => ?_⟩⟩
  · rw [State.irq, State.observed_of_powerLost hp]
    rfl
  · rw [step_resp_of_powerLost hp h hrd, busRead_wordOffset, State.readWide_of_ne_k _ hg, State.scrambled_get]
    rfl
  · rw [step_resp_of_powerLost hp h hrd, busRead_ctrl]
    exact ⟨_, rfl, Status.toNat_ctrlWord _⟩
  · rw [step_resp_of_powerLost hp h hrd, busRead_status]
    exact ⟨_, rfl, Status.toNat_statusWord _⟩

end Sys2Proof.Machine
end
